-- ==== Sys2Proof/Word.lean ====
section
/-! DEFINITION. The block's word types (spec/00_scope.md R10, R11, R14): 64-bit registers and program counter,
32-bit instruction words of the decoder layer, bytes of the memory view. -/

namespace Sys2Proof

/-- A 64-bit place: a register, the program counter, a data word (R10, R14). -/
abbrev Word := BitVec 64

/-- One byte of the little-endian byte view of the data memory (R105). -/
abbrev Byte := BitVec 8

/-- A 32-bit binary instruction word of the decoder layer in front of the block (R170). -/
abbrev InstrWord := BitVec 32

end Sys2Proof
end

