-- ==== Sys2Proof/Syntax.lean ====
section
/-! DEFINITION. The instruction set as syntax (spec/30_encoding.md R160 to R163): the 28 opcodes and one
constructor per row of spec/opcode_table.json. An index that an opcode does not use is 0 in the record (R161), so a
constructor carries only the operands its format has. -/

namespace Sys2Proof

/-- An architectural register index, `x0` to `x31` (R32, R160). -/
abbrev Reg := Fin 32

/-- The 28 opcodes, in the order of R163. -/
inductive Op where
  | add | sub | and | or | xor | sll | srl | sra | mul | div | divu | rem | remu
  | addi | andi | ori | xori | slli | srli | srai
  | ld | sd
  | beq | bne | blt | bge
  | lui | jal
  deriving DecidableEq, Repr, Inhabited

/-- One decoded program record (R160). An immediate is an integer (R160); the range its format allows is checked by
`Instr.WellFormed` (R161). For B and J it is half the byte offset (R164); for the immediate shifts it is the amount. -/
inductive Instr where
  | add (rd rs1 rs2 : Reg)
  | sub (rd rs1 rs2 : Reg)
  | and (rd rs1 rs2 : Reg)
  | or (rd rs1 rs2 : Reg)
  | xor (rd rs1 rs2 : Reg)
  | sll (rd rs1 rs2 : Reg)
  | srl (rd rs1 rs2 : Reg)
  | sra (rd rs1 rs2 : Reg)
  | mul (rd rs1 rs2 : Reg)
  | div (rd rs1 rs2 : Reg)
  | divu (rd rs1 rs2 : Reg)
  | rem (rd rs1 rs2 : Reg)
  | remu (rd rs1 rs2 : Reg)
  | addi (rd rs1 : Reg) (imm : Int)
  | andi (rd rs1 : Reg) (imm : Int)
  | ori (rd rs1 : Reg) (imm : Int)
  | xori (rd rs1 : Reg) (imm : Int)
  | slli (rd rs1 : Reg) (shamt : Nat)
  | srli (rd rs1 : Reg) (shamt : Nat)
  | srai (rd rs1 : Reg) (shamt : Nat)
  | ld (rd rs1 : Reg) (imm : Int)
  | sd (rs1 rs2 : Reg) (imm : Int)
  | beq (rs1 rs2 : Reg) (imm : Int)
  | bne (rs1 rs2 : Reg) (imm : Int)
  | blt (rs1 rs2 : Reg) (imm : Int)
  | bge (rs1 rs2 : Reg) (imm : Int)
  | lui (rd : Reg) (imm : Int)
  | jal (rd : Reg) (imm : Int)
  deriving DecidableEq, Repr, Inhabited

/-- The operation field of a record as it reaches the launch check of R600: one of the 28 opcodes, or a name outside
them (R179, R512). -/
inductive RawOp where
  | known (op : Op)
  | unknown (name : String)
  deriving DecidableEq, Repr, Inhabited

/-- A program record before the launch check (R160): its five fields as plain numbers, not yet known to be
well-formed. -/
structure RawRecord where
  op : RawOp
  rd : Nat
  rs1 : Nat
  rs2 : Nat
  imm : Int
  deriving DecidableEq, Repr, Inhabited

end Sys2Proof
end

