-- ==== Sys2Proof/WellFormed.lean ====
section
/-! DEFINITION. Record well-formedness (spec/30_encoding.md R161): each format's immediate range. Register indices
are in range by their type, and an unused index is absent from the constructor (R161 makes it 0). -/

namespace Sys2Proof

/-- The 12-bit signed range of formats I, S and B (R161). -/
abbrev InRange12 (imm : Int) : Prop := -2048 ≤ imm ∧ imm ≤ 2047

/-- The 20-bit signed range of formats U and J (R161). -/
abbrev InRange20 (imm : Int) : Prop := -524288 ≤ imm ∧ imm ≤ 524287

/-- The range of a shift amount, format Ish (R161). -/
abbrev InRangeShift (shamt : Nat) : Prop := shamt ≤ 63

/-- The immediate fits the opcode's format (R161), as a check that evaluates. -/
def Instr.wellFormed : Instr → Bool
  | .add _ _ _ | .sub _ _ _ | .and _ _ _ | .or _ _ _ | .xor _ _ _ | .sll _ _ _ | .srl _ _ _ | .sra _ _ _
  | .mul _ _ _ | .div _ _ _ | .divu _ _ _ | .rem _ _ _ | .remu _ _ _ => true
  | .addi _ _ imm | .andi _ _ imm | .ori _ _ imm | .xori _ _ imm | .ld _ _ imm => decide (InRange12 imm)
  | .slli _ _ shamt | .srli _ _ shamt | .srai _ _ shamt => decide (InRangeShift shamt)
  | .sd _ _ imm => decide (InRange12 imm)
  | .beq _ _ imm | .bne _ _ imm | .blt _ _ imm | .bge _ _ imm => decide (InRange12 imm)
  | .lui _ imm | .jal _ imm => decide (InRange20 imm)

/-- The record is well-formed (R161). -/
abbrev Instr.WellFormed (i : Instr) : Prop := i.wellFormed = true

end Sys2Proof
end

