-- ==== Sys2Proof/Decode.lean ====
section
/-! DEFINITION. The decoder layer in front of the block and its encoder (spec/30_encoding.md R170 to R175): one 32-bit word
an instruction, the opcode map of R172 read field by field, the immediates of R171. The block itself takes decoded records
(R19, R160). -/

namespace Sys2Proof

/-- Why the decoder layer refuses its input: `REFUSED_ENCODING` (R173), or fewer bytes than one instruction (R175). -/
inductive DecodeError where
  | encoding (word : InstrWord)
  | truncated
  deriving DecidableEq, Repr, Inhabited

/-! ### Fields (R170) -/

def opcodeField (w : InstrWord) : BitVec 7 := w.extractLsb' 0 7
def rdField (w : InstrWord) : BitVec 5 := w.extractLsb' 7 5
def funct3Field (w : InstrWord) : BitVec 3 := w.extractLsb' 12 3
def rs1Field (w : InstrWord) : BitVec 5 := w.extractLsb' 15 5
def rs2Field (w : InstrWord) : BitVec 5 := w.extractLsb' 20 5
def funct7Field (w : InstrWord) : BitVec 7 := w.extractLsb' 25 7
def funct6Field (w : InstrWord) : BitVec 6 := w.extractLsb' 26 6

/-- A 5-bit field as a register index. -/
def regOfField (f : BitVec 5) : Reg := ⟨f.toNat, f.isLt⟩

def rdOf (w : InstrWord) : Reg := regOfField (rdField w)
def rs1Of (w : InstrWord) : Reg := regOfField (rs1Field w)
def rs2Of (w : InstrWord) : Reg := regOfField (rs2Field w)

/-! ### Immediates (R171) -/

/-- I: `sext_12(w[31:20])`. -/
def immI (w : InstrWord) : Int := (w.extractLsb' 20 12).toInt

/-- Ish: `zext_6(w[25:20])`. -/
def shamtOf (w : InstrWord) : Nat := (w.extractLsb' 20 6).toNat

/-- S: `sext_12(w[31:25], w[11:7])`. -/
def immS (w : InstrWord) : Int := (w.extractLsb' 25 7 ++ w.extractLsb' 7 5 : BitVec 12).toInt

/-- B: `sext_12(w[31], w[7], w[30:25], w[11:8])`, half the byte offset. -/
def immB (w : InstrWord) : Int :=
  (w.extractLsb' 31 1 ++ w.extractLsb' 7 1 ++ w.extractLsb' 25 6 ++ w.extractLsb' 8 4 : BitVec 12).toInt

/-- U: `sext_20(w[31:12])`. -/
def immU (w : InstrWord) : Int := (w.extractLsb' 12 20).toInt

/-- J: `sext_20(w[31], w[19:12], w[20], w[30:21])`, half the byte offset. -/
def immJ (w : InstrWord) : Int :=
  (w.extractLsb' 31 1 ++ w.extractLsb' 12 8 ++ w.extractLsb' 20 1 ++ w.extractLsb' 21 10 : BitVec 20).toInt

/-! ### The opcode map (R172), opcode by opcode -/

/-- `opcode = 0110011`. -/
def decodeR (w : InstrWord) : Option Instr :=
  let rd := rdOf w
  let rs1 := rs1Of w
  let rs2 := rs2Of w
  let f3 := funct3Field w
  if funct7Field w = 0b0000000#7 then
    if f3 = 0b000#3 then some (.add rd rs1 rs2)
    else if f3 = 0b001#3 then some (.sll rd rs1 rs2)
    else if f3 = 0b100#3 then some (.xor rd rs1 rs2)
    else if f3 = 0b101#3 then some (.srl rd rs1 rs2)
    else if f3 = 0b110#3 then some (.or rd rs1 rs2)
    else if f3 = 0b111#3 then some (.and rd rs1 rs2)
    else none
  else if funct7Field w = 0b0100000#7 then
    if f3 = 0b000#3 then some (.sub rd rs1 rs2)
    else if f3 = 0b101#3 then some (.sra rd rs1 rs2)
    else none
  else if funct7Field w = 0b0000001#7 then
    if f3 = 0b000#3 then some (.mul rd rs1 rs2)
    else if f3 = 0b100#3 then some (.div rd rs1 rs2)
    else if f3 = 0b101#3 then some (.divu rd rs1 rs2)
    else if f3 = 0b110#3 then some (.rem rd rs1 rs2)
    else if f3 = 0b111#3 then some (.remu rd rs1 rs2)
    else none
  else none

/-- `opcode = 0010011`. -/
def decodeI (w : InstrWord) : Option Instr :=
  let rd := rdOf w
  let rs1 := rs1Of w
  let f3 := funct3Field w
  if f3 = 0b000#3 then some (.addi rd rs1 (immI w))
  else if f3 = 0b100#3 then some (.xori rd rs1 (immI w))
  else if f3 = 0b110#3 then some (.ori rd rs1 (immI w))
  else if f3 = 0b111#3 then some (.andi rd rs1 (immI w))
  else if f3 = 0b001#3 then
    if funct6Field w = 0b000000#6 then some (.slli rd rs1 (shamtOf w)) else none
  else if f3 = 0b101#3 then
    if funct6Field w = 0b000000#6 then some (.srli rd rs1 (shamtOf w))
    else if funct6Field w = 0b010000#6 then some (.srai rd rs1 (shamtOf w))
    else none
  else none

/-- `opcode = 1100011`. -/
def decodeB (w : InstrWord) : Option Instr :=
  let rs1 := rs1Of w
  let rs2 := rs2Of w
  let f3 := funct3Field w
  if f3 = 0b000#3 then some (.beq rs1 rs2 (immB w))
  else if f3 = 0b001#3 then some (.bne rs1 rs2 (immB w))
  else if f3 = 0b100#3 then some (.blt rs1 rs2 (immB w))
  else if f3 = 0b101#3 then some (.bge rs1 rs2 (immB w))
  else none

/-- The opcode map (R172): the instruction a word spells, if any. -/
def decodeRow (w : InstrWord) : Option Instr :=
  let op := opcodeField w
  if op = 0b0110011#7 then decodeR w
  else if op = 0b0010011#7 then decodeI w
  else if op = 0b0000011#7 then
    if funct3Field w = 0b011#3 then some (.ld (rdOf w) (rs1Of w) (immI w)) else none
  else if op = 0b0100011#7 then
    if funct3Field w = 0b011#3 then some (.sd (rs1Of w) (rs2Of w) (immS w)) else none
  else if op = 0b1100011#7 then decodeB w
  else if op = 0b0110111#7 then some (.lui (rdOf w) (immU w))
  else if op = 0b1101111#7 then some (.jal (rdOf w) (immJ w))
  else none

/-- The decoder layer on one word: the instruction, or `REFUSED_ENCODING` (R173). -/
def decodeWord (w : InstrWord) : Except DecodeError Instr :=
  match decodeRow w with
  | some i => .ok i
  | none => .error (.encoding w)

/-- Four bytes as one instruction word, the byte at the lowest address first, least significant first (R105's byte view;
notes/assumptions/5.md). -/
def wordOfBytes (b0 b1 b2 b3 : Byte) : InstrWord := b3 ++ b2 ++ b1 ++ b0

/-- The decoder layer on a stream of bytes: one instruction of 4 bytes (R175) and the bytes after it. -/
def decodeBytes : List Byte → Except DecodeError (Instr × List Byte)
  | b0 :: b1 :: b2 :: b3 :: rest =>
    match decodeWord (wordOfBytes b0 b1 b2 b3) with
    | .ok i => .ok (i, rest)
    | .error e => .error e
  | _ => .error .truncated

/-- The bytes of a word, the lowest address first. -/
def bytesOfInstrWord (w : InstrWord) : List Byte :=
  [w.extractLsb' 0 8, w.extractLsb' 8 8, w.extractLsb' 16 8, w.extractLsb' 24 8]

/-- The instruction that the decoder reads from a table row's bits: `w` has `nbits` bits, every bit above them is 0, and the
one word is laid out in bytes as `bytesOfInstrWord` does. More bits than one instruction has are no instruction (R175). -/
def decodeTableWord (nbits w : Nat) : Option Instr :=
  if 32 < nbits then none
  else
    match decodeBytes (bytesOfInstrWord (BitVec.ofNat 32 (w % 2 ^ nbits))) with
    | .ok (i, []) => some i
    | _ => none

/-! ### The encoder (R170) -/

/-- A register index as its 5-bit field. -/
def regField (r : Reg) : BitVec 5 := BitVec.ofNat 5 r.val

/-- Format R. -/
def encodeR (funct7 : BitVec 7) (funct3 : BitVec 3) (rd rs1 rs2 : Reg) : InstrWord :=
  funct7 ++ regField rs2 ++ regField rs1 ++ funct3 ++ regField rd ++ 0b0110011#7

/-- Format I. -/
def encodeI (opcode : BitVec 7) (funct3 : BitVec 3) (rd rs1 : Reg) (imm : Int) : InstrWord :=
  BitVec.ofInt 12 imm ++ regField rs1 ++ funct3 ++ regField rd ++ opcode

/-- Format Ish. -/
def encodeIsh (funct6 : BitVec 6) (funct3 : BitVec 3) (rd rs1 : Reg) (shamt : Nat) : InstrWord :=
  funct6 ++ BitVec.ofNat 6 shamt ++ regField rs1 ++ funct3 ++ regField rd ++ 0b0010011#7

/-- Format S. -/
def encodeS (rs1 rs2 : Reg) (imm : Int) : InstrWord :=
  let m := BitVec.ofInt 12 imm
  m.extractLsb' 5 7 ++ regField rs2 ++ regField rs1 ++ 0b011#3 ++ m.extractLsb' 0 5 ++ 0b0100011#7

/-- Format B. Bit `k` of the record's immediate is bit `k + 1` of the byte offset R170 names. -/
def encodeB (funct3 : BitVec 3) (rs1 rs2 : Reg) (imm : Int) : InstrWord :=
  let m := BitVec.ofInt 12 imm
  m.extractLsb' 11 1 ++ m.extractLsb' 4 6 ++ regField rs2 ++ regField rs1 ++ funct3 ++ m.extractLsb' 0 4 ++
    m.extractLsb' 10 1 ++ 0b1100011#7

/-- Format U. -/
def encodeU (rd : Reg) (imm : Int) : InstrWord :=
  BitVec.ofInt 20 imm ++ regField rd ++ 0b0110111#7

/-- Format J. Bit `k` of the record's immediate is bit `k + 1` of the byte offset R170 names. -/
def encodeJ (rd : Reg) (imm : Int) : InstrWord :=
  let m := BitVec.ofInt 20 imm
  m.extractLsb' 19 1 ++ m.extractLsb' 0 10 ++ m.extractLsb' 10 1 ++ m.extractLsb' 11 8 ++ regField rd ++
    0b1101111#7

/-- The word of a well-formed instruction (R170, R172). -/
def encode : Instr → InstrWord
  | .add rd rs1 rs2 => encodeR 0b0000000#7 0b000#3 rd rs1 rs2
  | .sub rd rs1 rs2 => encodeR 0b0100000#7 0b000#3 rd rs1 rs2
  | .and rd rs1 rs2 => encodeR 0b0000000#7 0b111#3 rd rs1 rs2
  | .or rd rs1 rs2 => encodeR 0b0000000#7 0b110#3 rd rs1 rs2
  | .xor rd rs1 rs2 => encodeR 0b0000000#7 0b100#3 rd rs1 rs2
  | .sll rd rs1 rs2 => encodeR 0b0000000#7 0b001#3 rd rs1 rs2
  | .srl rd rs1 rs2 => encodeR 0b0000000#7 0b101#3 rd rs1 rs2
  | .sra rd rs1 rs2 => encodeR 0b0100000#7 0b101#3 rd rs1 rs2
  | .mul rd rs1 rs2 => encodeR 0b0000001#7 0b000#3 rd rs1 rs2
  | .div rd rs1 rs2 => encodeR 0b0000001#7 0b100#3 rd rs1 rs2
  | .divu rd rs1 rs2 => encodeR 0b0000001#7 0b101#3 rd rs1 rs2
  | .rem rd rs1 rs2 => encodeR 0b0000001#7 0b110#3 rd rs1 rs2
  | .remu rd rs1 rs2 => encodeR 0b0000001#7 0b111#3 rd rs1 rs2
  | .addi rd rs1 imm => encodeI 0b0010011#7 0b000#3 rd rs1 imm
  | .andi rd rs1 imm => encodeI 0b0010011#7 0b111#3 rd rs1 imm
  | .ori rd rs1 imm => encodeI 0b0010011#7 0b110#3 rd rs1 imm
  | .xori rd rs1 imm => encodeI 0b0010011#7 0b100#3 rd rs1 imm
  | .slli rd rs1 shamt => encodeIsh 0b000000#6 0b001#3 rd rs1 shamt
  | .srli rd rs1 shamt => encodeIsh 0b000000#6 0b101#3 rd rs1 shamt
  | .srai rd rs1 shamt => encodeIsh 0b010000#6 0b101#3 rd rs1 shamt
  | .ld rd rs1 imm => encodeI 0b0000011#7 0b011#3 rd rs1 imm
  | .sd rs1 rs2 imm => encodeS rs1 rs2 imm
  | .beq rs1 rs2 imm => encodeB 0b000#3 rs1 rs2 imm
  | .bne rs1 rs2 imm => encodeB 0b001#3 rs1 rs2 imm
  | .blt rs1 rs2 imm => encodeB 0b100#3 rs1 rs2 imm
  | .bge rs1 rs2 imm => encodeB 0b101#3 rs1 rs2 imm
  | .lui rd imm => encodeU rd imm
  | .jal rd imm => encodeJ rd imm

/-! ### The table of R172 as rows -/

/-- One row of spec/opcode_table.json: a word is the opcode when `w &&& mask = pattern` (R172). -/
structure OpcodeRow where
  op : Op
  mask : InstrWord
  pattern : InstrWord
  deriving DecidableEq, Repr

/-- The 28 rows of spec/opcode_table.json (R172). -/
def opcodeRows : List OpcodeRow := [
  ⟨.add, 0xfe00707f#32, 0x00000033#32⟩,
  ⟨.sub, 0xfe00707f#32, 0x40000033#32⟩,
  ⟨.and, 0xfe00707f#32, 0x00007033#32⟩,
  ⟨.or, 0xfe00707f#32, 0x00006033#32⟩,
  ⟨.xor, 0xfe00707f#32, 0x00004033#32⟩,
  ⟨.sll, 0xfe00707f#32, 0x00001033#32⟩,
  ⟨.srl, 0xfe00707f#32, 0x00005033#32⟩,
  ⟨.sra, 0xfe00707f#32, 0x40005033#32⟩,
  ⟨.mul, 0xfe00707f#32, 0x02000033#32⟩,
  ⟨.div, 0xfe00707f#32, 0x02004033#32⟩,
  ⟨.divu, 0xfe00707f#32, 0x02005033#32⟩,
  ⟨.rem, 0xfe00707f#32, 0x02006033#32⟩,
  ⟨.remu, 0xfe00707f#32, 0x02007033#32⟩,
  ⟨.addi, 0x0000707f#32, 0x00000013#32⟩,
  ⟨.andi, 0x0000707f#32, 0x00007013#32⟩,
  ⟨.ori, 0x0000707f#32, 0x00006013#32⟩,
  ⟨.xori, 0x0000707f#32, 0x00004013#32⟩,
  ⟨.slli, 0xfc00707f#32, 0x00001013#32⟩,
  ⟨.srli, 0xfc00707f#32, 0x00005013#32⟩,
  ⟨.srai, 0xfc00707f#32, 0x40005013#32⟩,
  ⟨.ld, 0x0000707f#32, 0x00003003#32⟩,
  ⟨.sd, 0x0000707f#32, 0x00003023#32⟩,
  ⟨.beq, 0x0000707f#32, 0x00000063#32⟩,
  ⟨.bne, 0x0000707f#32, 0x00001063#32⟩,
  ⟨.blt, 0x0000707f#32, 0x00004063#32⟩,
  ⟨.bge, 0x0000707f#32, 0x00005063#32⟩,
  ⟨.lui, 0x0000007f#32, 0x00000037#32⟩,
  ⟨.jal, 0x0000007f#32, 0x0000006f#32⟩]

end Sys2Proof
end

