-- ==== Sys2Proof/Config.lean ====
section
/-! DEFINITION. What an implementation of the block fixes (spec/00_scope.md R12): the parameters "a model takes as an
argument", and the free predictor. The parameters are one plain record that State carries unchanged, so every statement
over all states is a statement over all configurations (notes/assumptions/2.md). -/

namespace Sys2Proof

/-- `DIV_OVERFLOW` (R12, R315): what `DIV` and `REM` of `-2^63` by `-1` give. -/
inductive DivOverflow where
  | fault
  | wrap
  deriving DecidableEq, Repr, Inhabited

/-- `PREDICTOR` (R12, R221, R222): the two reference predictors of R222, and `free`, which stands for any other. -/
inductive PredictorKind where
  | staticNotTaken
  | lastOutcome
  | free
  deriving DecidableEq, Repr, Inhabited

/-- One update of the predictor at a branch's writeback (R211, R221). -/
inductive PredictorEvent where
  | direction (pc : Word) (taken : Bool)
  | target (pc : Word) (target : Word)
  deriving DecidableEq, Repr, Inhabited

/-- The parameters of R12 that the spec leaves OPEN. `NREG`, `XLEN`, `WORD_BYTES`, `ILEN_BYTES` and `ENTRY_PC` are fixed by the
spec and stand in the model's types and definitions. -/
structure Config where
  /-- `CACHE_BYTES` (`C`) -/
  cacheBytes : Nat
  /-- `BLOCK_BYTES` (`B`) -/
  blockBytes : Nat
  /-- `WAYS` (`A`) -/
  ways : Nat
  /-- `MEM_BYTES` -/
  memBytes : Nat
  /-- `CODE_BYTES` -/
  codeBytes : Nat
  /-- `MEM_LATENCY` (`L`) -/
  memLatency : Nat
  /-- `LAT(op)`, indexed by the opcode's place in R163 -/
  lat : Vector Nat 28
  /-- `SPECULATION` enabled -/
  speculation : Bool
  /-- `FORWARDING` enabled -/
  forwarding : Bool
  /-- `PREDICTOR` -/
  predictor : PredictorKind
  /-- `DIV_OVERFLOW` -/
  divOverflow : DivOverflow
  deriving DecidableEq, Repr

/-- A free predictor's answer to `is_taken` (R221), as a function of the updates it has received, oldest first: "any
direction/target predictor may be substituted behind this interface". No body: nothing is known of it
(notes/assumptions/3.md). -/
opaque Config.freeIsTaken : List PredictorEvent → Word → Bool

/-- A free predictor's answer to `get_target` (R221), likewise without a body (notes/assumptions/3.md). -/
opaque Config.freeGetTarget : List PredictorEvent → Word → Word

/-- The configuration of the spec's test vectors (spec/92_eei_decisions.md D59), the one `State.reset` carries. D59 names no
predictor and disables speculation, so no rule consults one; the model takes the free one (notes/assumptions/2.md).
DESIGN CHOICE. -/
def Config.reference : Config where
  cacheBytes := 256
  blockBytes := 32
  ways := 2
  memBytes := 4096
  codeBytes := 256
  memLatency := 4
  lat := Vector.replicate 28 1
  speculation := false
  forwarding := true
  predictor := .free
  divOverflow := .fault

end Sys2Proof
end

