-- ==== Sys2Proof/Machine/State.lean ====
section
/-! DEFINITION. The block's state (spec/10_state.md R30 to R54) as plain data, the reasons a step can stop, and the state
after reset (spec/70_reset_and_hazards.md R600). Two pieces are the model's own carriers of what R30 calls parameters of the
step (`cfg`, `program`), and one is the model's own cursor (`stage`): INVENTORY.md, heading State. -/

namespace Sys2Proof.Machine

/-- The fault codes (R501). -/
inductive FaultCode where
  | config
  | init
  | dataMisaligned
  | dataBounds
  | fetchPcZero
  | fetchMisaligned
  | divOverflow
  | storeBusy
  deriving DecidableEq, Repr, Inhabited

/-- The conditions of `config_ok`, in the order of R13: the `info` of `E_CONFIG` is the first that fails (R501). -/
inductive ConfigCheck where
  | blockSize
  | waysPowerOfTwo
  | setCount
  | memLatency
  | regionAlignment
  | codeRegion
  deriving DecidableEq, Repr, Inhabited

/-- The `info` of a fault: "the offending address/line" (R500, R501). -/
inductive FaultInfo where
  /-- the first failing condition of R13 -/
  | check (c : ConfigCheck)
  /-- an ill-formed program record (R504) -/
  | record (r : RawRecord)
  /-- an invalid `REG_INIT` entry (R602): its key, and its value if it has one -/
  | regEntry (key : Int) (value : Option Int)
  /-- an invalid `MEM_INIT` entry (R603) -/
  | memEntry (address : Int) (value : Int)
  /-- a data address, or a block address, and the record's `pc` (R505, R506) -/
  | access (address : Nat) (pc : Word)
  /-- a fetch address or a record's `pc` (R507 to R509) -/
  | atPc (pc : Word)
  /-- a block address (R510) -/
  | block (address : Nat)
  deriving DecidableEq, Repr, Inhabited

/-- Why the block is stopped, as the outcome of a step or of a launch (R500, R501). A raise during a cycle is first a next
state whose `status` is `faulted` (R500 freezes the whole state as the observable result); the step after it answers with the
constructor here. Each is safe: the spec itself stops the block there. -/
inductive Fault where
  /-- `E_CONFIG`, raised by the launch when `config_ok` fails (R503). Safe. -/
  | config (info : FaultInfo)
  /-- `E_INIT`, raised by the launch for an invalid record or initial value (R504). Safe. -/
  | init (info : FaultInfo)
  /-- `E_DATA_MISALIGNED`, raised by the MEM stage of `LD` or `SD` (R505). Safe. -/
  | dataMisaligned (info : FaultInfo)
  /-- `E_DATA_BOUNDS`, raised by the MEM stage of `LD` or `SD` on a miss (R506). Safe. -/
  | dataBounds (info : FaultInfo)
  /-- `E_FETCH_PC_ZERO`, raised by the IF stage (R507). Safe. -/
  | fetchPcZero (info : FaultInfo)
  /-- `E_FETCH_MISALIGNED`, raised by the IF stage (R508). Safe. -/
  | fetchMisaligned (info : FaultInfo)
  /-- `E_DIV_OVERFLOW`, raised by the WB stage of a `DIV` or `REM` (R509). Safe. -/
  | divOverflow (info : FaultInfo)
  /-- `E_STORE_BUSY`, raised by a block fetch while one is outstanding; unreachable in the block (R510). Safe. -/
  | storeBusy (info : FaultInfo)
  deriving DecidableEq, Repr, Inhabited

/-- Why an input is refused before the block starts (R512). -/
inductive Refusal where
  /-- An arm of `exec` without a meaning; no arm answers so. Safe. -/
  | notModelled (mnemonic : String)
  /-- `REFUSED_ENCODING`: a word that matches no row of the opcode map, met by the decoder layer (R173). Safe. -/
  | encoding (word : InstrWord)
  /-- `REFUSED_OPCODE`: a record whose operation is outside the 28, met by the launch (R179, R512). Safe. -/
  | opcode (name : String)
  deriving DecidableEq, Repr, Inhabited

/-- `status` (R53). -/
inductive Status where
  | running
  | drained
  | faulted (code : FaultCode) (info : FaultInfo)
  deriving DecidableEq, Repr, Inhabited

/-- The five stages (R200). -/
inductive Stage where
  | writeback
  | memory
  | execute
  | decode
  | fetch
  deriving DecidableEq, Repr, Inhabited

/-- An in-flight record (R40). The fields `op`, `rd`, `rs1`, `rs2`, `imm` of the table in R40 are the parts of `instr`
(Machine/Operands.lean reads them). -/
structure Record where
  seq : Nat
  pc : Word
  instr : Instr
  rs1Val : Word
  rs2Val : Word
  rdVal : Word
  addr : Word
  target : Word
  taken : Bool
  predTarget : Word
  predTaken : Bool
  ready : Bool
  latency : Nat
  memIssued : Bool
  pendingFault : Option FaultCode
  deriving DecidableEq, Repr, Inhabited

/-- The functional unit (R44). -/
inductive FuState where
  | idle
  | busy (record : Record) (exit : Nat)
  | done (record : Record)
  deriving DecidableEq, Repr, Inhabited

/-- One way of one cache set (R47). `data` has `B / W` words. -/
structure Block where
  valid : Bool
  dirty : Bool
  tag : Nat
  data : List Word
  ts : Nat
  deriving DecidableEq, Repr, Inhabited

/-- The counters (R52). -/
structure Counters where
  stalls : Nat
  retired : Nat
  hits : Nat
  misses : Nat
  writebacks : Nat
  flushes : Nat
  branches : Nat
  correct : Nat
  divByZero : Nat
  deriving DecidableEq, Repr, Inhabited

/-- `pstate` (R50, R221, R222). The constructor names the predictor it belongs to. `lastOutcome` is the finite map of R222,
kept by rising `pc` without repeats; `free` is the list of the updates received, oldest first, of which any predictor's
state is a function. -/
inductive PredictorState where
  | staticNotTaken
  | lastOutcome (targets : List (Word × Word))
  | free (events : List PredictorEvent)
  deriving DecidableEq, Repr, Inhabited

/-- The data memory `mem` (R49, R103) in the byte view of R105: (address, byte) pairs in one canonical form
(`Memory.wf`). An unlisted address reads as 0, the value R49 gives every word not initialised. -/
abbrev Memory := List Host.Cell

/-- The block's state (R30). -/
structure State where
  /-- the configuration (R12), carried unchanged by every step -/
  cfg : Config
  /-- `PROGRAM` (R12, R101), carried unchanged by every step: record `k` stands at byte address `4 * (k + 1)` -/
  program : List Instr
  /-- R53 -/
  status : Status
  /-- the model's own: the stage of the cycle being evaluated, `fetch` at every boundary of a cycle that ran to its end -/
  stage : Stage
  /-- R31 -/
  tick : Nat
  /-- R36 -/
  pc : Word
  /-- R51 -/
  fetchBlocked : Bool
  /-- R41 -/
  nextSeq : Nat
  /-- R42 -/
  ifId : Option Record
  /-- R42 -/
  idEx : Option Record
  /-- R42 -/
  exMem : Option Record
  /-- R42 -/
  memWb : Option Record
  /-- R44 -/
  fu : FuState
  /-- R32 -/
  x : Vector Word 32
  /-- R45 -/
  dep : Vector (Option Nat) 32
  /-- R47: `S` sets of `A` ways -/
  cache : List (List Block)
  /-- R48 -/
  miss : Option Nat
  /-- R49 -/
  mem : Memory
  /-- R49: the address of the block being fetched and the tick at which it arrives -/
  req : Option (Nat × Nat)
  /-- R49: the set of byte addresses ever accessed, rising without repeats -/
  touched : List Nat
  /-- R50 -/
  pstate : PredictorState
  /-- R52 -/
  counters : Counters
  deriving DecidableEq, Repr

/-- Every counter at 0 (R52, R600). -/
def Counters.zero : Counters := ⟨0, 0, 0, 0, 0, 0, 0, 0, 0⟩

/-- A cache block after reset (R47, R600), for a block of `words` words. -/
def Block.reset (words : Nat) : Block where
  valid := false
  dirty := false
  tag := 0
  data := List.replicate words 0
  ts := 0

/-- `PREDICTOR.init` (R221, R222). -/
def PredictorState.init : PredictorKind → PredictorState
  | .staticNotTaken => .staticNotTaken
  | .lastOutcome => .lastOutcome []
  | .free => .free []

/-- The assignments of the reset sequence (R600), for a configuration, a program, initial registers and initial memory that
passed its checks (Machine/Launch.lean makes them). -/
def State.initial (cfg : Config) (program : List Instr) (x : Vector Word 32) (mem : Memory) : State where
  cfg := cfg
  program := program
  status := .running
  stage := .fetch
  tick := 0
  pc := 4
  fetchBlocked := false
  nextSeq := 0
  ifId := none
  idEx := none
  exMem := none
  memWb := none
  fu := .idle
  x := x.set 0 0
  dep := Vector.replicate 32 none
  cache := List.replicate (cfg.cacheBytes / (cfg.blockBytes * cfg.ways))
    (List.replicate cfg.ways (Block.reset (cfg.blockBytes / 8)))
  miss := none
  mem := mem
  req := none
  touched := []
  pstate := PredictorState.init cfg.predictor
  counters := Counters.zero

/-- The block right after reset (R600), launched with the empty program (legal by R601), no `REG_INIT`, no `MEM_INIT`, and the
configuration of D59 (notes/assumptions/2.md). -/
def State.reset : State :=
  State.initial Config.reference [] (Vector.replicate 32 0) []

end Sys2Proof.Machine
end

