-- ==== Sys2Proof/Machine/Memory.lean ====
section
/-! DEFINITION. The data memory `mem` (spec/20_memory.md R103 to R106): bytes in one canonical form, and the word and block
accesses of R104 built from them in one place, least significant byte at the lowest address (R105). -/

namespace Sys2Proof.Machine

/-- What an unlisted address reads as: every word not initialised is 0 (R49, R603). -/
def unlistedByte : Byte := 0

/-- The canonical form: addresses strictly rising, and no entry equal to what an unlisted address reads as. -/
abbrev Memory.wf (m : Memory) : Prop :=
  m.Pairwise (fun p q => p.1 < q.1) ∧ ∀ c ∈ m, c.2 ≠ unlistedByte

/-- One byte. -/
def Memory.read : Memory → Nat → Byte
  | [], _ => unlistedByte
  | (k, b) :: m, a => if k = a then b else Memory.read m a

/-- One byte, keeping the canonical form. -/
def Memory.write : Memory → Nat → Byte → Memory
  | [], a, b => if b = unlistedByte then [] else [(a, b)]
  | (k, c) :: m, a, b =>
    if a < k then (if b = unlistedByte then (k, c) :: m else (a, b) :: (k, c) :: m)
    else if a = k then (if b = unlistedByte then m else (a, b) :: m)
    else (k, c) :: Memory.write m a b

/-- `MemRead(a, 8)` (R104): byte `a + j` holds bits `[8j+7 : 8j]` (R105). -/
def Memory.readWord (m : Memory) (a : Nat) : Word :=
  Memory.read m (a + 7) ++ Memory.read m (a + 6) ++ Memory.read m (a + 5) ++ Memory.read m (a + 4) ++
    Memory.read m (a + 3) ++ Memory.read m (a + 2) ++ Memory.read m (a + 1) ++ Memory.read m a

/-- Byte `j` of a word (R105). -/
def byteOf (v : Word) (j : Nat) : Byte := v.extractLsb' (8 * j) 8

/-- The bytes `0 .. n - 1` of a word stored from an address on. -/
def Memory.writeBytes (m : Memory) (a : Nat) (v : Word) : Nat → Memory
  | 0 => m
  | n + 1 => Memory.write (Memory.writeBytes m a v n) (a + n) (byteOf v n)

/-- `MemWrite(a, 8, v)` (R104). -/
def Memory.writeWord (m : Memory) (a : Nat) (v : Word) : Memory := Memory.writeBytes m a v 8

/-- `ReadBlock(a)` (R104) for a block of `words` words. -/
def Memory.readBlock (m : Memory) (a words : Nat) : List Word :=
  (List.range words).map fun j => Memory.readWord m (a + 8 * j)

/-- `WriteBlock(a, d)` (R104). -/
def Memory.writeBlock : Memory → Nat → List Word → Memory
  | m, _, [] => m
  | m, a, v :: d => Memory.writeBlock (Memory.writeWord m a v) (a + 8) d

/-! ### The set `touched` (R49, R112) -/

/-- `s ∪ [a]` for a set of addresses kept rising without repeats. -/
def insertAddress (a : Nat) : List Nat → List Nat
  | [] => [a]
  | b :: s => if a < b then a :: b :: s else if a = b then b :: s else b :: insertAddress a s

/-- `touched ∪ [a, a + n)` (R112). -/
def touchRange (a : Nat) : Nat → List Nat → List Nat
  | 0, s => s
  | n + 1, s => insertAddress (a + n) (touchRange a n s)

end Sys2Proof.Machine
end

