-- ==== Sys2Proof/Machine/Operands.lean ====
section
/-! DEFINITION. Operand forms and the values the functional unit computes from them (spec/30_encoding.md R161 to R165,
spec/00_scope.md R14, R15, spec/41_integer_register.md R301 to R315, spec/42_integer_immediate.md R341 to R347). -/

namespace Sys2Proof.Machine

/-! ### The fields of a record (R160, R161, R163) -/

/-- The record's opcode (R163). -/
def opOf : Instr → Op
  | .add _ _ _ => .add
  | .sub _ _ _ => .sub
  | .and _ _ _ => .and
  | .or _ _ _ => .or
  | .xor _ _ _ => .xor
  | .sll _ _ _ => .sll
  | .srl _ _ _ => .srl
  | .sra _ _ _ => .sra
  | .mul _ _ _ => .mul
  | .div _ _ _ => .div
  | .divu _ _ _ => .divu
  | .rem _ _ _ => .rem
  | .remu _ _ _ => .remu
  | .addi _ _ _ => .addi
  | .andi _ _ _ => .andi
  | .ori _ _ _ => .ori
  | .xori _ _ _ => .xori
  | .slli _ _ _ => .slli
  | .srli _ _ _ => .srli
  | .srai _ _ _ => .srai
  | .ld _ _ _ => .ld
  | .sd _ _ _ => .sd
  | .beq _ _ _ => .beq
  | .bne _ _ _ => .bne
  | .blt _ _ _ => .blt
  | .bge _ _ _ => .bge
  | .lui _ _ => .lui
  | .jal _ _ => .jal

/-- The destination index, 0 where the format has none (R161). -/
def rdIndex : Instr → Reg
  | .add rd _ _ | .sub rd _ _ | .and rd _ _ | .or rd _ _ | .xor rd _ _ | .sll rd _ _ | .srl rd _ _ | .sra rd _ _
  | .mul rd _ _ | .div rd _ _ | .divu rd _ _ | .rem rd _ _ | .remu rd _ _ => rd
  | .addi rd _ _ | .andi rd _ _ | .ori rd _ _ | .xori rd _ _ | .ld rd _ _ => rd
  | .slli rd _ _ | .srli rd _ _ | .srai rd _ _ => rd
  | .lui rd _ | .jal rd _ => rd
  | .sd _ _ _ | .beq _ _ _ | .bne _ _ _ | .blt _ _ _ | .bge _ _ _ => 0

/-- The first source index, 0 where the format has none (R161). -/
def rs1Index : Instr → Reg
  | .add _ rs1 _ | .sub _ rs1 _ | .and _ rs1 _ | .or _ rs1 _ | .xor _ rs1 _ | .sll _ rs1 _ | .srl _ rs1 _
  | .sra _ rs1 _ | .mul _ rs1 _ | .div _ rs1 _ | .divu _ rs1 _ | .rem _ rs1 _ | .remu _ rs1 _ => rs1
  | .addi _ rs1 _ | .andi _ rs1 _ | .ori _ rs1 _ | .xori _ rs1 _ | .ld _ rs1 _ => rs1
  | .slli _ rs1 _ | .srli _ rs1 _ | .srai _ rs1 _ => rs1
  | .sd rs1 _ _ | .beq rs1 _ _ | .bne rs1 _ _ | .blt rs1 _ _ | .bge rs1 _ _ => rs1
  | .lui _ _ | .jal _ _ => 0

/-- The second source index, 0 where the format has none (R161). -/
def rs2Index : Instr → Reg
  | .add _ _ rs2 | .sub _ _ rs2 | .and _ _ rs2 | .or _ _ rs2 | .xor _ _ rs2 | .sll _ _ rs2 | .srl _ _ rs2
  | .sra _ _ rs2 | .mul _ _ rs2 | .div _ _ rs2 | .divu _ _ rs2 | .rem _ _ rs2 | .remu _ _ rs2 => rs2
  | .sd _ rs2 _ | .beq _ rs2 _ | .bne _ rs2 _ | .blt _ rs2 _ | .bge _ rs2 _ => rs2
  | .addi _ _ _ | .andi _ _ _ | .ori _ _ _ | .xori _ _ _ | .ld _ _ _ | .slli _ _ _ | .srli _ _ _ | .srai _ _ _ => 0
  | .lui _ _ | .jal _ _ => 0

/-- The record's immediate, 0 for format R (R161). -/
def immIndex : Instr → Int
  | .add _ _ _ | .sub _ _ _ | .and _ _ _ | .or _ _ _ | .xor _ _ _ | .sll _ _ _ | .srl _ _ _ | .sra _ _ _
  | .mul _ _ _ | .div _ _ _ | .divu _ _ _ | .rem _ _ _ | .remu _ _ _ => 0
  | .addi _ _ imm | .andi _ _ imm | .ori _ _ imm | .xori _ _ imm | .ld _ _ imm => imm
  | .slli _ _ shamt | .srli _ _ shamt | .srai _ _ shamt => shamt
  | .sd _ _ imm | .beq _ _ imm | .bne _ _ imm | .blt _ _ imm | .bge _ _ imm => imm
  | .lui _ imm | .jal _ imm => imm

/-- The conditional branches (R163, format B). -/
def isBranch : Instr → Bool
  | .beq _ _ _ | .bne _ _ _ | .blt _ _ _ | .bge _ _ _ => true
  | .add _ _ _ | .sub _ _ _ | .and _ _ _ | .or _ _ _ | .xor _ _ _ | .sll _ _ _ | .srl _ _ _ | .sra _ _ _
  | .mul _ _ _ | .div _ _ _ | .divu _ _ _ | .rem _ _ _ | .remu _ _ _ => false
  | .addi _ _ _ | .andi _ _ _ | .ori _ _ _ | .xori _ _ _ | .slli _ _ _ | .srli _ _ _ | .srai _ _ _ => false
  | .ld _ _ _ | .sd _ _ _ | .lui _ _ | .jal _ _ => false

/-- The memory opcodes (R102, R163). -/
def isMemory : Instr → Bool
  | .ld _ _ _ | .sd _ _ _ => true
  | .add _ _ _ | .sub _ _ _ | .and _ _ _ | .or _ _ _ | .xor _ _ _ | .sll _ _ _ | .srl _ _ _ | .sra _ _ _
  | .mul _ _ _ | .div _ _ _ | .divu _ _ _ | .rem _ _ _ | .remu _ _ _ => false
  | .addi _ _ _ | .andi _ _ _ | .ori _ _ _ | .xori _ _ _ | .slli _ _ _ | .srli _ _ _ | .srai _ _ _ => false
  | .beq _ _ _ | .bne _ _ _ | .blt _ _ _ | .bge _ _ _ | .lui _ _ | .jal _ _ => false

/-- An opcode's place in R163, which indexes the table `LAT` of R12. -/
def opNumber : Op → Fin 28
  | .add => 0 | .sub => 1 | .and => 2 | .or => 3 | .xor => 4 | .sll => 5 | .srl => 6 | .sra => 7 | .mul => 8
  | .div => 9 | .divu => 10 | .rem => 11 | .remu => 12 | .addi => 13 | .andi => 14 | .ori => 15 | .xori => 16
  | .slli => 17 | .srli => 18 | .srai => 19 | .ld => 20 | .sd => 21 | .beq => 22 | .bne => 23 | .blt => 24
  | .bge => 25 | .lui => 26 | .jal => 27

/-- `LAT(op)` (R12, R165). -/
def latencyOf (cfg : Config) (op : Op) : Nat := cfg.lat.get (opNumber op)

/-! ### Immediates as 64-bit values (R162, R164) -/

/-- `sext(imm)`: the integer written into 64 bits (R14, R162). -/
def immValue (imm : Int) : Word := BitVec.ofInt 64 imm

/-- `2 * sext(imm)`: the byte offset of formats B and J (R164). -/
def byteOffset (imm : Int) : Word := 2#64 * immValue imm

/-- `sext(imm) << 12`: the value of format U (R164). -/
def upperValue (imm : Int) : Word := immValue imm <<< 12

/-! ### Register-register results (R301 to R309) -/

/-- `u64(b)[5:0]`: the shift amount of the register shifts (R306). -/
def shiftAmount (b : Word) : Nat := b.toNat % 64

def sllResult (a b : Word) : Word := a <<< shiftAmount b
def srlResult (a b : Word) : Word := a >>> shiftAmount b
def sraResult (a b : Word) : Word := a.sshiftRight (shiftAmount b)

/-- The low 64 bits of the product (R309). -/
def mulResult (a b : Word) : Word := BitVec.ofNat 64 (a.toNat * b.toNat)

/-! ### Division (R310 to R315) -/

/-- `tdiv` (R15): signed division rounded toward zero. -/
def tdiv (n d : Int) : Int := Int.tdiv n d

/-- `trem` (R15). -/
def trem (n d : Int) : Int := n - d * tdiv n d

/-- The divisor of `DIV` and `REM`: 1 stands for 0 (R314). -/
def signedDivisor (b : Word) : Int := if b = 0 then 1 else b.toInt

/-- The divisor of `DIVU` and `REMU`: 1 stands for 0 (R314). -/
def unsignedDivisor (b : Word) : Nat := if b = 0 then 1 else b.toNat

/-- The signed overflow case: dividend `-2^63`, divisor `-1` (R315). -/
def divOverflows (a b : Word) : Bool :=
  decide (a.toInt = -9223372036854775808 ∧ signedDivisor b = -1)

def divResult (a b : Word) : Word := BitVec.ofInt 64 (tdiv a.toInt (signedDivisor b))
def remResult (a b : Word) : Word := BitVec.ofInt 64 (trem a.toInt (signedDivisor b))
def divuResult (a b : Word) : Word := BitVec.ofNat 64 (a.toNat / unsignedDivisor b)
def remuResult (a b : Word) : Word := BitVec.ofNat 64 (a.toNat % unsignedDivisor b)

/-! ### What EX completion writes into a record (R205) -/

/-- `I.rd_val <- v`, then `I.ready <- true` (R205). -/
def setResult (v : Word) (I : Record) : Record := { I with rdVal := v, ready := true }

/-- EX completion of a register-register operation without a fault (R300). -/
def computeRR (f : Word → Word → Word) (I : Record) : Record := setResult (f I.rs1Val I.rs2Val) I

/-- EX completion of a register-immediate operation (R340). -/
def computeRI (f : Word → Word) (I : Record) : Record := setResult (f I.rs1Val) I

/-- EX completion of `DIV` and `REM` (R310, R312), with `Overflow(I)` of R315; `wrapped` is the `wrap` result. -/
def computeSignedDivision (f : Word → Word → Word) (wrapped : Word) (policy : DivOverflow) (I : Record) : Record :=
  if divOverflows I.rs1Val I.rs2Val then
    match policy with
    | .fault => setResult 0 { I with pendingFault := some .divOverflow }
    | .wrap => setResult wrapped I
  else setResult (f I.rs1Val I.rs2Val) I

/-- EX completion of `LD`: the effective address; `ready` stays false until the cache delivers the word (R205, R380). -/
def computeLoadAddress (imm : Int) (I : Record) : Record := { I with addr := I.rs1Val + immValue imm }

/-- EX completion of `SD`: the effective address and `ready` (R205, R380). -/
def computeStoreAddress (imm : Int) (I : Record) : Record :=
  { I with addr := I.rs1Val + immValue imm, ready := true }

/-- EX completion of a conditional branch with predicate `cond` (R400). -/
def computeBranch (cond : Word → Word → Bool) (imm : Int) (I : Record) : Record :=
  { I with
    taken := cond I.rs1Val I.rs2Val
    target := if cond I.rs1Val I.rs2Val then I.pc + byteOffset imm else I.pc + 4
    ready := true }

end Sys2Proof.Machine
end

