-- ==== Sys2Proof/Machine/Predictor.lean ====
section
/-! DEFINITION. The branch predictor interface and the reference predictors (spec/40_pipeline.md R221, R222). -/

namespace Sys2Proof.Machine

/-- `s[p]`, if `p ∈ s`, for the finite map of `last_outcome` (R222). -/
def lookupTarget : List (Word × Word) → Word → Option Word
  | [], _ => none
  | (k, t) :: s, p => if k = p then some t else lookupTarget s p

/-- `s` with `p` removed (R222). -/
def removeTarget : List (Word × Word) → Word → List (Word × Word)
  | [], _ => []
  | (k, t) :: s, p => if k = p then removeTarget s p else (k, t) :: removeTarget s p

/-- `s` with `s[p] <- t` (R222), keeping the rising order of keys. -/
def insertTarget : List (Word × Word) → Word → Word → List (Word × Word)
  | [], p, t => [(p, t)]
  | (k, u) :: s, p, t =>
    if p < k then (p, t) :: (k, u) :: s else if p = k then (p, t) :: s else (k, u) :: insertTarget s p t

/-- `is_taken` and, where it is true, `get_target` (R221, R222): the target of a branch predicted taken. The target of a
branch predicted not taken is never asked for (R220). -/
def predict : PredictorState → Word → Option Word
  | .staticNotTaken, _ => none
  | .lastOutcome s, p => lookupTarget s p
  | .free h, p => if Config.freeIsTaken h p then some (Config.freeGetTarget h p) else none

/-- `update_dir` (R221, R222). -/
def updateDirection : PredictorState → Word → Bool → PredictorState
  | .staticNotTaken, _, _ => .staticNotTaken
  | .lastOutcome s, p, taken => if taken then .lastOutcome s else .lastOutcome (removeTarget s p)
  | .free h, p, taken => .free (h ++ [.direction p taken])

/-- `update_target` (R221, R222). -/
def updateTarget : PredictorState → Word → Word → PredictorState
  | .staticNotTaken, _, _ => .staticNotTaken
  | .lastOutcome s, p, t => .lastOutcome (insertTarget s p t)
  | .free h, p, t => .free (h ++ [.target p t])

/-- The predictor a state belongs to. -/
def predictorKind : PredictorState → PredictorKind
  | .staticNotTaken => .staticNotTaken
  | .lastOutcome _ => .lastOutcome
  | .free _ => .free

end Sys2Proof.Machine
end

