-- ==== Sys2Proof/Machine/Ops.lean ====
section
/-! DEFINITION. The operations the stages share: raising a fault (spec/60_exceptions.md R500), the register file with its
hazard tracking (spec/10_state.md R33, spec/40_pipeline.md R206 to R209), the flush and branch resolution (R211, R212), the
instruction source and new records (R217, R218). -/

namespace Sys2Proof.Machine

/-! ### Taking a fault (R500) -/

/-- `raise Fault(code, info)` (R500): the status alone changes; the cycle stops here (`andThen` in Machine/Pipeline.lean), so
the rest of the state is frozen as it stands. There is no handler and no return (R514, R515). -/
def raiseFault (code : FaultCode) (info : FaultInfo) (s : State) : State :=
  { s with status := .faulted code info }

/-- The outcome a stopped block answers with (R501). -/
def faultOf : FaultCode → FaultInfo → Fault
  | .config, info => .config info
  | .init, info => .init info
  | .dataMisaligned, info => .dataMisaligned info
  | .dataBounds, info => .dataBounds info
  | .fetchPcZero, info => .fetchPcZero info
  | .fetchMisaligned, info => .fetchMisaligned info
  | .divOverflow, info => .divOverflow info
  | .storeBusy, info => .storeBusy info

/-- The fault's number (R501). -/
def faultNumber : FaultCode → Nat
  | .config => 1
  | .init => 2
  | .dataMisaligned => 3
  | .dataBounds => 4
  | .fetchPcZero => 5
  | .fetchMisaligned => 6
  | .divOverflow => 7
  | .storeBusy => 8

/-! ### Registers and the dependency table -/

/-- `x[i]` (R16, R33): index 0 reads 0. -/
def readReg (s : State) (i : Reg) : Word := if i = 0 then 0 else s.x.get i

/-- `x[i] <- v` (R16, R33): a write to index 0 is ignored. -/
def writeReg (s : State) (i : Reg) (v : Word) : State :=
  if i = 0 then s else { s with x := s.x.set i v }

/-- The record in the functional unit, if any (R44). -/
def FuState.record? : FuState → Option Record
  | .idle => none
  | .busy I _ => some I
  | .done I => some I

/-- The records a producer can be among (R224). -/
def producers (s : State) : List Record :=
  s.idEx.toList ++ (FuState.record? s.fu).toList ++ s.exMem.toList ++ s.memWb.toList

/-- `InFlight(q)` (R224). -/
def inFlight (s : State) (q : Nat) : Option Record := (producers s).find? fun I => I.seq == q

/-- `Operand(i)` (R206); `none` is STALL. -/
def operand (s : State) (i : Reg) : Option Word :=
  if i = 0 then some 0
  else
    match s.dep.get i with
    | none => some (readReg s i)
    | some q =>
      match inFlight s q with
      | some P => if s.cfg.forwarding && P.ready then some P.rdVal else none
      | none => none

/-- `DepCheck(I)` for the two source indices (R206); `none` is STALL. -/
def depCheck (s : State) (rs1 rs2 : Reg) : Option (Word × Word) :=
  match operand s rs1, operand s rs2 with
  | some a, some b => some (a, b)
  | _, _ => none

/-- Producer registration (R207): index 0 never has a producer (R33). -/
def registerProducer (s : State) (rd : Reg) (q : Nat) : State :=
  if rd = 0 then s else { s with dep := s.dep.set rd (some q) }

/-- Compare-then-clear (R208). -/
def clearProducer (s : State) (i : Reg) (q : Nat) : State :=
  if s.dep.get i = some q then { s with dep := s.dep.set i none } else s

/-- `if I.rd ≠ 0: Write(I, I.rd, I.rd_val)` (R208, R210). -/
def commitResult (rd : Reg) (I : Record) (s : State) : State :=
  if rd = 0 then s else clearProducer (writeReg s rd I.rdVal) rd I.seq

/-! ### Flush and branch resolution -/

/-- `Flush()` (R209, R212). -/
def flush (s : State) : State :=
  { s with
    ifId := none
    idEx := none
    exMem := none
    memWb := none
    fu := .idle
    dep := Vector.replicate 32 none
    fetchBlocked := false }

/-- The predictor or fetch-control part of `Resolve(I)` (R211). -/
def resolvePrediction (I : Record) (s : State) : State :=
  if s.cfg.speculation then
    let p := updateDirection s.pstate I.pc I.taken
    { s with pstate := if I.taken then updateTarget p I.pc I.target else p }
  else { s with fetchBlocked := false }

/-- `Resolve(I)` (R211). -/
def resolveBranch (I : Record) (s : State) : State :=
  let s := resolvePrediction I { s with counters.branches := s.counters.branches + 1 }
  if I.predTarget ≠ I.target then
    let s := flush s
    { s with pc := I.target, counters.flushes := s.counters.flushes + 1 }
  else { s with counters.correct := s.counters.correct + 1 }

/-! ### The instruction source and new records -/

/-- A fetch address that `read` may be asked at (R217, R218). -/
def fetchable (pc : Word) : Bool := pc.toNat != 0 && pc.toNat % 4 == 0

/-- `read(pc)` (R101, R218), at a fetchable address. -/
def readProgram (program : List Instr) (pc : Word) : Option Instr :=
  if fetchable pc then program[pc.toNat / 4 - 1]? else none

/-- A fresh record (R40, R41, R217). -/
def newRecord (s : State) (i : Instr) : Record where
  seq := s.nextSeq
  pc := s.pc
  instr := i
  rs1Val := 0
  rs2Val := 0
  rdVal := 0
  addr := 0
  target := 0
  taken := false
  predTarget := s.pc + 4
  predTaken := false
  ready := false
  latency := latencyOf s.cfg (opOf i)
  memIssued := false
  pendingFault := none

/-- The fetch of a record up to `Predict` (R217): the record enters `IF_ID`, the handle is used up, `pc` advances. -/
def fetchRecord (i : Instr) (s : State) : State :=
  { s with ifId := some (newRecord s i), nextSeq := s.nextSeq + 1, pc := s.pc + 4 }

/-- `Predict(I)` with speculation disabled (R219). -/
def predictBlocked (i : Instr) (s : State) : State := { fetchRecord i s with fetchBlocked := true }

/-- `Predict(I)` with speculation enabled (R220). -/
def predictSpeculative (i : Instr) (s : State) : State :=
  match predict s.pstate s.pc with
  | some t =>
    { fetchRecord i s with
      ifId := some { newRecord s i with predTaken := true, predTarget := t }
      pc := t }
  | none => fetchRecord i s

/-- The fetch of a conditional branch (R217, R219, R220). -/
def fetchBranch (i : Instr) (s : State) : State :=
  if s.cfg.speculation then predictSpeculative i s else predictBlocked i s

end Sys2Proof.Machine
end

