-- ==== Sys2Proof/Machine/Cache.lean ====
section
/-! DEFINITION. The set-associative cache and the backing store behind it (spec/20_memory.md R108 to R119): lookup, hit, miss,
block fetch, response, replacement of way 0, replay, and the coherent image. What `LD` and `SD` do to a resident block
(`Apply(I, blk)`, R110) is a parameter, given by each of the two instructions. -/

namespace Sys2Proof.Machine

/-! ### Address decomposition (R108) -/

/-- `S` (R12). -/
def setCount (cfg : Config) : Nat := cfg.cacheBytes / (cfg.blockBytes * cfg.ways)

/-- `offset(a)`. -/
def offsetOf (cfg : Config) (a : Nat) : Nat := a % cfg.blockBytes

/-- `set(a)`. -/
def setIndexOf (cfg : Config) (a : Nat) : Nat := a / cfg.blockBytes % setCount cfg

/-- `tag(a)`. -/
def tagOf (cfg : Config) (a : Nat) : Nat := a / (cfg.blockBytes * setCount cfg)

/-- `word(a)`. -/
def wordIndexOf (cfg : Config) (a : Nat) : Nat := offsetOf cfg a / 8

/-- `base(a)`. -/
def baseOf (cfg : Config) (a : Nat) : Nat := a - offsetOf cfg a

/-- `base_of(tag, set)`. -/
def baseOfTag (cfg : Config) (tag set : Nat) : Nat := (tag * setCount cfg + set) * cfg.blockBytes

/-- Words in a block, `B / W` (R47). -/
def blockWords (cfg : Config) : Nat := cfg.blockBytes / 8

/-! ### Blocks -/

/-- The ways of the set that `a` falls into. -/
def cacheSetOf (s : State) (a : Nat) : List Block := s.cache.getD (setIndexOf s.cfg a) []

/-- The first valid way of a set with a tag (R109); at most one can match. -/
def findWay (ways : List Block) (tag : Nat) : Option Nat :=
  ways.findIdx? fun b => b.valid && b.tag == tag

/-- The way that holds `a`, if one does. -/
def lookupWay (s : State) (a : Nat) : Option Nat := findWay (cacheSetOf s a) (tagOf s.cfg a)

/-- The block in a way of `a`'s set. -/
def blockAt (s : State) (a way : Nat) : Option Block := (cacheSetOf s a)[way]?

/-- Put a block into a way of `a`'s set. -/
def setBlock (s : State) (a way : Nat) (b : Block) : State :=
  { s with cache := s.cache.set (setIndexOf s.cfg a) ((cacheSetOf s a).set way b) }

/-- `Apply(I, blk)` (R110) without the timestamp, which the shared operations write: the record and the block after
it. -/
abbrev Apply := Config → Record → Block → Record × Block

/-- `Apply` of `LD` (R110). -/
def applyLoad : Apply := fun cfg I b =>
  ({ I with rdVal := b.data.getD (wordIndexOf cfg I.addr.toNat) 0, ready := true }, b)

/-- `Apply` of `SD` (R110). -/
def applyStore : Apply := fun cfg I b =>
  (I, { b with data := b.data.set (wordIndexOf cfg I.addr.toNat) I.rs2Val, dirty := true })

/-! ### Access (R109 to R112) -/

/-- `Hit(I, blk)` (R110). -/
def cacheHit (ap : Apply) (I : Record) (way : Nat) (b : Block) (s : State) : State :=
  let r := ap s.cfg I b
  let s := setBlock s I.addr.toNat way { r.2 with ts := s.tick }
  { s with exMem := some r.1, counters.hits := s.counters.hits + 1 }

/-- `LoadBlock(a, B)` (R112), for the record whose `pc` the fault reports (R501). -/
def loadBlock (a : Nat) (pc : Word) (s : State) : State :=
  if a % s.cfg.blockBytes ≠ 0 ∨ a < s.cfg.codeBytes ∨ s.cfg.memBytes < a + s.cfg.blockBytes then
    raiseFault .dataBounds (.access a pc) s
  else if s.req.isSome then raiseFault .storeBusy (.block a) s
  else
    { s with
      touched := touchRange a s.cfg.blockBytes s.touched
      req := some (a, s.tick + s.cfg.memLatency) }

/-- `Miss(I)` (R111). -/
def cacheMiss (I : Record) (s : State) : State :=
  loadBlock (baseOf s.cfg I.addr.toNat) I.pc
    { s with counters.misses := s.counters.misses + 1, miss := some I.seq }

/-- `Access(I)` (R109), with the alignment check first (R107). -/
def cacheAccess (ap : Apply) (I : Record) (s : State) : State :=
  if I.addr.toNat % 8 ≠ 0 then raiseFault .dataMisaligned (.access I.addr.toNat I.pc) s
  else
    match lookupWay s I.addr.toNat with
    | some way =>
      match blockAt s I.addr.toNat way with
      | some b => cacheHit ap I way b s
      | none => cacheMiss I s
    | none => cacheMiss I s

/-! ### Response (R113 to R116) -/

/-- Writing back way 0 of `a`'s set when it is valid and dirty (R114). -/
def evictVictim (a : Nat) (s : State) : State :=
  match blockAt s a 0 with
  | some v =>
    if v.valid && v.dirty then
      { s with
        counters.writebacks := s.counters.writebacks + 1
        mem := Memory.writeBlock s.mem (baseOfTag s.cfg v.tag (setIndexOf s.cfg a)) v.data }
    else s
  | none => s

/-- The block that a response installs (R114). -/
def arrivedBlock (s : State) (a : Nat) (d : List Word) : Block where
  valid := true
  dirty := false
  tag := tagOf s.cfg a
  data := d
  ts := s.tick

/-- `Replay(blk)` (R115): the record that `miss` names is the one in `EX_MEM` (R223). -/
def replay (ap : Apply) (a : Nat) (b : Block) (s : State) : State :=
  match s.exMem with
  | some I =>
    if s.miss = some I.seq then
      let r := ap s.cfg I b
      { setBlock s a 0 { r.2 with ts := s.tick } with exMem := some r.1 }
    else s
  | none => s

/-- `HandleResponse(a, d)` (R114): evict, install in way 0, replay, clear `miss`. -/
def handleResponse (ap : Apply) (a : Nat) (d : List Word) (s : State) : State :=
  let s := evictVictim a s
  let b := arrivedBlock s a d
  { replay ap a b (setBlock s a 0 b) with miss := none }

/-- `StoreRun()` (R113). -/
def storeRun (ap : Apply) (s : State) : State :=
  match s.req with
  | some (a, t) =>
    if t ≤ s.tick then
      handleResponse ap a (Memory.readBlock s.mem a (blockWords s.cfg)) { s with req := none }
    else s
  | none => s

/-- `CacheRun()`'s answer: the cache is busy (R48, R116). -/
def cacheBusy (s : State) : Bool := s.miss.isSome

/-! ### The coherent image (R119) -/

/-- `Coherent(a)` (R119). -/
def coherent (s : State) (a : Nat) : Word :=
  match lookupWay s a with
  | some way =>
    match blockAt s a way with
    | some b => b.data.getD (wordIndexOf s.cfg a) 0
    | none => Memory.readWord s.mem a
  | none => Memory.readWord s.mem a

end Sys2Proof.Machine
end

