-- ==== Sys2Proof/Machine/Flags.lean ====
section
/-! DEFINITION. The block has no condition codes, status flags or predicates that an instruction sets or reads (spec/10_state.md
R38); a conditional branch compares two register values directly. What other machines keep in flags is here the four
predicates of spec/44_branch.md R401 to R404. -/

namespace Sys2Proof.Machine

/-- BEQ: `u64(a) = u64(b)` (R401). -/
def condEq (a b : Word) : Bool := decide (a.toNat = b.toNat)

/-- BNE: `u64(a) ≠ u64(b)` (R402). -/
def condNe (a b : Word) : Bool := decide (a.toNat ≠ b.toNat)

/-- BLT: `s64(a) < s64(b)` (R403). -/
def condLt (a b : Word) : Bool := decide (a.toInt < b.toInt)

/-- BGE: `s64(a) >= s64(b)` (R404). -/
def condGe (a b : Word) : Bool := decide (b.toInt ≤ a.toInt)

end Sys2Proof.Machine
end

