-- ==== Sys2Proof/Machine/Stages.lean ====
section
/-! DEFINITION. What an instruction does in each of the five stages, as shared operations (spec/40_pipeline.md R204 to R221).
An instruction's meaning is one `StageMeaning`: its fetch (R217), decode (R215), EX completion (R205), MEM (R213) and writeback
(R210). `atStage` runs the part that belongs to the stage being evaluated (`State.stage`); the stages themselves, with what
does not depend on the opcode, are in Machine/Pipeline.lean. Each part acts on the record in its stage's place and does
nothing when that place is empty. -/

namespace Sys2Proof.Machine

/-- An instruction's part in each stage. -/
structure StageMeaning where
  fetch : State → State
  decode : State → State
  execute : State → State
  memory : State → State
  writeback : State → State

/-- The part that belongs to the stage being evaluated. -/
def atStage (m : StageMeaning) (s : State) : State :=
  match s.stage with
  | .fetch => m.fetch s
  | .decode => m.decode s
  | .execute => m.execute s
  | .memory => m.memory s
  | .writeback => m.writeback s

/-! ### Decode (R215) -/

/-- The record once its operands are resolved (R215). -/
def withOperands (I : Record) (v : Word × Word) : Record := { I with rs1Val := v.1, rs2Val := v.2 }

/-- Decode of an instruction that is no jump (R206, R207, R215). A stall writes nothing. -/
def decodeRecord (rd rs1 rs2 : Reg) (s : State) : State :=
  match s.ifId with
  | none => s
  | some I =>
    match depCheck s rs1 rs2 with
    | none => s
    | some v => { registerProducer s rd I.seq with idEx := some (withOperands I v), ifId := none }

/-- Decode of `JAL` (R215, R421): the target is resolved and `pc` redirected in the same step. -/
def decodeJump (rd : Reg) (imm : Int) (s : State) : State :=
  match s.ifId with
  | none => s
  | some I =>
    match depCheck s 0 0 with
    | none => s
    | some v =>
      { registerProducer s rd I.seq with
        idEx := some { withOperands I v with target := I.pc + byteOffset imm }
        ifId := none
        pc := I.pc + byteOffset imm }

/-! ### EX completion (R204, R205) -/

/-- `Compute(I)` of the record in the functional unit, which becomes `Done`. -/
def completeRecord (f : Record → Record) (s : State) : State :=
  match s.fu with
  | .busy I _ => { s with fu := .done (f I) }
  | .idle => s
  | .done _ => s

/-- The `div_by_zero` counter (R314): one more when the divisor's 64 bits are all zero. -/
def countDivision (I : Record) (s : State) : State :=
  if I.rs2Val = 0 then { s with counters.divByZero := s.counters.divByZero + 1 } else s

/-- `Compute(I)` of a division or remainder (R310 to R314). -/
def completeDivision (f : Record → Record) (s : State) : State :=
  match s.fu with
  | .busy I _ => { countDivision I s with fu := .done (f I) }
  | .idle => s
  | .done _ => s

/-! ### MEM (R213) -/

/-- The record moves to `MEM_WB` when that latch is free (R213). -/
def passMemory (s : State) : State :=
  match s.exMem with
  | none => s
  | some I => if s.memWb = none then { s with memWb := some I, exMem := none } else s

/-- The access, once (R213, D46). -/
def issueAccess (ap : Apply) (I : Record) (s : State) : State :=
  if I.memIssued then s
  else
    let I := { I with memIssued := true }
    cacheAccess ap I { s with exMem := some I }

/-- What follows the access: the backing store is stepped, and the record moves on unless the cache is busy (R116,
R213). A fault of the access ended the stage (R500). -/
def finishAccess (ap : Apply) (s : State) : State :=
  if s.status = .running then
    let s := storeRun ap s
    if cacheBusy s then s else passMemory s
  else s

/-- The MEM stage of `LD` and `SD` (R213). -/
def accessMemory (ap : Apply) (s : State) : State :=
  match s.exMem with
  | none => s
  | some I => finishAccess ap (issueAccess ap I s)

/-! ### Writeback (R210) -/

/-- The commit of a record without a pending fault, and the count (R210). -/
def retireRecord (rd : Reg) (I : Record) (s : State) : State :=
  let s := commitResult rd I s
  { s with counters.retired := s.counters.retired + 1 }

/-- The writeback stage on its record (R210); `after` is `Resolve` for a conditional branch and nothing for the
others. -/
def writebackRecord (rd : Reg) (after : Record → State → State) (s : State) : State :=
  match s.memWb with
  | none => s
  | some I =>
    match I.pendingFault with
    | some c => raiseFault c (.atPc I.pc) { s with memWb := none }
    | none => after I (retireRecord rd I { s with memWb := none })

/-- Nothing after the commit. -/
def noResolve (_ : Record) (s : State) : State := s

/-! ### The shapes of instructions -/

/-- An instruction that computes one register value in the functional unit: formats R, I, Ish and U (R300, R340,
R420). -/
def computing (i : Instr) (rd rs1 rs2 : Reg) (f : Record → Record) : StageMeaning where
  fetch := fetchRecord i
  decode := decodeRecord rd rs1 rs2
  execute := completeRecord f
  memory := passMemory
  writeback := writebackRecord rd noResolve

/-- A division or remainder: as `computing`, counting a zero divisor (R310 to R314). -/
def dividing (i : Instr) (rd rs1 rs2 : Reg) (f : Record → Record) : StageMeaning where
  fetch := fetchRecord i
  decode := decodeRecord rd rs1 rs2
  execute := completeDivision f
  memory := passMemory
  writeback := writebackRecord rd noResolve

/-- A load or store (R380): the functional unit computes the address and the MEM stage performs the access. -/
def accessing (i : Instr) (rd rs1 rs2 : Reg) (f : Record → Record) (ap : Apply) : StageMeaning where
  fetch := fetchRecord i
  decode := decodeRecord rd rs1 rs2
  execute := completeRecord f
  memory := accessMemory ap
  writeback := writebackRecord rd noResolve

/-- A conditional branch (R400): predicted at fetch, computed in the functional unit, resolved at writeback. -/
def branching (i : Instr) (rs1 rs2 : Reg) (f : Record → Record) : StageMeaning where
  fetch := fetchBranch i
  decode := decodeRecord 0 rs1 rs2
  execute := completeRecord f
  memory := passMemory
  writeback := writebackRecord 0 resolveBranch

/-- The jump (R421): resolved at decode, its link computed in the functional unit. -/
def jumping (i : Instr) (rd : Reg) (imm : Int) (f : Record → Record) : StageMeaning where
  fetch := fetchRecord i
  decode := decodeJump rd imm
  execute := completeRecord f
  memory := passMemory
  writeback := writebackRecord rd noResolve

end Sys2Proof.Machine
end

