-- ==== Sys2Proof/Machine/Branch.lean ====
section
/-! DEFINITION. The four conditional branches (spec/44_branch.md R400 to R404). -/

namespace Sys2Proof.Machine

/-- BEQ (R401). -/
def execBeq (rs1 rs2 : Reg) (imm : Int) (s : State) : Host.Outcome State Fault Refusal :=
  .next (atStage (branching (.beq rs1 rs2 imm) rs1 rs2 (computeBranch condEq imm)) s)

/-- BNE (R402). -/
def execBne (rs1 rs2 : Reg) (imm : Int) (s : State) : Host.Outcome State Fault Refusal :=
  .next (atStage (branching (.bne rs1 rs2 imm) rs1 rs2 (computeBranch condNe imm)) s)

/-- BLT (R403). -/
def execBlt (rs1 rs2 : Reg) (imm : Int) (s : State) : Host.Outcome State Fault Refusal :=
  .next (atStage (branching (.blt rs1 rs2 imm) rs1 rs2 (computeBranch condLt imm)) s)

/-- BGE (R404). -/
def execBge (rs1 rs2 : Reg) (imm : Int) (s : State) : Host.Outcome State Fault Refusal :=
  .next (atStage (branching (.bge rs1 rs2 imm) rs1 rs2 (computeBranch condGe imm)) s)

end Sys2Proof.Machine
end

