-- ==== Sys2Proof/Machine/IntegerImmediate.lean ====
section
/-! DEFINITION. The seven register-immediate instructions (spec/42_integer_immediate.md R340 to R347). -/

namespace Sys2Proof.Machine

/-- ADDI (R341). -/
def execAddi (rd rs1 : Reg) (imm : Int) (s : State) : Host.Outcome State Fault Refusal :=
  .next (atStage (computing (.addi rd rs1 imm) rd rs1 0 (computeRI fun a => a + immValue imm)) s)

/-- ANDI (R342). -/
def execAndi (rd rs1 : Reg) (imm : Int) (s : State) : Host.Outcome State Fault Refusal :=
  .next (atStage (computing (.andi rd rs1 imm) rd rs1 0 (computeRI fun a => a &&& immValue imm)) s)

/-- ORI (R343). -/
def execOri (rd rs1 : Reg) (imm : Int) (s : State) : Host.Outcome State Fault Refusal :=
  .next (atStage (computing (.ori rd rs1 imm) rd rs1 0 (computeRI fun a => a ||| immValue imm)) s)

/-- XORI (R344). -/
def execXori (rd rs1 : Reg) (imm : Int) (s : State) : Host.Outcome State Fault Refusal :=
  .next (atStage (computing (.xori rd rs1 imm) rd rs1 0 (computeRI fun a => a ^^^ immValue imm)) s)

/-- SLLI (R345): the amount is used unmasked. -/
def execSlli (rd rs1 : Reg) (shamt : Nat) (s : State) : Host.Outcome State Fault Refusal :=
  .next (atStage (computing (.slli rd rs1 shamt) rd rs1 0 (computeRI fun a => a <<< shamt)) s)

/-- SRLI (R346): the amount is used unmasked. -/
def execSrli (rd rs1 : Reg) (shamt : Nat) (s : State) : Host.Outcome State Fault Refusal :=
  .next (atStage (computing (.srli rd rs1 shamt) rd rs1 0 (computeRI fun a => a >>> shamt)) s)

/-- SRAI (R347): the amount is used unmasked. -/
def execSrai (rd rs1 : Reg) (shamt : Nat) (s : State) : Host.Outcome State Fault Refusal :=
  .next (atStage (computing (.srai rd rs1 shamt) rd rs1 0 (computeRI fun a => a.sshiftRight shamt)) s)

end Sys2Proof.Machine
end

