-- ==== Sys2Proof/Machine/IntegerRegister.lean ====
section
/-! DEFINITION. The thirteen register-register instructions (spec/41_integer_register.md R300 to R315). -/

namespace Sys2Proof.Machine

/-- ADD (R301). -/
def execAdd (rd rs1 rs2 : Reg) (s : State) : Host.Outcome State Fault Refusal :=
  .next (atStage (computing (.add rd rs1 rs2) rd rs1 rs2 (computeRR (fun a b => a + b))) s)

/-- SUB (R302). -/
def execSub (rd rs1 rs2 : Reg) (s : State) : Host.Outcome State Fault Refusal :=
  .next (atStage (computing (.sub rd rs1 rs2) rd rs1 rs2 (computeRR (fun a b => a - b))) s)

/-- AND (R303). -/
def execAnd (rd rs1 rs2 : Reg) (s : State) : Host.Outcome State Fault Refusal :=
  .next (atStage (computing (.and rd rs1 rs2) rd rs1 rs2 (computeRR (fun a b => a &&& b))) s)

/-- OR (R304). -/
def execOr (rd rs1 rs2 : Reg) (s : State) : Host.Outcome State Fault Refusal :=
  .next (atStage (computing (.or rd rs1 rs2) rd rs1 rs2 (computeRR (fun a b => a ||| b))) s)

/-- XOR (R305). -/
def execXor (rd rs1 rs2 : Reg) (s : State) : Host.Outcome State Fault Refusal :=
  .next (atStage (computing (.xor rd rs1 rs2) rd rs1 rs2 (computeRR (fun a b => a ^^^ b))) s)

/-- SLL (R306). -/
def execSll (rd rs1 rs2 : Reg) (s : State) : Host.Outcome State Fault Refusal :=
  .next (atStage (computing (.sll rd rs1 rs2) rd rs1 rs2 (computeRR sllResult)) s)

/-- SRL (R307). -/
def execSrl (rd rs1 rs2 : Reg) (s : State) : Host.Outcome State Fault Refusal :=
  .next (atStage (computing (.srl rd rs1 rs2) rd rs1 rs2 (computeRR srlResult)) s)

/-- SRA (R308). -/
def execSra (rd rs1 rs2 : Reg) (s : State) : Host.Outcome State Fault Refusal :=
  .next (atStage (computing (.sra rd rs1 rs2) rd rs1 rs2 (computeRR sraResult)) s)

/-- MUL (R309). -/
def execMul (rd rs1 rs2 : Reg) (s : State) : Host.Outcome State Fault Refusal :=
  .next (atStage (computing (.mul rd rs1 rs2) rd rs1 rs2 (computeRR mulResult)) s)

/-- DIV (R310, R314, R315): the `wrap` result of the overflow case is `-2^63`. -/
def execDiv (rd rs1 rs2 : Reg) (s : State) : Host.Outcome State Fault Refusal :=
  .next (atStage
    (dividing (.div rd rs1 rs2) rd rs1 rs2
      (computeSignedDivision divResult 0x8000000000000000#64 s.cfg.divOverflow)) s)

/-- DIVU (R311, R314). -/
def execDivu (rd rs1 rs2 : Reg) (s : State) : Host.Outcome State Fault Refusal :=
  .next (atStage (dividing (.divu rd rs1 rs2) rd rs1 rs2 (computeRR divuResult)) s)

/-- REM (R312, R314, R315): the `wrap` result of the overflow case is 0. -/
def execRem (rd rs1 rs2 : Reg) (s : State) : Host.Outcome State Fault Refusal :=
  .next (atStage
    (dividing (.rem rd rs1 rs2) rd rs1 rs2
      (computeSignedDivision remResult 0#64 s.cfg.divOverflow)) s)

/-- REMU (R313, R314). -/
def execRemu (rd rs1 rs2 : Reg) (s : State) : Host.Outcome State Fault Refusal :=
  .next (atStage (dividing (.remu rd rs1 rs2) rd rs1 rs2 (computeRR remuResult)) s)

end Sys2Proof.Machine
end

