-- ==== Sys2Proof/Machine/LoadStore.lean ====
section
/-! DEFINITION. The two memory instructions (spec/43_load_store.md R380 to R382). -/

namespace Sys2Proof.Machine

/-- LD (R381): base `rs1`, destination `rd`. -/
def execLd (rd rs1 : Reg) (imm : Int) (s : State) : Host.Outcome State Fault Refusal :=
  .next (atStage (accessing (.ld rd rs1 imm) rd rs1 0 (computeLoadAddress imm) applyLoad) s)

/-- SD (R382): base `rs1`, data `rs2`, no destination. -/
def execSd (rs1 rs2 : Reg) (imm : Int) (s : State) : Host.Outcome State Fault Refusal :=
  .next (atStage (accessing (.sd rs1 rs2 imm) 0 rs1 rs2 (computeStoreAddress imm) applyStore) s)

end Sys2Proof.Machine
end

