-- ==== Sys2Proof/Machine/UpperJump.lean ====
section
/-! DEFINITION. The upper-immediate load and the jump (spec/45_upper_immediate_jump.md R420, R421). -/

namespace Sys2Proof.Machine

/-- LUI (R420). -/
def execLui (rd : Reg) (imm : Int) (s : State) : Host.Outcome State Fault Refusal :=
  .next (atStage (computing (.lui rd imm) rd 0 0 (setResult (upperValue imm))) s)

/-- JAL (R421): the link is the record's own `pc + 4`. -/
def execJal (rd : Reg) (imm : Int) (s : State) : Host.Outcome State Fault Refusal :=
  .next (atStage (jumping (.jal rd imm) rd imm fun I => setResult (I.pc + 4) I) s)

end Sys2Proof.Machine
end

