-- ==== Sys2Proof/Machine/Pipeline.lean ====
section
/-! DEFINITION. The pipeline controller (spec/40_pipeline.md R200 to R203, R210 to R217): the five stages, the cycle, the run
loop, and the placing of an instruction where fetch reads its next one. A stage hands the record in its place to `exec`, which
runs that instruction's part in the stage. -/

namespace Sys2Proof.Machine

/-- Sequencing inside a cycle: what follows runs unless a fault has stopped the block (R200, R500). -/
def andThen (o : Host.Outcome State Fault Refusal) (f : State → Host.Outcome State Fault Refusal) :
    Host.Outcome State Fault Refusal :=
  match o with
  | .next s => if s.status = .running then f s else .next s
  | .fault r => .fault r
  | .refused r => .refused r

/-- The stage cursor moves to a stage. -/
def enterStage (st : Stage) (s : State) : State := { s with stage := st }

/-- `WB()` (R210). -/
def writebackStage (s : State) : Host.Outcome State Fault Refusal :=
  match s.memWb with
  | none => .next (enterStage .writeback s)
  | some I => exec I.instr (enterStage .writeback s)

/-- `MEM()` (R213). -/
def memoryStage (s : State) : Host.Outcome State Fault Refusal :=
  match s.exMem with
  | none => .next (enterStage .memory s)
  | some I => exec I.instr (enterStage .memory s)

/-- `Complete()` (R204). -/
def completeStage (s : State) : Host.Outcome State Fault Refusal :=
  match s.fu with
  | .busy I exit => if exit ≤ s.tick then exec I.instr (enterStage .execute s) else .next (enterStage .execute s)
  | .idle => .next (enterStage .execute s)
  | .done _ => .next (enterStage .execute s)

/-- A result drains into `EX_MEM` when that latch is free (R214). -/
def drainUnit (s : State) : State :=
  match s.fu with
  | .done I => if s.exMem = none then { s with exMem := some I, fu := .idle } else s
  | .busy _ _ => s
  | .idle => s

/-- An idle unit accepts the record in `ID_EX` (R204, R214). -/
def feedUnit (s : State) : State :=
  match s.fu, s.idEx with
  | .idle, some I => { s with idEx := none, fu := .busy I (s.tick + max 1 I.latency) }
  | _, _ => s

/-- `EX()` (R214): complete, then drain, then feed. -/
def executeStage (s : State) : Host.Outcome State Fault Refusal :=
  andThen (completeStage s) fun s => .next (feedUnit (drainUnit s))

/-- `ID()` (R215). -/
def decodeStage (s : State) : Host.Outcome State Fault Refusal :=
  match s.ifId with
  | none => .next (enterStage .decode s)
  | some I =>
    if s.idEx = none then exec I.instr (enterStage .decode s) else .next (enterStage .decode s)

/-- No record older than the next fetch is in flight, `IF_ID` being free (R217, R507). -/
def noOlderRecord (s : State) : Bool :=
  s.idEx.isNone && decide (s.fu = .idle) && s.exMem.isNone && s.memWb.isNone

/-- The fetch at an address that `read` may not be asked at (R217, R507, R508). -/
def fetchInvalid (s : State) : State :=
  if noOlderRecord s then
    raiseFault (if s.pc = 0 then .fetchPcZero else .fetchMisaligned) (.atPc s.pc) s
  else s

/-- `IF()` (R217). -/
def fetchStage (s : State) : Host.Outcome State Fault Refusal :=
  let s := enterStage .fetch s
  if s.ifId.isSome then .next { s with counters.stalls := s.counters.stalls + 1 }
  else if s.fetchBlocked then .next s
  else if fetchable s.pc then
    match readProgram s.program s.pc with
    | none => .next s
    | some i => exec i s
  else .next (fetchInvalid s)

/-- The stages before fetch, in the order of R200. -/
def backStages (s : State) : Host.Outcome State Fault Refusal :=
  andThen (andThen (andThen (writebackStage s) memoryStage) executeStage) decodeStage

/-- `tick <- tick + 1` (R200). -/
def tickOver (s : State) : State := { s with tick := s.tick + 1 }

/-- `Cycle()` (R200). -/
def cycle (s : State) : Host.Outcome State Fault Refusal :=
  andThen (andThen (backStages s) fetchStage) fun s => .next (tickOver s)

/-- `Continue()` (R202). -/
def continues (s : State) : Bool :=
  s.tick == 0 || s.ifId.isSome || s.idEx.isSome || s.exMem.isSome || s.memWb.isSome ||
    decide (s.fu ≠ .idle) || s.miss.isSome

/-- One turn of the run loop (R202): a cycle while the run continues, else `Drained`. `Drained` and `Faulted` are permanent
(R53): a drained block stays as it is, a faulted one answers with its fault (notes/assumptions/6.md). -/
def runLoop (s : State) : Host.Outcome State Fault Refusal :=
  match s.status with
  | .running => if continues s then cycle s else .next { s with status := .drained }
  | .drained => .next s
  | .faulted code info => .fault (faultOf code info)

/-! ### Placing an instruction where fetch reads it -/

/-- `ADDI x0, x0, 0`, "a no-op that takes one slot" (R174). -/
def noOp : Instr := .addi 0 0 0

/-- A program with `i` as its record `k`; records before it that the program lacks are no-ops. -/
def placeRecord : List Instr → Nat → Instr → List Instr
  | [], 0, i => [i]
  | [], k + 1, i => noOp :: placeRecord [] k i
  | _ :: p, 0, i => i :: p
  | j :: p, k + 1, i => j :: placeRecord p k i

/-- The state with `i` as the record that fetch reads at `pc` (R218); nothing to do where no record can stand. -/
def placeInstr (i : Instr) (s : State) : State :=
  if fetchable s.pc then { s with program := placeRecord s.program (s.pc.toNat / 4 - 1) i } else s

/-- The state with the instruction that the decoder layer reads from a word placed at `pc`. A word it refuses never
reaches the block (R173), so nothing is placed. -/
def placeWord (nbits w : Nat) (s : State) : State :=
  match decodeTableWord nbits w with
  | some i => placeInstr i s
  | none => s

end Sys2Proof.Machine
end

