-- ==== Sys2Proof/Machine/Step.lean ====
section
/-! DEFINITION. The step of the block: one turn of the run loop, one cycle a step (spec/00_scope.md R20, spec/40_pipeline.md R200,
R202). -/

namespace Sys2Proof.Machine

/-- One step (R20, R202). -/
def step (s : State) : Host.Outcome State Fault Refusal := runLoop s

/-- `s` with the instruction of a table row's word where fetch reads its next record (R218): the `PROGRAM` record at `pc`. A
program is launched with the block, never loaded by it (R604; notes/assumptions/7.md). -/
def State.withFetchWord (s : State) (nbits w : Nat) : State := placeWord nbits w s

end Sys2Proof.Machine
end

