-- ==== Sys2Proof/Machine/Launch.lean ====
section
/-! DEFINITION. The launch of the block: the checks and assignments of the reset sequence (spec/70_reset_and_hazards.md R600 to
R603, spec/00_scope.md R13, spec/60_exceptions.md R503, R504, R512) over the launch inputs. -/

namespace Sys2Proof.Machine

/-- What the host provides (R604): the configuration, `PROGRAM`, `REG_INIT` and `MEM_INIT`. A `REG_INIT` entry is a register key
`i` of `xi`, any integer, and its value; without a value it is the malformed entry of R602. -/
structure LaunchInput where
  cfg : Config
  program : List RawRecord
  regInit : List (Int × Option Int)
  memInit : List (Int × Int)
  deriving DecidableEq, Repr

/-- What stops a launch (R600). -/
inductive LaunchError where
  | fault (r : Fault)
  | refused (r : Refusal)
  deriving DecidableEq, Repr

/-! ### `config_ok` (R13) -/

/-- A power of two, at least 1. -/
def isPowerOfTwo (n : Nat) : Bool := n != 0 && 2 ^ n.log2 == n

/-- One condition of R13, for a program of `n` records. That every `LAT(op)` is a natural number holds by its type. -/
def configCheck (cfg : Config) (n : Nat) : ConfigCheck → Bool
  | .blockSize => cfg.blockBytes % 8 == 0 && decide (0 < cfg.blockBytes)
  | .waysPowerOfTwo => isPowerOfTwo cfg.ways
  | .setCount =>
    cfg.cacheBytes % (cfg.blockBytes * cfg.ways) == 0 &&
      isPowerOfTwo (cfg.cacheBytes / (cfg.blockBytes * cfg.ways))
  | .memLatency => decide (1 ≤ cfg.memLatency)
  | .regionAlignment => cfg.codeBytes % cfg.blockBytes == 0 && cfg.memBytes % cfg.blockBytes == 0
  | .codeRegion => decide (4 * (n + 1) ≤ cfg.codeBytes ∧ cfg.codeBytes < cfg.memBytes)

/-- The conditions in the order of R13. -/
def configChecks : List ConfigCheck :=
  [.blockSize, .waysPowerOfTwo, .setCount, .memLatency, .regionAlignment, .codeRegion]

/-- `config_ok` (R13). -/
def configOk (cfg : Config) (n : Nat) : Bool := configChecks.all (configCheck cfg n)

/-- The first condition that fails, the `info` of `E_CONFIG` (R501). -/
def firstFailingCheck (cfg : Config) (n : Nat) : Option ConfigCheck :=
  configChecks.find? fun c => !configCheck cfg n c

/-! ### Records (R160, R161) -/

/-- The instruction of a record with a known opcode and indices in range, whatever its immediate and unused indices. -/
def instrOfFields (op : Op) (rd rs1 rs2 : Reg) (imm : Int) : Instr :=
  match op with
  | .add => .add rd rs1 rs2
  | .sub => .sub rd rs1 rs2
  | .and => .and rd rs1 rs2
  | .or => .or rd rs1 rs2
  | .xor => .xor rd rs1 rs2
  | .sll => .sll rd rs1 rs2
  | .srl => .srl rd rs1 rs2
  | .sra => .sra rd rs1 rs2
  | .mul => .mul rd rs1 rs2
  | .div => .div rd rs1 rs2
  | .divu => .divu rd rs1 rs2
  | .rem => .rem rd rs1 rs2
  | .remu => .remu rd rs1 rs2
  | .addi => .addi rd rs1 imm
  | .andi => .andi rd rs1 imm
  | .ori => .ori rd rs1 imm
  | .xori => .xori rd rs1 imm
  | .slli => .slli rd rs1 imm.toNat
  | .srli => .srli rd rs1 imm.toNat
  | .srai => .srai rd rs1 imm.toNat
  | .ld => .ld rd rs1 imm
  | .sd => .sd rs1 rs2 imm
  | .beq => .beq rs1 rs2 imm
  | .bne => .bne rs1 rs2 imm
  | .blt => .blt rs1 rs2 imm
  | .bge => .bge rs1 rs2 imm
  | .lui => .lui rd imm
  | .jal => .jal rd imm

/-- The five fields of an instruction's record, unused indices and format R's immediate 0 (R161). -/
def rawOfInstr (i : Instr) : RawRecord where
  op := .known (opOf i)
  rd := (rdIndex i).val
  rs1 := (rs1Index i).val
  rs2 := (rs2Index i).val
  imm := immIndex i

/-- A record's instruction, if it is well-formed: indices below 32, the fields its format lacks 0, the immediate in range
(R161). -/
def wellFormedInstr (op : Op) (r : RawRecord) : Option Instr :=
  if h : r.rd < 32 ∧ r.rs1 < 32 ∧ r.rs2 < 32 then
    let i := instrOfFields op ⟨r.rd, h.1⟩ ⟨r.rs1, h.2.1⟩ ⟨r.rs2, h.2.2⟩ r.imm
    if i.wellFormed && decide (rawOfInstr i = r) then some i else none
  else none

/-- The check of one record (R600): `REFUSED_OPCODE` before `E_INIT`. -/
def checkRecord (r : RawRecord) : Except LaunchError Instr :=
  match r.op with
  | .unknown name => .error (.refused (.opcode name))
  | .known op =>
    match wellFormedInstr op r with
    | some i => .ok i
    | none => .error (.fault (.init (.record r)))

/-- The records in order; the first that fails stops the launch (R600). -/
def checkProgram : List RawRecord → Except LaunchError (List Instr)
  | [] => .ok []
  | r :: rs =>
    match checkRecord r with
    | .error e => .error e
    | .ok i =>
      match checkProgram rs with
      | .error e => .error e
      | .ok p => .ok (i :: p)

/-! ### Initial values (R602, R603) -/

/-- A value in `[-2^63, 2^64)` (R602, R603). -/
def validValue (n : Int) : Bool := decide (-9223372036854775808 ≤ n ∧ n < 18446744073709551616)

/-- The register a `REG_INIT` key names (R602): `xi` for `0 <= i < 32`. -/
def registerOfKey (i : Int) : Option Reg :=
  if h : 0 ≤ i ∧ i < 32 then some ⟨i.toNat, by omega⟩ else none

/-- A `REG_INIT` entry after the keys `seen` (R602): the register and the value it initialises, or nothing when it is invalid: a
key outside `x0` to `x31`, no value, a value out of range, or a key given before. -/
def checkRegEntry (seen : List Int) (i : Int) (v : Option Int) : Option (Reg × Word) :=
  match registerOfKey i, v with
  | some r, some n => if validValue n && !seen.contains i then some (r, BitVec.ofInt 64 n) else none
  | _, _ => none

/-- `REG_INIT` in order (R602). `seen` holds the keys of the entries before. An entry for `x0` is valid and has no
effect. -/
def initRegisters (seen : List Int) (x : Vector Word 32) :
    List (Int × Option Int) → Except LaunchError (Vector Word 32)
  | [] => .ok x
  | (i, v) :: rest =>
    match checkRegEntry seen i v with
    | some (r, w) => initRegisters (i :: seen) (if r = 0 then x else x.set r w) rest
    | none => .error (.fault (.init (.regEntry i v)))

/-- `MEM_INIT` in order (R603). `seen` holds the addresses of the entries before. -/
def initMemory (cfg : Config) (seen : List Int) (m : Memory) : List (Int × Int) → Except LaunchError Memory
  | [] => .ok m
  | (a, n) :: rest =>
    if decide (a % 8 = 0 ∧ (cfg.codeBytes : Int) ≤ a ∧ a < cfg.memBytes) && validValue n && !seen.contains a then
      initMemory cfg (a :: seen) (Memory.writeWord m a.toNat (BitVec.ofInt 64 n)) rest
    else .error (.fault (.init (.memEntry a n)))

/-! ### Reset (R600) -/

/-- The reset sequence (R600): the state it leaves, or the first check that fails. -/
def resetSequence (l : LaunchInput) : Except LaunchError State :=
  match firstFailingCheck l.cfg l.program.length with
  | some c => .error (.fault (.config (.check c)))
  | none =>
    match checkProgram l.program with
    | .error e => .error e
    | .ok p =>
      match initRegisters [] (Vector.replicate 32 0) l.regInit with
      | .error e => .error e
      | .ok x =>
        match initMemory l.cfg [] [] l.memInit with
        | .error e => .error e
        | .ok m => .ok (State.initial l.cfg p x m)

/-- The launch as one of the three outcomes. -/
def launch (l : LaunchInput) : Host.Outcome State Fault Refusal :=
  match resetSequence l with
  | .ok s => .next s
  | .error (.fault r) => .fault r
  | .error (.refused r) => .refused r

/-! ### The decoder layer in front (R170 to R173, R512) -/

/-- A program given as binary words: the records they decode to, or the first word that spells no instruction. -/
def decodeProgram : List InstrWord → Except InstrWord (List RawRecord)
  | [] => .ok []
  | w :: ws =>
    match decodeWord w with
    | .error _ => .error w
    | .ok i =>
      match decodeProgram ws with
      | .error e => .error e
      | .ok p => .ok (rawOfInstr i :: p)

/-- The launch of a program of binary words: a word that matches no row is refused before reset (`REFUSED_ENCODING`, R173,
R512). -/
def launchWords (cfg : Config) (words : List InstrWord) (regInit : List (Int × Option Int)) (memInit : List (Int × Int)) :
    Host.Outcome State Fault Refusal :=
  match decodeProgram words with
  | .error w => .refused (.encoding w)
  | .ok p => launch ⟨cfg, p, regInit, memInit⟩

end Sys2Proof.Machine
end

