-- ==== Sys2Proof/Machine/Report.lean ====
section
/-! DEFINITION. What the host reads at the end of a run (spec/40_pipeline.md R203, spec/60_exceptions.md R519, R520,
spec/70_reset_and_hazards.md R604, spec/20_memory.md R119). -/

namespace Sys2Proof.Machine

/-- A derived ratio; "undefined" when the denominator is zero (R520). -/
def ratio (n d : Nat) : Option Rat := if d = 0 then none else some ((n : Rat) / (d : Rat))

/-- Cycles per instruction (R52, R520). -/
def cyclesPerInstruction (s : State) : Option Rat := ratio s.tick s.counters.retired

/-- Miss rate (R52, R520). -/
def missRate (s : State) : Option Rat := ratio s.counters.misses (s.counters.hits + s.counters.misses)

/-- Prediction accuracy (R52, R520). -/
def predictionAccuracy (s : State) : Option Rat := ratio s.counters.correct s.counters.branches

/-- The data words "ever touched", each with its coherent value (R119). -/
def touchedWords (s : State) : List (Nat × Word) :=
  (s.touched.filter fun a => a % 8 == 0).map fun a => (a, coherent s a)

/-- The addresses of the data words, rising: the word-aligned ones of `[CODE_BYTES, MEM_BYTES)` (R102, R103). -/
def dataAddresses (cfg : Config) : List Nat :=
  (List.range cfg.memBytes).filter fun a => decide (cfg.codeBytes ≤ a) && a % 8 == 0

/-- The coherent memory image: every data word with its coherent value (R119, R203). -/
def memoryImage (s : State) : List (Nat × Word) :=
  (dataAddresses s.cfg).map fun a => (a, coherent s a)

/-- The observable result of a drained run (R203) and the rest of what the host reads (R604). -/
structure Report where
  /-- `tick` at the end -/
  cycles : Nat
  registers : Vector Word 32
  /-- `Coherent(a)` for every data word `a` -/
  memory : List (Nat × Word)
  touched : List Nat
  /-- the words of `touched` with their coherent values (R119) -/
  touchedWords : List (Nat × Word)
  counters : Counters
  cyclesPerInstruction : Option Rat
  missRate : Option Rat
  predictionAccuracy : Option Rat
  deriving DecidableEq, Repr

/-- The report, once the run has drained; a faulted run has no result (R203), and its fault is read instead (R604). -/
def report (s : State) : Option Report :=
  match s.status with
  | .drained =>
    some
      { cycles := s.tick
        registers := s.x
        memory := memoryImage s
        touched := s.touched
        touchedWords := touchedWords s
        counters := s.counters
        cyclesPerInstruction := cyclesPerInstruction s
        missRate := missRate s
        predictionAccuracy := predictionAccuracy s }
  | .running => none
  | .faulted _ _ => none

end Sys2Proof.Machine
end

