-- ==== Sys2Proof/Safety.lean ====
section
/-! DEFINITION. The terms statements about runs use: what is in flight, where an instruction stands when one of its parts runs,
and the invariants of the block (spec/10_state.md R33, R46, R51, spec/20_memory.md R112, R114, R119, spec/40_pipeline.md R202,
R212, R223 to R225). -/

namespace Sys2Proof.Machine

/-! ### Records in flight -/

/-- The records in flight, oldest first (R225). -/
def recordsInFlight (s : State) : List Record :=
  s.memWb.toList ++ s.exMem.toList ++ (FuState.record? s.fu).toList ++ s.idEx.toList ++ s.ifId.toList

/-- Every latch is empty and the functional unit idle. -/
def PipelineEmpty (s : State) : Prop :=
  s.ifId = none ∧ s.idEx = none ∧ s.exMem = none ∧ s.memWb = none ∧ s.fu = .idle

/-- The record `I` is at the functional unit's completion (R205). -/
def AtExecute (s : State) (I : Record) : Prop := s.stage = .execute ∧ ∃ exit, s.fu = .busy I exit

/-- The record `I` is at decode, and `ID_EX` is free (R215). -/
def AtDecode (s : State) (I : Record) : Prop := s.stage = .decode ∧ s.ifId = some I ∧ s.idEx = none

/-- The record `I` is at the MEM stage of a running block, and `MEM_WB` is free (R213). -/
def AtMemory (s : State) (I : Record) : Prop :=
  s.status = .running ∧ s.stage = .memory ∧ s.exMem = some I ∧ s.memWb = none

/-- The record `I` is at writeback (R210). -/
def AtWriteback (s : State) (I : Record) : Prop := s.stage = .writeback ∧ s.memWb = some I

/-- The fetch stage of a running block takes an instruction in (R217). -/
def AtFetch (s : State) : Prop :=
  s.status = .running ∧ s.stage = .fetch ∧ s.ifId = none ∧ s.fetchBlocked = false ∧ fetchable s.pc = true

/-- `s` after EX completion of the record `I` with result `v`: the record is done with `rd_val = v` and `ready`, and nothing
else of the state differs (R205). -/
def resultDone (s : State) (I : Record) (v : Word) : State :=
  { s with fu := .done { I with rdVal := v, ready := true } }

/-- `n` steps. -/
def steps : Nat → State → Host.Outcome State Fault Refusal
  | 0, s => .next s
  | n + 1, s =>
    match step s with
    | .next t => steps n t
    | .fault r => .fault r
    | .refused r => .refused r

/-! ### The launch inputs, in the words of the spec (R13, R161, R602, R603) -/

/-- One condition of `config_ok` (R13), for a program of `n` records. -/
def ConfigCondition (cfg : Config) (n : Nat) : ConfigCheck → Prop
  | .blockSize => 8 ∣ cfg.blockBytes ∧ 0 < cfg.blockBytes
  | .waysPowerOfTwo => ∃ k, cfg.ways = 2 ^ k
  | .setCount => ∃ k, cfg.cacheBytes = cfg.blockBytes * cfg.ways * 2 ^ k
  | .memLatency => 1 ≤ cfg.memLatency
  | .regionAlignment => cfg.blockBytes ∣ cfg.codeBytes ∧ cfg.blockBytes ∣ cfg.memBytes
  | .codeRegion => 4 * (n + 1) ≤ cfg.codeBytes ∧ cfg.codeBytes < cfg.memBytes

/-- The place of a condition in the order of R13. -/
def conditionNumber : ConfigCheck → Nat
  | .blockSize => 0
  | .waysPowerOfTwo => 1
  | .setCount => 2
  | .memLatency => 3
  | .regionAlignment => 4
  | .codeRegion => 5

/-- `config_ok` (R13). -/
def ConfigValid (cfg : Config) (n : Nat) : Prop := ∀ c, ConfigCondition cfg n c

/-- The formats (R161). -/
inductive Format where
  | r | i | ish | s | b | u | j
  deriving DecidableEq, Repr

/-- An opcode's format (R161, R163). -/
def formatOf : Op → Format
  | .add | .sub | .and | .or | .xor | .sll | .srl | .sra | .mul | .div | .divu | .rem | .remu => .r
  | .addi | .andi | .ori | .xori | .ld => .i
  | .slli | .srli | .srai => .ish
  | .sd => .s
  | .beq | .bne | .blt | .bge => .b
  | .lui => .u
  | .jal => .j

/-- A row of the table of R161: the indices a format lacks are 0, and its immediate range. -/
def FitsFormat (r : RawRecord) : Format → Prop
  | .r => r.imm = 0
  | .i => r.rs2 = 0 ∧ -2048 ≤ r.imm ∧ r.imm ≤ 2047
  | .ish => r.rs2 = 0 ∧ 0 ≤ r.imm ∧ r.imm ≤ 63
  | .s => r.rd = 0 ∧ -2048 ≤ r.imm ∧ r.imm ≤ 2047
  | .b => r.rd = 0 ∧ -2048 ≤ r.imm ∧ r.imm ≤ 2047
  | .u => r.rs1 = 0 ∧ r.rs2 = 0 ∧ -524288 ≤ r.imm ∧ r.imm ≤ 524287
  | .j => r.rs1 = 0 ∧ r.rs2 = 0 ∧ -524288 ≤ r.imm ∧ r.imm ≤ 524287

/-- A record with a known opcode is well-formed (R160, R161). -/
def FitsOpcode (op : Op) (r : RawRecord) : Prop :=
  r.rd < 32 ∧ r.rs1 < 32 ∧ r.rs2 < 32 ∧ FitsFormat r (formatOf op)

/-- A record passes the check of R600. -/
def RecordValid (r : RawRecord) : Prop := ∃ op, r.op = .known op ∧ FitsOpcode op r

/-- A value in `[-2^63, 2^64)` (R602, R603). -/
def ValueInRange (n : Int) : Prop := -2 ^ 63 ≤ n ∧ n < 2 ^ 64

/-- A `REG_INIT` entry is valid after the entries `before` (R602): its key is a register's, it has a value, in range, and no earlier
entry has its key. -/
def RegEntryValid (before : List (Int × Option Int)) (e : Int × Option Int) : Prop :=
  0 ≤ e.1 ∧ e.1 < 32 ∧ (∃ n, e.2 = some n ∧ ValueInRange n) ∧ ∀ d ∈ before, d.1 ≠ e.1

/-- A `MEM_INIT` entry is valid after the entries `before` (R603). -/
def MemEntryValid (cfg : Config) (before : List (Int × Int)) (e : Int × Int) : Prop :=
  8 ∣ e.1 ∧ (cfg.codeBytes : Int) ≤ e.1 ∧ e.1 < cfg.memBytes ∧ ValueInRange e.2 ∧ ∀ d ∈ before, d.1 ≠ e.1

/-- Every `REG_INIT` entry is valid after those before it. -/
def RegInitValid (l : List (Int × Option Int)) : Prop :=
  ∀ before e after, l = before ++ e :: after → RegEntryValid before e

/-- Every `MEM_INIT` entry is valid after those before it. -/
def MemInitValid (cfg : Config) (l : List (Int × Int)) : Prop :=
  ∀ before e after, l = before ++ e :: after → MemEntryValid cfg before e

/-! ### Invariants -/

/-- Register and table entry 0 (R33, R45). -/
def ZeroHardwired (s : State) : Prop := s.x.get 0 = 0 ∧ s.dep.get 0 = none

/-- `fetch_blocked` is false whenever speculation is enabled (R51). -/
def FetchControlled (s : State) : Prop := s.cfg.speculation = true → s.fetchBlocked = false

/-- The predictor's state is of the predictor configured (R50). -/
def PredictorConfigured (s : State) : Prop := predictorKind s.pstate = s.cfg.predictor

/-- `touched` is a set kept rising (R49). -/
def TouchedCanonical (s : State) : Prop := s.touched.Pairwise (· < ·)

/-- The cache has `S` sets of `A` ways of `B / W` words (R47), and ways 1 and above are invalid (R114). -/
def CacheShaped (s : State) : Prop :=
  s.cache.length = setCount s.cfg ∧
    ∀ ways ∈ s.cache,
      ways.length = s.cfg.ways ∧ (∀ b ∈ ways, b.data.length = blockWords s.cfg) ∧
        ∀ w b, ways[w]? = some b → w ≠ 0 → b.valid = false

/-- Records stand in program order, each older than the next fetch (R225). -/
def ProgramOrder (s : State) : Prop :=
  (recordsInFlight s).Pairwise (fun I J => I.seq < J.seq) ∧ ∀ I ∈ recordsInFlight s, I.seq < s.nextSeq

/-- The dependency table names, for each register but `x0`, the youngest record past decode that will write it, and nothing
where no such record is in flight (R45, R46). -/
def ProducersLive (s : State) : Prop :=
  (∀ (i : Reg) (q : Nat), s.dep.get i = some q → i ≠ 0 ∧ ∃ P ∈ producers s, P.seq = q ∧ rdIndex P.instr = i) ∧
    ∀ P ∈ producers s, rdIndex P.instr ≠ 0 → ∃ q, s.dep.get (rdIndex P.instr) = some q ∧ P.seq ≤ q

/-- An outstanding miss belongs to the memory record held in `EX_MEM` (R223), has its block requested, and holds
`MEM_WB` empty (R124). A record whose access was issued and that is still in `EX_MEM` is the one that missed (R213), and a
record that has not reached `EX_MEM` has issued none. -/
def MissHeld (s : State) : Prop :=
  (∀ q, s.miss = some q →
    ∃ I, s.exMem = some I ∧ I.seq = q ∧ I.memIssued = true ∧ isMemory I.instr = true ∧ s.memWb = none) ∧
    s.req.isSome = s.miss.isSome ∧
    (∀ I, s.exMem = some I → I.memIssued = true → s.miss = some I.seq) ∧
    ∀ I ∈ (FuState.record? s.fu).toList ++ s.idEx.toList ++ s.ifId.toList, I.memIssued = false

/-- The pipeline's invariant (R46, R223, R225), of a block that runs: a raise freezes the stage it interrupts (R500). -/
def PipelineOrdered (s : State) : Prop :=
  s.status = .running → ProgramOrder s ∧ ProducersLive s ∧ MissHeld s

/-- A pending fault is the deferred overflow of a `DIV` or `REM` under the `fault` policy (R40, R205, R315). -/
def PendingFaultsAreDivisions (s : State) : Prop :=
  ∀ I ∈ recordsInFlight s, ∀ c, I.pendingFault = some c →
    c = .divOverflow ∧ (opOf I.instr = .div ∨ opOf I.instr = .rem) ∧ s.cfg.divOverflow = .fault

/-- Part of `config_ok` (R13): a block is a positive whole number of words and there is a set and a way. -/
def GeometryOk (cfg : Config) : Prop :=
  0 < cfg.blockBytes ∧ cfg.blockBytes % 8 = 0 ∧ 0 < setCount cfg ∧ 0 < cfg.ways

/-- The way-0 block of set `k`. -/
def wayZero (s : State) (k : Nat) : Option Block := (s.cache[k]?.getD [])[0]?

/-- A valid clean block holds what the backing store holds (R110, R114). -/
def CleanBlocksMatch (s : State) : Prop :=
  ∀ k b, wayZero s k = some b → b.valid = true → b.dirty = false →
    ∀ j, j < blockWords s.cfg →
      b.data.getD j 0 = Memory.readWord s.mem (baseOfTag s.cfg b.tag k + 8 * j)

/-- A valid block lies in the data region (R112). -/
def BlocksInRegion (s : State) : Prop :=
  ∀ k b, wayZero s k = some b → b.valid = true →
    s.cfg.codeBytes ≤ baseOfTag s.cfg b.tag k ∧ baseOfTag s.cfg b.tag k + s.cfg.blockBytes ≤ s.cfg.memBytes

/-- The block requested is that of the record in `EX_MEM`, is not in the cache, and lies in the data region (R109, R111, R112). -/
def RequestMatches (s : State) : Prop :=
  ∀ a t, s.req = some (a, t) →
    s.cfg.codeBytes ≤ a ∧ a + s.cfg.blockBytes ≤ s.cfg.memBytes ∧
      ∃ I, s.exMem = some I ∧ isMemory I.instr = true ∧ s.miss = some I.seq ∧ I.memIssued = true ∧
        I.addr.toNat % 8 = 0 ∧ a = baseOf s.cfg I.addr.toNat ∧ lookupWay s I.addr.toNat = none

/-- Every listed byte lies in the data region (R49, R102). -/
def MemoryInRegion (s : State) : Prop := ∀ c ∈ s.mem, s.cfg.codeBytes ≤ c.1 ∧ c.1 < s.cfg.memBytes

/-- The memory system's invariant (R112, R114, R119), of a block that runs. -/
def MemoryCoherent (s : State) : Prop :=
  s.status = .running →
    GeometryOk s.cfg ∧ CacheShaped s ∧ CleanBlocksMatch s ∧ BlocksInRegion s ∧ RequestMatches s ∧ MemoryInRegion s

end Sys2Proof.Machine
end

