-- ==== Sys2Proof/Certificates/Slice0/Obligations.lean ====
section
/-! DEFINITION. The statements for the provers. Each docstring says which rule of spec/ it formalises; a clause that rests on a
choice of the model names its log entry. Throughout, `exec i s` is the part of instruction `i` in the stage that `s.stage` names,
and a step is one cycle (R20, R200; notes/assumptions/1.md). -/

open Sys2Proof Sys2Proof.Machine

/-! ### Encoding (spec/30_encoding.md) -/

/-- Decode and encode agree: no bit of a well-formed instruction is dropped (R161, R170, R171). -/
def Obligations.DecodeOfEncodeIsIdentity : Prop :=
  ∀ i : Instr, i.WellFormed → decodeWord (encode i) = .ok i

/-- Every word has at most one meaning and every decoded record is well-formed (R171, R172). -/
def Obligations.EncodeOfDecodeIsIdentity : Prop :=
  ∀ (w : InstrWord) (i : Instr), decodeWord w = .ok i → i.WellFormed ∧ encode i = w

/-- The opcode map (R172): a word is the opcode whose row it matches, and the 28 rows are pairwise disjoint. -/
def Obligations.DecoderReadsTheOpcodeMap : Prop :=
  opcodeRows.length = 28 ∧
    (opcodeRows.Pairwise fun r q => ∀ w : InstrWord, ¬ (w &&& r.mask = r.pattern ∧ w &&& q.mask = q.pattern)) ∧
    ∀ w : InstrWord, ∀ r ∈ opcodeRows,
      (w &&& r.mask = r.pattern ↔ ∃ i, decodeWord w = .ok i ∧ opOf i = r.op)

/-- A word that matches no row is refused with the word, and no launch of a program that holds one starts the block (R173). The launch
itself is refused with the first such word; where the configuration fails too, which of the two is named is the model's choice
(notes/assumptions/8.md), so that clause assumes a valid one. -/
def Obligations.WordsOutsideTheMapAreRefused : Prop :=
  ∀ (w : InstrWord), (∀ r ∈ opcodeRows, w &&& r.mask ≠ r.pattern) →
    decodeWord w = .error (.encoding w) ∧
      ∀ (cfg : Config) (before after : List InstrWord) (regInit : List (Int × Option Int)) (memInit : List (Int × Int)),
        (∀ s, launchWords cfg (before ++ w :: after) regInit memInit ≠ .next s) ∧
        ((∀ v ∈ before, ∃ r ∈ opcodeRows, v &&& r.mask = r.pattern) →
          ConfigValid cfg (before ++ w :: after).length →
            launchWords cfg (before ++ w :: after) regInit memInit = .refused (.encoding w))

/-- Words written out from the encodings of R170 and R172 decode to the instructions they stand for. -/
def Obligations.SpelledWordsDecode : Prop :=
  decodeRow 0b0000000_00010_00001_000_00011_0110011#32 = some (.add 3 1 2) ∧
    decodeRow 0b100000000000_00001_111_00010_0010011#32 = some (.andi 2 1 (-2048)) ∧
    decodeRow 0b010000_111111_00001_101_00010_0010011#32 = some (.srai 2 1 63) ∧
    decodeRow 0b000000001000_00010_011_00100_0000011#32 = some (.ld 4 2 8) ∧
    decodeRow 0b0001000_00011_00000_011_00000_0100011#32 = some (.sd 0 3 256) ∧
    decodeRow 0b1111111_00010_00001_000_11001_1100011#32 = some (.beq 1 2 (-4)) ∧
    decodeRow 0b00010010001101000101_00110_0110111#32 = some (.lui 6 0x12345) ∧
    decodeRow 0b00000000100000000000_00001_1101111#32 = some (.jal 1 4) ∧
    decodeRow 0b0000000_00010_00001_010_00011_0110011#32 = none

/-! ### Launch and reset (spec/00_scope.md R13, spec/70_reset_and_hazards.md) -/

/-- The block right after reset, as the spec gives it (R31, R33, R36, R41, R42, R44, R45, R48, R49, R51, R52, R53). Nothing is
said of the configuration and the program it carries, which are the model's choice (notes/assumptions/2.md). -/
def Obligations.ResetLeavesSpecValues : Prop :=
  State.reset.status = .running ∧ State.reset.tick = 0 ∧ State.reset.pc = 4 ∧ State.reset.fetchBlocked = false ∧
    State.reset.nextSeq = 0 ∧ PipelineEmpty State.reset ∧ (∀ i, State.reset.x.get i = 0) ∧
    (∀ i, State.reset.dep.get i = none) ∧ State.reset.miss = none ∧ State.reset.req = none ∧
    State.reset.touched = [] ∧ State.reset.counters = ⟨0, 0, 0, 0, 0, 0, 0, 0, 0⟩ ∧
    (∀ ways ∈ State.reset.cache, ∀ b ∈ ways, b.valid = false ∧ b.dirty = false ∧ b.ts = 0)

/-- The launch starts the block exactly on the inputs the spec calls valid (R13, R161, R504, R600, R602, R603): a `REG_INIT` key
outside `x0` to `x31`, or one without a value, is not valid. -/
def Obligations.LaunchAcceptsExactlyValidInputs : Prop :=
  ∀ l : LaunchInput,
    (∃ s, launch l = .next s) ↔
      ConfigValid l.cfg l.program.length ∧ (∀ r ∈ l.program, RecordValid r) ∧ RegInitValid l.regInit ∧
        MemInitValid l.cfg l.memInit

/-- The order of the launch's checks (R13, R501, R503, R504, R512, R600): `config_ok`, with the first failing condition as the fault's
`info`; then the records, then `REG_INIT`, then `MEM_INIT`, each in order; the first that fails gives the outcome. That the lines of R13 are the conditions which
`info` names is the model's choice (notes/assumptions/10.md). -/
def Obligations.LaunchStopsAtTheFirstInvalidInput : Prop :=
  ∀ l : LaunchInput,
    (∀ c, ¬ ConfigCondition l.cfg l.program.length c →
      (∀ d, conditionNumber d < conditionNumber c → ConfigCondition l.cfg l.program.length d) →
        launch l = .fault (.config (.check c))) ∧
    (ConfigValid l.cfg l.program.length →
      (∀ before r after, l.program = before ++ r :: after → (∀ q ∈ before, RecordValid q) →
        (∀ name, r.op = .unknown name → launch l = .refused (.opcode name)) ∧
          ∀ op, r.op = .known op → ¬ FitsOpcode op r → launch l = .fault (.init (.record r))) ∧
      ((∀ q ∈ l.program, RecordValid q) →
        (∀ before e after, l.regInit = before ++ e :: after → RegInitValid before → ¬ RegEntryValid before e →
          launch l = .fault (.init (.regEntry e.1 e.2))) ∧
        (RegInitValid l.regInit → ∀ before e after, l.memInit = before ++ e :: after → MemInitValid l.cfg before →
          ¬ MemEntryValid l.cfg before e → launch l = .fault (.init (.memEntry e.1 e.2)))))

/-- What the launch leaves (R600, R602, R603): a listed register or word holds its value modulo `2^64`, except `x0`; every other one is 0;
every other piece of state has its reset value. -/
def Obligations.LaunchSetsTheResetValues : Prop :=
  ∀ (l : LaunchInput) (s : State), launch l = .next s →
    s.cfg = l.cfg ∧ s.program.map rawOfInstr = l.program ∧ s.status = .running ∧ s.tick = 0 ∧ s.pc = 4 ∧
    s.fetchBlocked = false ∧ s.nextSeq = 0 ∧ PipelineEmpty s ∧
    s.x.get 0 = 0 ∧
    (∀ (i : Reg) (n : Int), i ≠ 0 → ((i.val : Int), some n) ∈ l.regInit → s.x.get i = BitVec.ofInt 64 n) ∧
    (∀ i : Reg, (∀ v : Option Int, ((i.val : Int), v) ∉ l.regInit) → s.x.get i = 0) ∧
    (∀ i, s.dep.get i = none) ∧
    s.cache.length * (l.cfg.blockBytes * l.cfg.ways) = l.cfg.cacheBytes ∧
    (∀ ways ∈ s.cache, ways = List.replicate l.cfg.ways ⟨false, false, 0, List.replicate (l.cfg.blockBytes / 8) 0, 0⟩) ∧
    s.miss = none ∧
    (∀ (a : Nat) (n : Int), ((a : Int), n) ∈ l.memInit → Memory.readWord s.mem a = BitVec.ofInt 64 n) ∧
    (∀ a : Nat, a % 8 = 0 → (∀ n : Int, ((a : Int), n) ∉ l.memInit) → Memory.readWord s.mem a = 0) ∧
    s.req = none ∧ s.touched = [] ∧ s.pstate = PredictorState.init l.cfg.predictor ∧
    s.counters = ⟨0, 0, 0, 0, 0, 0, 0, 0, 0⟩

/-! ### EX completion (spec/41 to 45) -/

/-- ADD, SUB, MUL, AND, OR, XOR (R301 to R305, R309): sum, difference and product modulo `2^64`, and the bitwise operations; nothing else
of the state changes. -/
def Obligations.ArithmeticAndLogicResults : Prop :=
  ∀ (rd rs1 rs2 : Reg) (s : State) (I : Record), AtExecute s I →
    (∃ v, exec (.add rd rs1 rs2) s = .next (resultDone s I v) ∧
      v.toNat = (I.rs1Val.toNat + I.rs2Val.toNat) % 2 ^ 64) ∧
    (∃ v, exec (.sub rd rs1 rs2) s = .next (resultDone s I v) ∧
      (v.toNat : Int) = ((I.rs1Val.toNat : Int) - I.rs2Val.toNat) % 2 ^ 64) ∧
    (∃ v, exec (.mul rd rs1 rs2) s = .next (resultDone s I v) ∧
      v.toNat = I.rs1Val.toNat * I.rs2Val.toNat % 2 ^ 64 ∧
      (v.toNat : Int) = I.rs1Val.toInt * I.rs2Val.toInt % 2 ^ 64) ∧
    (∃ v, exec (.and rd rs1 rs2) s = .next (resultDone s I v) ∧
      ∀ k, v.getLsbD k = (I.rs1Val.getLsbD k && I.rs2Val.getLsbD k)) ∧
    (∃ v, exec (.or rd rs1 rs2) s = .next (resultDone s I v) ∧
      ∀ k, v.getLsbD k = (I.rs1Val.getLsbD k || I.rs2Val.getLsbD k)) ∧
    (∃ v, exec (.xor rd rs1 rs2) s = .next (resultDone s I v) ∧
      ∀ k, v.getLsbD k = (I.rs1Val.getLsbD k ^^ I.rs2Val.getLsbD k))

/-- SLL, SRL, SRA (R306, R307, R308): the low 6 bits of the second operand are the amount. -/
def Obligations.ShiftResults : Prop :=
  ∀ (rd rs1 rs2 : Reg) (s : State) (I : Record), AtExecute s I →
    (∃ v, exec (.sll rd rs1 rs2) s = .next (resultDone s I v) ∧
      ∀ k, k < 64 → v.getLsbD k = (decide (I.rs2Val.toNat % 64 ≤ k) && I.rs1Val.getLsbD (k - I.rs2Val.toNat % 64))) ∧
    (∃ v, exec (.srl rd rs1 rs2) s = .next (resultDone s I v) ∧
      ∀ k, k < 64 → v.getLsbD k =
        (decide (k + I.rs2Val.toNat % 64 < 64) && I.rs1Val.getLsbD (k + I.rs2Val.toNat % 64))) ∧
    (∃ v, exec (.sra rd rs1 rs2) s = .next (resultDone s I v) ∧
      ∀ k, k < 64 → v.getLsbD k = I.rs1Val.getLsbD (min (k + I.rs2Val.toNat % 64) 63))

/-- DIV, DIVU, REM, REMU with a divisor that is not 0 and no overflow (R15, R310 to R313): quotient rounded toward zero and
remainder with the sign of the dividend; nothing else of the state changes, no counter among it. -/
def Obligations.DivisionResults : Prop :=
  ∀ (rd rs1 rs2 : Reg) (s : State) (I : Record), AtExecute s I → I.rs2Val ≠ 0 →
    (¬ (I.rs1Val.toInt = -2 ^ 63 ∧ I.rs2Val.toInt = -1) →
      (∃ v, exec (.div rd rs1 rs2) s = .next (resultDone s I v) ∧
        ∃ r : Int, I.rs1Val.toInt = I.rs2Val.toInt * v.toInt + r ∧ r.natAbs < I.rs2Val.toInt.natAbs ∧
          0 ≤ I.rs1Val.toInt * r) ∧
      (∃ v, exec (.rem rd rs1 rs2) s = .next (resultDone s I v) ∧
        ∃ q : Int, I.rs1Val.toInt = I.rs2Val.toInt * q + v.toInt ∧ v.toInt.natAbs < I.rs2Val.toInt.natAbs ∧
          0 ≤ I.rs1Val.toInt * v.toInt)) ∧
    (∃ v, exec (.divu rd rs1 rs2) s = .next (resultDone s I v) ∧ v.toNat = I.rs1Val.toNat / I.rs2Val.toNat) ∧
    (∃ v, exec (.remu rd rs1 rs2) s = .next (resultDone s I v) ∧ v.toNat = I.rs1Val.toNat % I.rs2Val.toNat)

/-- Division and remainder by zero (R314, R511): the quotient is the dividend, the remainder is 0, the counter `div_by_zero` counts
one, and nothing else of the state changes. -/
def Obligations.DivisionByZeroSubstitutesOne : Prop :=
  ∀ (rd rs1 rs2 : Reg) (s : State) (I : Record), AtExecute s I → I.rs2Val = 0 →
    exec (.div rd rs1 rs2) s =
      .next { resultDone s I I.rs1Val with
        counters := { s.counters with divByZero := s.counters.divByZero + 1 } } ∧
    exec (.divu rd rs1 rs2) s =
      .next { resultDone s I I.rs1Val with
        counters := { s.counters with divByZero := s.counters.divByZero + 1 } } ∧
    exec (.rem rd rs1 rs2) s =
      .next { resultDone s I 0 with
        counters := { s.counters with divByZero := s.counters.divByZero + 1 } } ∧
    exec (.remu rd rs1 rs2) s =
      .next { resultDone s I 0 with
        counters := { s.counters with divByZero := s.counters.divByZero + 1 } }

/-- Signed division overflow (R315): under `fault` the record is marked with the pending fault and holds 0; under `wrap` it holds
the two's-complement result and no fault. -/
def Obligations.SignedDivisionOverflow : Prop :=
  ∀ (rd rs1 rs2 : Reg) (s : State) (I : Record), AtExecute s I →
    I.rs1Val.toInt = -2 ^ 63 → I.rs2Val.toInt = -1 →
    (s.cfg.divOverflow = .fault →
      exec (.div rd rs1 rs2) s = .next (resultDone s { I with pendingFault := some .divOverflow } 0) ∧
      exec (.rem rd rs1 rs2) s = .next (resultDone s { I with pendingFault := some .divOverflow } 0)) ∧
    (s.cfg.divOverflow = .wrap →
      exec (.div rd rs1 rs2) s = .next (resultDone s I 0x8000000000000000#64) ∧
      exec (.rem rd rs1 rs2) s = .next (resultDone s I 0))

/-- ADDI, ANDI, ORI, XORI (R341 to R344): the 12-bit immediate sign-extended. -/
def Obligations.ImmediateResults : Prop :=
  ∀ (rd rs1 : Reg) (imm : Int) (s : State) (I : Record), AtExecute s I → -2048 ≤ imm → imm ≤ 2047 →
    (∃ v, exec (.addi rd rs1 imm) s = .next (resultDone s I v) ∧
      (v.toNat : Int) = ((I.rs1Val.toNat : Int) + imm) % 2 ^ 64) ∧
    (∃ v, exec (.andi rd rs1 imm) s = .next (resultDone s I v) ∧
      v = I.rs1Val &&& (BitVec.ofInt 12 imm).signExtend 64) ∧
    (∃ v, exec (.ori rd rs1 imm) s = .next (resultDone s I v) ∧
      v = I.rs1Val ||| (BitVec.ofInt 12 imm).signExtend 64) ∧
    (∃ v, exec (.xori rd rs1 imm) s = .next (resultDone s I v) ∧
      v = I.rs1Val ^^^ (BitVec.ofInt 12 imm).signExtend 64)

/-- SLLI, SRLI, SRAI (R345 to R347): the amount is the immediate, unmasked. -/
def Obligations.ImmediateShiftResults : Prop :=
  ∀ (rd rs1 : Reg) (n : Nat) (s : State) (I : Record), AtExecute s I → n ≤ 63 →
    (∃ v, exec (.slli rd rs1 n) s = .next (resultDone s I v) ∧ v.toNat = I.rs1Val.toNat * 2 ^ n % 2 ^ 64) ∧
    (∃ v, exec (.srli rd rs1 n) s = .next (resultDone s I v) ∧ v.toNat = I.rs1Val.toNat / 2 ^ n) ∧
    (∃ v, exec (.srai rd rs1 n) s = .next (resultDone s I v) ∧ v.toInt = I.rs1Val.toInt / 2 ^ n)

/-- LUI and JAL at EX completion (R420, R421): the immediate times `2^12`, sign-extended, and the link `pc + 4`. -/
def Obligations.UpperImmediateAndLinkResults : Prop :=
  ∀ (rd : Reg) (imm : Int) (s : State) (I : Record), AtExecute s I → -524288 ≤ imm → imm ≤ 524287 →
    (∃ v, exec (.lui rd imm) s = .next (resultDone s I v) ∧ v.toInt = imm * 4096) ∧
    exec (.jal rd imm) s = .next (resultDone s I (I.pc + 4))

/-- LD and SD at EX completion (R205, R380): the address is base plus sign-extended immediate modulo `2^64`; a store is `ready`, a
load is not yet; nothing else of the state changes. -/
def Obligations.EffectiveAddresses : Prop :=
  ∀ (rd rs1 rs2 : Reg) (imm : Int) (s : State) (I : Record), AtExecute s I → -2048 ≤ imm → imm ≤ 2047 →
    ∃ a : Word, (a.toNat : Int) = ((I.rs1Val.toNat : Int) + imm) % 2 ^ 64 ∧
      exec (.ld rd rs1 imm) s = .next { s with fu := .done { I with addr := a } } ∧
      exec (.sd rs1 rs2 imm) s = .next { s with fu := .done { I with addr := a, ready := true } }

/-- The four branches at EX completion (R400 to R404): the predicate decides the direction, and the target is `pc + 2 * imm` or
`pc + 4`, modulo `2^64`. -/
def Obligations.BranchDirectionsAndTargets : Prop :=
  ∀ (rs1 rs2 : Reg) (imm : Int) (s : State) (I : Record), AtExecute s I → -2048 ≤ imm → imm ≤ 2047 →
    ∀ (i : Instr) (taken : Bool),
      (i, taken) ∈ [(Instr.beq rs1 rs2 imm, decide (I.rs1Val.toNat = I.rs2Val.toNat)),
        (.bne rs1 rs2 imm, decide (I.rs1Val.toNat ≠ I.rs2Val.toNat)),
        (.blt rs1 rs2 imm, decide (I.rs1Val.toInt < I.rs2Val.toInt)),
        (.bge rs1 rs2 imm, decide (I.rs2Val.toInt ≤ I.rs1Val.toInt))] →
      ∃ target : Word,
        (target.toNat : Int) = ((I.pc.toNat : Int) + if taken then 2 * imm else 4) % 2 ^ 64 ∧
        exec i s = .next { s with fu := .done { I with taken := taken, target := target, ready := true } }

/-! ### Decode (spec/40_pipeline.md R206, R207, R215) -/

/-- Operand resolution (R206), in a state whose records stand in program order: `x0` is 0; a register with no producer is read; a
ready producer is forwarded when forwarding is enabled; otherwise the record stalls, and a stall writes nothing. -/
def Obligations.OperandResolution : Prop :=
  ∀ (s : State) (i : Reg), ProgramOrder s →
    (i = 0 → operand s i = some 0) ∧
    (i ≠ 0 → s.dep.get i = none → operand s i = some (s.x.get i)) ∧
    (∀ P ∈ producers s, i ≠ 0 → s.dep.get i = some P.seq →
      (s.cfg.forwarding = true → P.ready = true → operand s i = some P.rdVal) ∧
      (s.cfg.forwarding = false ∨ P.ready = false → operand s i = none)) ∧
    ∀ (I : Record) (j : Instr), AtDecode s I → operand s (rs1Index j) = none ∨ operand s (rs2Index j) = none →
      exec j s = .next s

/-- Decode of every instruction but `JAL` whose operands resolve (R207, R215): the record moves to `ID_EX` with its operands, and is
registered as the producer of `rd` unless `rd` is `x0`. -/
def Obligations.DecodeTakesOperands : Prop :=
  ∀ (i : Instr) (s : State) (I : Record) (a b : Word), AtDecode s I → (∀ rd imm, i ≠ .jal rd imm) →
    operand s (rs1Index i) = some a → operand s (rs2Index i) = some b →
      exec i s = .next { s with
        idEx := some { I with rs1Val := a, rs2Val := b }
        ifId := none
        dep := if rdIndex i = 0 then s.dep else s.dep.set (rdIndex i) (some I.seq) }

/-- Decode of `JAL` (R215, R421): it never stalls, and `pc` is redirected to its own `pc + 2 * imm` modulo `2^64`. -/
def Obligations.JumpRedirectsAtDecode : Prop :=
  ∀ (rd : Reg) (imm : Int) (s : State) (I : Record), AtDecode s I → -524288 ≤ imm → imm ≤ 524287 →
    ∃ target : Word, (target.toNat : Int) = ((I.pc.toNat : Int) + 2 * imm) % 2 ^ 64 ∧
      exec (.jal rd imm) s = .next { s with
        idEx := some { I with rs1Val := 0, rs2Val := 0, target := target }
        ifId := none
        pc := target
        dep := if rd = 0 then s.dep else s.dep.set rd (some I.seq) }

/-! ### Fetch (spec/40_pipeline.md R217 to R222) -/

/-- The instruction source (R218). -/
def Obligations.InstructionSource : Prop :=
  ∀ (program : List Instr) (pc : Word), pc.toNat % 4 = 0 →
    (∀ h : 4 ≤ pc.toNat ∧ pc.toNat < 4 * (program.length + 1),
      readProgram program pc = some (program[pc.toNat / 4 - 1]'(by omega))) ∧
    (4 * (program.length + 1) ≤ pc.toNat → readProgram program pc = none)

/-- Fetch of an instruction that is no conditional branch (R40, R41, R165, R217): a fresh record with the creation values of R40 enters
`IF_ID`, its handle is used up, and `pc` advances by 4. -/
def Obligations.FetchCreatesTheRecord : Prop :=
  ∀ (i : Instr) (s : State), AtFetch s → isBranch i = false →
    exec i s = .next { s with
      ifId := some
        { seq := s.nextSeq, pc := s.pc, instr := i, rs1Val := 0, rs2Val := 0, rdVal := 0, addr := 0, target := 0,
          taken := false, predTarget := s.pc + 4, predTaken := false, ready := false,
          latency := latencyOf s.cfg (opOf i), memIssued := false, pendingFault := none }
      nextSeq := s.nextSeq + 1
      pc := s.pc + 4 }

/-- Fetch of a conditional branch (R219, R220): with speculation disabled it is predicted not taken and fetch is blocked; with it
enabled, the predictor decides, and a branch predicted taken redirects `pc`. -/
def Obligations.FetchPredictsBranches : Prop :=
  ∀ (i : Instr) (s : State), AtFetch s → isBranch i = true →
    (s.cfg.speculation = false →
      exec i s = .next { s with
        ifId := some
          { seq := s.nextSeq, pc := s.pc, instr := i, rs1Val := 0, rs2Val := 0, rdVal := 0, addr := 0, target := 0,
            taken := false, predTarget := s.pc + 4, predTaken := false, ready := false,
            latency := latencyOf s.cfg (opOf i), memIssued := false, pendingFault := none }
        nextSeq := s.nextSeq + 1
        pc := s.pc + 4
        fetchBlocked := true }) ∧
    (s.cfg.speculation = true →
      exec i s = .next { s with
        ifId := some
          { seq := s.nextSeq, pc := s.pc, instr := i, rs1Val := 0, rs2Val := 0, rdVal := 0, addr := 0, target := 0,
            taken := false, predTarget := (predict s.pstate s.pc).getD (s.pc + 4),
            predTaken := (predict s.pstate s.pc).isSome, ready := false,
            latency := latencyOf s.cfg (opOf i), memIssued := false, pendingFault := none }
        nextSeq := s.nextSeq + 1
        pc := (predict s.pstate s.pc).getD (s.pc + 4) })

/-- The reference predictors (R222). -/
def Obligations.ReferencePredictors : Prop :=
  (∀ pc target taken, predict .staticNotTaken pc = none ∧ updateDirection .staticNotTaken pc taken = .staticNotTaken ∧
    updateTarget .staticNotTaken pc target = .staticNotTaken) ∧
  (∀ pc, predict (PredictorState.init .lastOutcome) pc = none) ∧
  ∀ (m : List (Word × Word)) (pc target p : Word),
    updateDirection (.lastOutcome m) pc true = .lastOutcome m ∧
    predict (updateDirection (.lastOutcome m) pc false) p = (if p = pc then none else predict (.lastOutcome m) p) ∧
    predict (updateTarget (.lastOutcome m) pc target) p =
      (if p = pc then some target else predict (.lastOutcome m) p)

/-- The fetch stage where it takes no instruction in (R217, R507, R508): an occupied `IF_ID` counts a stall, a blocked fetch waits, an
invalid `pc` waits for older records and then faults, and past the end of the program nothing is fetched. -/
def Obligations.FetchWaitsOrFaults : Prop :=
  ∀ s : State,
    (∀ I, s.ifId = some I → fetchStage s =
      .next { s with stage := .fetch, counters := { s.counters with stalls := s.counters.stalls + 1 } }) ∧
    (s.ifId = none → s.fetchBlocked = true → fetchStage s = .next { s with stage := .fetch }) ∧
    (s.ifId = none → s.fetchBlocked = false →
      (s.pc.toNat % 4 = 0 → 4 * (s.program.length + 1) ≤ s.pc.toNat → fetchStage s = .next { s with stage := .fetch }) ∧
      (s.pc = 0 ∨ s.pc.toNat % 4 ≠ 0 → ¬ PipelineEmpty s → fetchStage s = .next { s with stage := .fetch }) ∧
      (s.pc = 0 → PipelineEmpty s →
        fetchStage s = .next { s with stage := .fetch, status := .faulted .fetchPcZero (.atPc 0) }) ∧
      (s.pc.toNat % 4 ≠ 0 → PipelineEmpty s →
        fetchStage s = .next { s with stage := .fetch, status := .faulted .fetchMisaligned (.atPc s.pc) }))

/-! ### MEM (spec/20_memory.md, spec/43_load_store.md) -/

/-- Every instruction but `LD` and `SD` passes the MEM stage and touches nothing else (R213). -/
def Obligations.OthersPassTheMemoryStage : Prop :=
  ∀ (i : Instr) (s : State) (I : Record), AtMemory s I → isMemory i = false →
    exec i s = .next { s with memWb := some I, exMem := none }

/-- A hit (R110, R213): `LD` takes the addressed word, `SD` writes it and marks the block dirty; the access is counted, the block is
stamped, the record moves to `MEM_WB` in the same cycle, and nothing else of the state changes, no byte of `mem` among it. -/
def Obligations.HitsCompleteInOneCycle : Prop :=
  ∀ (rd rs1 rs2 : Reg) (imm : Int) (s : State) (I : Record) (way : Nat) (b : Block),
    AtMemory s I → I.memIssued = false → s.miss = none → s.req = none → I.addr.toNat % 8 = 0 →
    lookupWay s I.addr.toNat = some way → blockAt s I.addr.toNat way = some b →
      exec (.ld rd rs1 imm) s = .next { s with
        cache := s.cache.set (setIndexOf s.cfg I.addr.toNat)
          ((cacheSetOf s I.addr.toNat).set way { b with ts := s.tick })
        exMem := none
        memWb := some
          { I with memIssued := true, rdVal := b.data.getD (wordIndexOf s.cfg I.addr.toNat) 0, ready := true }
        counters := { s.counters with hits := s.counters.hits + 1 } } ∧
      exec (.sd rs1 rs2 imm) s = .next { s with
        cache := s.cache.set (setIndexOf s.cfg I.addr.toNat)
          ((cacheSetOf s I.addr.toNat).set way
            { b with
              data := b.data.set (wordIndexOf s.cfg I.addr.toNat) I.rs2Val
              dirty := true
              ts := s.tick })
        exMem := none
        memWb := some { I with memIssued := true }
        counters := { s.counters with hits := s.counters.hits + 1 } }

/-- The two data faults (R107, R112, R505, R506). The alignment check comes first, on what would be a hit or a miss alike, and no counter
changes. A miss whose block is not inside `[CODE_BYTES, MEM_BYTES)` faults after `misses` and `miss` are written, with `touched` and `req`
as they were. -/
def Obligations.BadDataAddressesFault : Prop :=
  ∀ (i : Instr) (s : State) (I : Record), AtMemory s I → isMemory i = true → I.memIssued = false →
    (I.addr.toNat % 8 ≠ 0 →
      exec i s = .next { s with
        exMem := some { I with memIssued := true }
        status := .faulted .dataMisaligned (.access I.addr.toNat I.pc) }) ∧
    (I.addr.toNat % 8 = 0 → lookupWay s I.addr.toNat = none →
      baseOf s.cfg I.addr.toNat < s.cfg.codeBytes ∨
        s.cfg.memBytes < baseOf s.cfg I.addr.toNat + s.cfg.blockBytes →
      exec i s = .next { s with
        exMem := some { I with memIssued := true }
        miss := some I.seq
        counters := { s.counters with misses := s.counters.misses + 1 }
        status := .faulted .dataBounds (.access (baseOf s.cfg I.addr.toNat) I.pc) })

/-- A miss inside the data region (R111 to R113, R116, R213): the record waits in `EX_MEM`, its block is requested for
`tick + MEM_LATENCY`, and exactly the block's bytes become touched; while the block has not arrived, nothing changes. -/
def Obligations.MissRequestsTheBlockAndWaits : Prop :=
  ∀ (i : Instr) (s : State) (I : Record), AtMemory s I → isMemory i = true →
    (I.memIssued = false → s.req = none → 1 ≤ s.cfg.memLatency → I.addr.toNat % 8 = 0 →
      lookupWay s I.addr.toNat = none → s.cfg.codeBytes ≤ baseOf s.cfg I.addr.toNat →
      baseOf s.cfg I.addr.toNat + s.cfg.blockBytes ≤ s.cfg.memBytes →
        ∃ touched,
          exec i s = .next { s with
            exMem := some { I with memIssued := true }
            miss := some I.seq
            req := some (baseOf s.cfg I.addr.toNat, s.tick + s.cfg.memLatency)
            touched := touched
            counters := { s.counters with misses := s.counters.misses + 1 } } ∧
          ∀ a, a ∈ touched ↔ a ∈ s.touched ∨
            (baseOf s.cfg I.addr.toNat ≤ a ∧ a < baseOf s.cfg I.addr.toNat + s.cfg.blockBytes)) ∧
    (∀ a t, I.memIssued = true → s.miss = some I.seq → s.req = some (a, t) → s.tick < t → exec i s = .next s)

/-- The arrival of the block (R113 to R115, R213): it is installed in way 0, the access is replayed without counting a hit, the miss
ends, and the record moves on; `mem` and `writebacks` are what evicting the victim leaves (next statement). -/
def Obligations.ArrivalReplaysTheAccess : Prop :=
  ∀ (rd rs1 rs2 : Reg) (imm : Int) (s : State) (I : Record) (t : Nat), AtMemory s I → I.memIssued = true →
    s.miss = some I.seq → s.req = some (baseOf s.cfg I.addr.toNat, t) → t ≤ s.tick → GeometryOk s.cfg →
    CacheShaped s → I.addr.toNat % 8 = 0 →
    ∃ (mem : Memory) (writebacks : Nat),
      exec (.ld rd rs1 imm) s = .next { s with
        cache := s.cache.set (setIndexOf s.cfg I.addr.toNat)
          ((cacheSetOf s I.addr.toNat).set 0
            { valid := true, dirty := false, tag := tagOf s.cfg I.addr.toNat,
              data := Memory.readBlock s.mem (baseOf s.cfg I.addr.toNat) (blockWords s.cfg), ts := s.tick })
        exMem := none
        memWb := some { I with rdVal := Memory.readWord s.mem I.addr.toNat, ready := true }
        miss := none
        req := none
        mem := mem
        counters := { s.counters with writebacks := writebacks } } ∧
      exec (.sd rs1 rs2 imm) s = .next { s with
        cache := s.cache.set (setIndexOf s.cfg I.addr.toNat)
          ((cacheSetOf s I.addr.toNat).set 0
            { valid := true, dirty := true, tag := tagOf s.cfg I.addr.toNat,
              data := (Memory.readBlock s.mem (baseOf s.cfg I.addr.toNat) (blockWords s.cfg)).set
                (wordIndexOf s.cfg I.addr.toNat) I.rs2Val, ts := s.tick })
        exMem := none
        memWb := some I
        miss := none
        req := none
        mem := mem
        counters := { s.counters with writebacks := writebacks } }

/-- What `LD` and `SD` do to `mem` (R114): when a block arrives at `a` and way 0 of `a`'s set is valid and dirty, its words are stored at
`base_of(tag, set)` and one writeback is counted, and every byte outside that block is unchanged; otherwise no byte and no writeback
changes. -/
def Obligations.EvictionStoresTheVictim : Prop :=
  ∀ (i : Instr) (s t : State) (I : Record), AtMemory s I → isMemory i = true → Memory.wf s.mem → exec i s = .next t →
    (∀ (a u : Nat) (v : Block), I.memIssued = true → s.req = some (a, u) → u ≤ s.tick → blockAt s a 0 = some v →
      v.valid = true → v.dirty = true →
        t.counters.writebacks = s.counters.writebacks + 1 ∧
        (∀ j, j < v.data.length →
          Memory.readWord t.mem (baseOfTag s.cfg v.tag (setIndexOf s.cfg a) + 8 * j) = v.data.getD j 0) ∧
        ∀ p, p < baseOfTag s.cfg v.tag (setIndexOf s.cfg a) ∨
            baseOfTag s.cfg v.tag (setIndexOf s.cfg a) + 8 * v.data.length ≤ p →
          Memory.read t.mem p = Memory.read s.mem p) ∧
    (I.memIssued = true ∨ s.req = none ∧ 1 ≤ s.cfg.memLatency →
      (∀ a u v, s.req = some (a, u) → u ≤ s.tick → blockAt s a 0 = some v → ¬ (v.valid = true ∧ v.dirty = true)) →
        t.counters.writebacks = s.counters.writebacks ∧ ∀ p, Memory.read t.mem p = Memory.read s.mem p)

/-- Every access is counted exactly once, as a hit or as a miss, when it is issued (R115). -/
def Obligations.EveryAccessIsCountedOnce : Prop :=
  ∀ (i : Instr) (s t : State) (I : Record), AtMemory s I → isMemory i = true → exec i s = .next t →
    (I.memIssued = false → I.addr.toNat % 8 = 0 →
      t.counters.hits + t.counters.misses = s.counters.hits + s.counters.misses + 1) ∧
    (I.memIssued = true → t.counters.hits = s.counters.hits ∧ t.counters.misses = s.counters.misses)

/-- Loads read and stores write the coherent image (R119, R123): a load that leaves the MEM stage carries the coherent word at its address;
a store that leaves it has changed that word of the image to its data and no other; nothing else the stage does with a load or store,
a fetch of a block, an eviction or a fault, changes the image. -/
def Obligations.LoadsAndStoresActOnTheCoherentImage : Prop :=
  ∀ (i : Instr) (s t : State) (I : Record), AtMemory s I → I.instr = i → isMemory i = true → PipelineOrdered s →
    MemoryCoherent s → Memory.wf s.mem → exec i s = .next t →
    (∀ J rd rs1 imm, i = .ld rd rs1 imm → t.memWb = some J →
      J = { I with memIssued := true, rdVal := coherent s I.addr.toNat, ready := true }) ∧
    (∀ rs1 rs2 imm, i = .sd rs1 rs2 imm → t.memWb ≠ none → coherent t I.addr.toNat = I.rs2Val) ∧
    ∀ a, a % 8 = 0 → s.cfg.codeBytes ≤ a → a < s.cfg.memBytes →
      ((∃ rs1 rs2 imm, i = .sd rs1 rs2 imm) → t.memWb ≠ none → a ≠ I.addr.toNat) →
        coherent t a = coherent s a

/-! ### Writeback (spec/40_pipeline.md R208 to R212) -/

/-- Writeback of every instruction but a conditional branch, without a pending fault (R208, R210): `rd` is committed unless it is `x0`, the
producer entry is cleared only if it names this record, the record is counted, and nothing else of the state changes. With a pending
fault, any instruction's record raises it before anything is committed (R509). -/
def Obligations.WritebackCommitsOrFaults : Prop :=
  ∀ (i : Instr) (s : State) (I : Record), AtWriteback s I →
    (isBranch i = false → I.pendingFault = none →
      exec i s = .next { s with
        memWb := none
        x := if rdIndex i = 0 then s.x else s.x.set (rdIndex i) I.rdVal
        dep := if rdIndex i ≠ 0 ∧ s.dep.get (rdIndex i) = some I.seq then s.dep.set (rdIndex i) none else s.dep
        counters := { s.counters with retired := s.counters.retired + 1 } }) ∧
    (∀ c, I.pendingFault = some c →
      exec i s = .next { s with memWb := none, status := .faulted c (.atPc I.pc) })

/-- Branch resolution (R210 to R212): the predictor is updated or fetch unblocked; a predicted target that matches counts `correct` and
leaves the pipeline; one that does not flushes it, redirects `pc` and counts a flush. -/
def Obligations.BranchesResolveAtWriteback : Prop :=
  ∀ (i : Instr) (s : State) (I : Record), AtWriteback s I → isBranch i = true → I.pendingFault = none →
    ∃ p : PredictorState,
      p = (if s.cfg.speculation = false then s.pstate
        else if I.taken then updateTarget (updateDirection s.pstate I.pc I.taken) I.pc I.target
        else updateDirection s.pstate I.pc I.taken) ∧
      (I.predTarget = I.target →
        exec i s = .next { s with
          memWb := none
          pstate := p
          fetchBlocked := if s.cfg.speculation then s.fetchBlocked else false
          counters := { s.counters with
            retired := s.counters.retired + 1
            branches := s.counters.branches + 1
            correct := s.counters.correct + 1 } }) ∧
      (I.predTarget ≠ I.target →
        exec i s = .next { s with
          ifId := none
          idEx := none
          exMem := none
          memWb := none
          fu := .idle
          dep := Vector.replicate 32 none
          fetchBlocked := false
          pstate := p
          pc := I.target
          counters := { s.counters with
            retired := s.counters.retired + 1
            branches := s.counters.branches + 1
            flushes := s.counters.flushes + 1 } })

/-! ### The step (spec/40_pipeline.md R200 to R203) -/

/-- A step runs the instruction at `pc` (R200, R217, R218): once the stages before fetch have run and left a block that fetches, the rest
of the step is that instruction's fetch part and the tick. -/
def Obligations.StepRunsTheInstructionAtPc : Prop :=
  ∀ (s d : State) (i : Instr), s.status = .running → continues s = true → backStages s = .next d →
    d.status = .running → d.ifId = none → d.fetchBlocked = false → readProgram d.program d.pc = some i →
      ∃ f, exec i { d with stage := .fetch } = .next f ∧ f.status = .running ∧
        step s = .next { f with tick := f.tick + 1 }

/-- The instruction that the decoder reads from a table row's word, placed by `withFetchWord`, is the one the next step of an empty pipeline
runs, as in the first step after reset (R200, R217; the placing is the model's own, notes/assumptions/7.md). -/
def Obligations.StepRunsThePlacedWord : Prop :=
  ∀ (s : State) (nbits w : Nat) (i : Instr), decodeTableWord nbits w = some i → s.status = .running → s.tick = 0 →
    PipelineEmpty s → s.fetchBlocked = false → fetchable s.pc = true →
      readProgram (s.withFetchWord nbits w).program s.pc = some i ∧
      ∃ f, exec i { s.withFetchWord nbits w with stage := .fetch } = .next f ∧ f.status = .running ∧
        step (s.withFetchWord nbits w) = .next { f with tick := 1 }

/-- Each stage of the cycle hands the record in its place to `exec`, at that stage (R204, R210, R213, R215). -/
def Obligations.StagesRunTheirRecord : Prop :=
  ∀ (s : State) (I : Record),
    (s.memWb = some I → writebackStage s = exec I.instr { s with stage := .writeback }) ∧
    (s.exMem = some I → memoryStage s = exec I.instr { s with stage := .memory }) ∧
    (∀ exit, s.fu = .busy I exit → exit ≤ s.tick → completeStage s = exec I.instr { s with stage := .execute }) ∧
    (s.ifId = some I → s.idEx = none → decodeStage s = exec I.instr { s with stage := .decode })

/-- The functional unit (R204, R214), after completion: a finished record drains when `EX_MEM` is free, and an idle unit accepts the record in
`ID_EX` for `max(1, LAT)` cycles, in the same cycle. -/
def Obligations.FunctionalUnitDrainsThenFeeds : Prop :=
  ∀ s : State, s.status = .running → (∀ I exit, s.fu = .busy I exit → s.tick < exit) →
    (∀ I, s.fu = .done I → s.exMem = none →
      executeStage s = .next { s with
        stage := .execute
        exMem := some I
        fu := s.idEx.elim .idle fun J => .busy J (s.tick + max 1 J.latency)
        idEx := none }) ∧
    (s.fu = .idle →
      executeStage s = .next { s with
        stage := .execute
        fu := s.idEx.elim .idle fun J => .busy J (s.tick + max 1 J.latency)
        idEx := none }) ∧
    ((∃ I exit, s.fu = .busy I exit) ∨ (∃ I, s.fu = .done I) ∧ s.exMem ≠ none →
      executeStage s = .next { s with stage := .execute })

/-- The end of a run (R53, R202, R203): a block whose run does not continue drains, and it drains only with every latch empty, the functional
unit idle, no outstanding miss and after at least one cycle. A drained block stays, and a faulted block answers with its fault: the
model's way of showing that no further cycle runs (notes/assumptions/6.md). -/
def Obligations.RunsEndDrainedOrFaulted : Prop :=
  ∀ s : State,
    (s.status = .running → continues s = false → step s = .next { s with status := .drained }) ∧
    (∀ t, s.status = .running → step s = .next t → t.status = .drained →
      PipelineEmpty t ∧ t.miss = none ∧ t.tick ≠ 0 ∧ t = { s with status := .drained }) ∧
    (s.status = .drained → step s = .next s) ∧
    ∀ code info, s.status = .faulted code info → step s = .fault (faultOf code info)

/-- No instruction is refused or faults as an outcome: every part of every instruction answers a next state, and so does every step of a block
that has not faulted (a raise is a next state with status `Faulted`, R500). -/
def Obligations.EveryInstructionAnswersNext : Prop :=
  (∀ (i : Instr) (s : State), ∃ t, exec i s = .next t) ∧
    ∀ s : State, (∀ code info, s.status ≠ .faulted code info) → ∃ t, step s = .next t

/-- A cycle adds 1 to `tick`, retires at most one record, and a raise leaves `tick` alone (R31, R200, R225). -/
def Obligations.OneCycleOneTick : Prop :=
  ∀ s t : State, s.status = .running → continues s = true → step s = .next t →
    (t.status = .running → t.tick = s.tick + 1) ∧
    (t.status ≠ .running → t.tick = s.tick) ∧
    (t.counters.retired = s.counters.retired ∨ t.counters.retired = s.counters.retired + 1)

/-- A fault and the state it leaves (R500 to R502, R514): each code is raised by its stage, EX and ID raise nothing; a fault at writeback
leaves the registers as they were, a data or fetch fault leaves them as the writeback stage of its cycle left them, and no record retires in
the faulting stage. -/
def Obligations.FaultsArePrecise : Prop :=
  ∀ (s t : State) (code : FaultCode) (info : FaultInfo), s.status = .running → PendingFaultsAreDivisions s →
    step s = .next t → t.status = .faulted code info →
      ((code = .divOverflow ∧ t.stage = .writeback) ∨
        ((code = .dataMisaligned ∨ code = .dataBounds ∨ code = .storeBusy) ∧ t.stage = .memory) ∨
        ((code = .fetchPcZero ∨ code = .fetchMisaligned) ∧ t.stage = .fetch)) ∧
      (t.stage = .writeback → t.x = s.x ∧ t.counters.retired = s.counters.retired) ∧
      (t.stage ≠ .writeback → ∃ w, writebackStage s = .next w ∧ w.status = .running ∧ t.x = w.x ∧
        t.counters.retired = w.counters.retired)

/-! ### Invariants -/

/-- `x0` and its table entry keep reading as the spec says (R33, R45). -/
def Obligations.ZeroRegisterStaysZero : Prop :=
  ∀ s t : State, ZeroHardwired s → step s = .next t → ZeroHardwired t

/-- The data memory and the set of touched addresses keep their canonical form (R49; the form is the model's, notes/assumptions/4.md), and the
cache keeps `S` sets of `A` ways of `B / W` words with ways 1 and above invalid (R47, R114). -/
def Obligations.MemoryAndCacheKeepTheirForm : Prop :=
  ∀ s t : State, step s = .next t →
    (Memory.wf s.mem → Memory.wf t.mem) ∧ (TouchedCanonical s → TouchedCanonical t) ∧ (CacheShaped s → CacheShaped t)

/-- Fetch is never blocked while speculation is enabled, the predictor's state stays of the predictor configured (R50, R51), and no step
changes the configuration or the program (R30). -/
def Obligations.ControlStaysConfigured : Prop :=
  ∀ s t : State, step s = .next t →
    t.cfg = s.cfg ∧ t.program = s.program ∧ (FetchControlled s → FetchControlled t) ∧
      (PredictorConfigured s → PredictorConfigured t)

/-- A pending fault is only ever the overflow of a `DIV` or `REM` under the `fault` policy (R40, R205, R315). -/
def Obligations.PendingFaultsStayDivisions : Prop :=
  ∀ s t : State, PendingFaultsAreDivisions s → step s = .next t → PendingFaultsAreDivisions t

/-- Program order, the dependency table and the held miss (R45, R46, R223 to R225): every cycle of a running block keeps them. -/
def Obligations.PipelineStaysOrdered : Prop :=
  ∀ s t : State, PipelineOrdered s → step s = .next t → PipelineOrdered t

/-- The cache and the backing store stay coherent (R112, R114, R119): every cycle of a running block keeps it. -/
def Obligations.MemorySystemStaysCoherent : Prop :=
  ∀ s t : State, PipelineOrdered s → Memory.wf s.mem → MemoryCoherent s → step s = .next t → MemoryCoherent t

/-- `E_STORE_BUSY` is unreachable (R116, R510). -/
def Obligations.StoreBusyIsUnreachable : Prop :=
  ∀ (s t : State) (info : FaultInfo), s.status = .running → PipelineOrdered s → PendingFaultsAreDivisions s →
    step s = .next t → t.status ≠ .faulted .storeBusy info

/-- Every launched block meets the invariants. -/
def Obligations.LaunchMeetsTheInvariants : Prop :=
  ∀ (l : LaunchInput) (s : State), launch l = .next s →
    ZeroHardwired s ∧ Memory.wf s.mem ∧ TouchedCanonical s ∧ FetchControlled s ∧ PredictorConfigured s ∧ CacheShaped s ∧
      PendingFaultsAreDivisions s ∧ PipelineOrdered s ∧ MemoryCoherent s

/-- The block at `State.reset` meets the invariants. -/
def Obligations.ResetMeetsTheInvariants : Prop :=
  ZeroHardwired State.reset ∧ Memory.wf State.reset.mem ∧ TouchedCanonical State.reset ∧ FetchControlled State.reset ∧
    PredictorConfigured State.reset ∧ CacheShaped State.reset ∧ PendingFaultsAreDivisions State.reset ∧
    PipelineOrdered State.reset ∧ MemoryCoherent State.reset

/-! ### What no other stage or instruction does -/

/-- Registers are written only by the writeback stage, and there only `rd` of the record that retires (R33, R34). -/
def Obligations.OnlyWritebackWritesRegisters : Prop :=
  ∀ (i : Instr) (s t : State), exec i s = .next t →
    (s.stage ≠ .writeback → t.x = s.x) ∧
    ∀ r, r ≠ rdIndex i ∨ r = 0 → t.x.get r = s.x.get r

/-- The data space is reached only by `LD` and `SD`, in the MEM stage (R100, R102). -/
def Obligations.OnlyLoadsAndStoresReachData : Prop :=
  ∀ (i : Instr) (s t : State), exec i s = .next t → isMemory i = false ∨ s.stage ≠ .memory →
    t.cache = s.cache ∧ t.miss = s.miss ∧ t.req = s.req ∧ t.touched = s.touched ∧
      ∀ a, Memory.read t.mem a = Memory.read s.mem a

/-- `pc` is written only by fetch, by the decode of `JAL`, and by the writeback of a branch whose prediction was wrong (R36, R37). -/
def Obligations.OnlyThreeStagesWritePc : Prop :=
  ∀ (i : Instr) (s t : State), exec i s = .next t →
    t.pc = s.pc ∨
    (s.stage = .fetch ∧ (t.pc = s.pc + 4 ∨
      isBranch i = true ∧ s.cfg.speculation = true ∧ some t.pc = predict s.pstate s.pc)) ∨
    (s.stage = .decode ∧ ∃ rd imm I, i = .jal rd imm ∧ s.ifId = some I ∧ t.pc = I.pc + byteOffset imm) ∨
    (s.stage = .writeback ∧ isBranch i = true ∧ ∃ I, s.memWb = some I ∧ I.predTarget ≠ I.target ∧ t.pc = I.target)

/-! ### Runs and the report -/

/-- A program of one register-writing instruction, from the launch state to retirement (R614, R174): fetched in cycle 0, it retires in cycle
`4 + l` with `l = max(1, LAT)`, commits its result to `rd` unless `rd` is `x0`, changes no other register, and the run then drains. -/
def Obligations.LoneInstructionRetires : Prop :=
  ∀ (s : State) (i : Instr) (v : Word) (rd rs1 rs2 : Reg) (imm : Int),
    (i, v) ∈ [(Instr.add rd rs1 rs2, readReg s rs1 + readReg s rs2), (.sub rd rs1 rs2, readReg s rs1 - readReg s rs2),
      (.and rd rs1 rs2, readReg s rs1 &&& readReg s rs2), (.or rd rs1 rs2, readReg s rs1 ||| readReg s rs2),
      (.xor rd rs1 rs2, readReg s rs1 ^^^ readReg s rs2), (.mul rd rs1 rs2, readReg s rs1 * readReg s rs2),
      (.addi rd rs1 imm, readReg s rs1 + BitVec.ofInt 64 imm), (.lui rd imm, BitVec.ofInt 64 (imm * 4096))] →
    s.status = .running → s.tick = 0 → s.pc = 4 → s.fetchBlocked = false → PipelineEmpty s →
    (∀ r, s.dep.get r = none) → s.miss = none → s.program = [i] →
      ∃ t, steps (5 + max 1 (latencyOf s.cfg (opOf i))) s = .next t ∧ t.status = .running ∧
        t.tick = 5 + max 1 (latencyOf s.cfg (opOf i)) ∧ t.counters.retired = s.counters.retired + 1 ∧
        t.x = (if rd = 0 then s.x else s.x.set rd v) ∧ t.mem = s.mem ∧ t.cache = s.cache ∧
        step t = .next { t with status := .drained }

/-- A program of one load on a cold cache (R612, R614, R381): it misses, and retires in cycle `4 + l + MEM_LATENCY` with the word of the
backing store at its address. -/
def Obligations.LoneLoadRetires : Prop :=
  ∀ (s : State) (rd rs1 : Reg) (imm : Int) (a : Nat),
    (readReg s rs1 + BitVec.ofInt 64 imm).toNat = a → a % 8 = 0 → s.cfg.codeBytes ≤ baseOf s.cfg a →
    baseOf s.cfg a + s.cfg.blockBytes ≤ s.cfg.memBytes → GeometryOk s.cfg → CacheShaped s → 1 ≤ s.cfg.memLatency →
    (∀ ways ∈ s.cache, ∀ b ∈ ways, b.valid = false) →
    s.status = .running → s.tick = 0 → s.pc = 4 → s.fetchBlocked = false → PipelineEmpty s →
    (∀ r, s.dep.get r = none) → s.miss = none → s.req = none → s.program = [.ld rd rs1 imm] →
      ∃ t, steps (5 + max 1 (latencyOf s.cfg .ld) + s.cfg.memLatency) s = .next t ∧ t.status = .running ∧
        t.tick = 5 + max 1 (latencyOf s.cfg .ld) + s.cfg.memLatency ∧
        t.counters.retired = s.counters.retired + 1 ∧ t.counters.misses = s.counters.misses + 1 ∧
        t.x = (if rd = 0 then s.x else s.x.set rd (Memory.readWord s.mem a)) ∧ t.mem = s.mem ∧
        step t = .next { t with status := .drained }

/-- The report (R119, R203, R520, R604): only a drained run has one. It holds the registers, the coherent value of every data word,
whether it was ever touched or not, the set `touched`, the touched words with their coherent values, the counters with `tick`, and
the ratios, each undefined exactly when its denominator is zero. -/
def Obligations.ReportOfADrainedRun : Prop :=
  ∀ s : State,
    (s.status = .drained → ∃ r, report s = some r ∧ r.cycles = s.tick ∧ r.registers = s.x ∧ r.counters = s.counters ∧
      (∀ a v, (a, v) ∈ r.memory ↔ a % 8 = 0 ∧ s.cfg.codeBytes ≤ a ∧ a < s.cfg.memBytes ∧ v = coherent s a) ∧
      r.memory.Pairwise (fun p q => p.1 < q.1) ∧
      r.touched = s.touched ∧
      (∀ a v, (a, v) ∈ r.touchedWords ↔ a ∈ s.touched ∧ a % 8 = 0 ∧ v = coherent s a) ∧
      (r.cyclesPerInstruction = none ↔ s.counters.retired = 0) ∧
      (r.missRate = none ↔ s.counters.hits = 0 ∧ s.counters.misses = 0) ∧
      (r.predictionAccuracy = none ↔ s.counters.branches = 0) ∧
      (∀ c, r.cyclesPerInstruction = some c → c * s.counters.retired = s.tick) ∧
      (∀ c, r.missRate = some c → c * (s.counters.hits + s.counters.misses : Nat) = s.counters.misses) ∧
      (∀ c, r.predictionAccuracy = some c → c * s.counters.branches = s.counters.correct)) ∧
    (s.status ≠ .drained → report s = none)
end

