-- ==== Sys2Proof/Laws/State.lean ====
section
/-! SUPPORT. One lemma per field per named update of the state, true by rfl, so that no later proof unfolds a record update. -/

namespace Sys2Proof.Machine

/-! ### raiseFault -/

@[simp] theorem raiseFault_cfg (code : FaultCode) (info : FaultInfo) (s : State) : (raiseFault code info s).cfg = s.cfg := rfl
@[simp] theorem raiseFault_program (code : FaultCode) (info : FaultInfo) (s : State) : (raiseFault code info s).program = s.program := rfl
@[simp] theorem raiseFault_status (code : FaultCode) (info : FaultInfo) (s : State) : (raiseFault code info s).status = .faulted code info := rfl
@[simp] theorem raiseFault_stage (code : FaultCode) (info : FaultInfo) (s : State) : (raiseFault code info s).stage = s.stage := rfl
@[simp] theorem raiseFault_tick (code : FaultCode) (info : FaultInfo) (s : State) : (raiseFault code info s).tick = s.tick := rfl
@[simp] theorem raiseFault_pc (code : FaultCode) (info : FaultInfo) (s : State) : (raiseFault code info s).pc = s.pc := rfl
@[simp] theorem raiseFault_fetchBlocked (code : FaultCode) (info : FaultInfo) (s : State) : (raiseFault code info s).fetchBlocked = s.fetchBlocked := rfl
@[simp] theorem raiseFault_nextSeq (code : FaultCode) (info : FaultInfo) (s : State) : (raiseFault code info s).nextSeq = s.nextSeq := rfl
@[simp] theorem raiseFault_ifId (code : FaultCode) (info : FaultInfo) (s : State) : (raiseFault code info s).ifId = s.ifId := rfl
@[simp] theorem raiseFault_idEx (code : FaultCode) (info : FaultInfo) (s : State) : (raiseFault code info s).idEx = s.idEx := rfl
@[simp] theorem raiseFault_exMem (code : FaultCode) (info : FaultInfo) (s : State) : (raiseFault code info s).exMem = s.exMem := rfl
@[simp] theorem raiseFault_memWb (code : FaultCode) (info : FaultInfo) (s : State) : (raiseFault code info s).memWb = s.memWb := rfl
@[simp] theorem raiseFault_fu (code : FaultCode) (info : FaultInfo) (s : State) : (raiseFault code info s).fu = s.fu := rfl
@[simp] theorem raiseFault_x (code : FaultCode) (info : FaultInfo) (s : State) : (raiseFault code info s).x = s.x := rfl
@[simp] theorem raiseFault_dep (code : FaultCode) (info : FaultInfo) (s : State) : (raiseFault code info s).dep = s.dep := rfl
@[simp] theorem raiseFault_cache (code : FaultCode) (info : FaultInfo) (s : State) : (raiseFault code info s).cache = s.cache := rfl
@[simp] theorem raiseFault_miss (code : FaultCode) (info : FaultInfo) (s : State) : (raiseFault code info s).miss = s.miss := rfl
@[simp] theorem raiseFault_mem (code : FaultCode) (info : FaultInfo) (s : State) : (raiseFault code info s).mem = s.mem := rfl
@[simp] theorem raiseFault_req (code : FaultCode) (info : FaultInfo) (s : State) : (raiseFault code info s).req = s.req := rfl
@[simp] theorem raiseFault_touched (code : FaultCode) (info : FaultInfo) (s : State) : (raiseFault code info s).touched = s.touched := rfl
@[simp] theorem raiseFault_pstate (code : FaultCode) (info : FaultInfo) (s : State) : (raiseFault code info s).pstate = s.pstate := rfl
@[simp] theorem raiseFault_counters (code : FaultCode) (info : FaultInfo) (s : State) : (raiseFault code info s).counters = s.counters := rfl

/-! ### enterStage -/

@[simp] theorem enterStage_cfg (st : Stage) (s : State) : (enterStage st s).cfg = s.cfg := rfl
@[simp] theorem enterStage_program (st : Stage) (s : State) : (enterStage st s).program = s.program := rfl
@[simp] theorem enterStage_status (st : Stage) (s : State) : (enterStage st s).status = s.status := rfl
@[simp] theorem enterStage_stage (st : Stage) (s : State) : (enterStage st s).stage = st := rfl
@[simp] theorem enterStage_tick (st : Stage) (s : State) : (enterStage st s).tick = s.tick := rfl
@[simp] theorem enterStage_pc (st : Stage) (s : State) : (enterStage st s).pc = s.pc := rfl
@[simp] theorem enterStage_fetchBlocked (st : Stage) (s : State) : (enterStage st s).fetchBlocked = s.fetchBlocked := rfl
@[simp] theorem enterStage_nextSeq (st : Stage) (s : State) : (enterStage st s).nextSeq = s.nextSeq := rfl
@[simp] theorem enterStage_ifId (st : Stage) (s : State) : (enterStage st s).ifId = s.ifId := rfl
@[simp] theorem enterStage_idEx (st : Stage) (s : State) : (enterStage st s).idEx = s.idEx := rfl
@[simp] theorem enterStage_exMem (st : Stage) (s : State) : (enterStage st s).exMem = s.exMem := rfl
@[simp] theorem enterStage_memWb (st : Stage) (s : State) : (enterStage st s).memWb = s.memWb := rfl
@[simp] theorem enterStage_fu (st : Stage) (s : State) : (enterStage st s).fu = s.fu := rfl
@[simp] theorem enterStage_x (st : Stage) (s : State) : (enterStage st s).x = s.x := rfl
@[simp] theorem enterStage_dep (st : Stage) (s : State) : (enterStage st s).dep = s.dep := rfl
@[simp] theorem enterStage_cache (st : Stage) (s : State) : (enterStage st s).cache = s.cache := rfl
@[simp] theorem enterStage_miss (st : Stage) (s : State) : (enterStage st s).miss = s.miss := rfl
@[simp] theorem enterStage_mem (st : Stage) (s : State) : (enterStage st s).mem = s.mem := rfl
@[simp] theorem enterStage_req (st : Stage) (s : State) : (enterStage st s).req = s.req := rfl
@[simp] theorem enterStage_touched (st : Stage) (s : State) : (enterStage st s).touched = s.touched := rfl
@[simp] theorem enterStage_pstate (st : Stage) (s : State) : (enterStage st s).pstate = s.pstate := rfl
@[simp] theorem enterStage_counters (st : Stage) (s : State) : (enterStage st s).counters = s.counters := rfl

/-! ### tickOver -/

@[simp] theorem tickOver_cfg (s : State) : (tickOver s).cfg = s.cfg := rfl
@[simp] theorem tickOver_program (s : State) : (tickOver s).program = s.program := rfl
@[simp] theorem tickOver_status (s : State) : (tickOver s).status = s.status := rfl
@[simp] theorem tickOver_stage (s : State) : (tickOver s).stage = s.stage := rfl
@[simp] theorem tickOver_tick (s : State) : (tickOver s).tick = s.tick + 1 := rfl
@[simp] theorem tickOver_pc (s : State) : (tickOver s).pc = s.pc := rfl
@[simp] theorem tickOver_fetchBlocked (s : State) : (tickOver s).fetchBlocked = s.fetchBlocked := rfl
@[simp] theorem tickOver_nextSeq (s : State) : (tickOver s).nextSeq = s.nextSeq := rfl
@[simp] theorem tickOver_ifId (s : State) : (tickOver s).ifId = s.ifId := rfl
@[simp] theorem tickOver_idEx (s : State) : (tickOver s).idEx = s.idEx := rfl
@[simp] theorem tickOver_exMem (s : State) : (tickOver s).exMem = s.exMem := rfl
@[simp] theorem tickOver_memWb (s : State) : (tickOver s).memWb = s.memWb := rfl
@[simp] theorem tickOver_fu (s : State) : (tickOver s).fu = s.fu := rfl
@[simp] theorem tickOver_x (s : State) : (tickOver s).x = s.x := rfl
@[simp] theorem tickOver_dep (s : State) : (tickOver s).dep = s.dep := rfl
@[simp] theorem tickOver_cache (s : State) : (tickOver s).cache = s.cache := rfl
@[simp] theorem tickOver_miss (s : State) : (tickOver s).miss = s.miss := rfl
@[simp] theorem tickOver_mem (s : State) : (tickOver s).mem = s.mem := rfl
@[simp] theorem tickOver_req (s : State) : (tickOver s).req = s.req := rfl
@[simp] theorem tickOver_touched (s : State) : (tickOver s).touched = s.touched := rfl
@[simp] theorem tickOver_pstate (s : State) : (tickOver s).pstate = s.pstate := rfl
@[simp] theorem tickOver_counters (s : State) : (tickOver s).counters = s.counters := rfl

/-! ### flush -/

@[simp] theorem flush_cfg (s : State) : (flush s).cfg = s.cfg := rfl
@[simp] theorem flush_program (s : State) : (flush s).program = s.program := rfl
@[simp] theorem flush_status (s : State) : (flush s).status = s.status := rfl
@[simp] theorem flush_stage (s : State) : (flush s).stage = s.stage := rfl
@[simp] theorem flush_tick (s : State) : (flush s).tick = s.tick := rfl
@[simp] theorem flush_pc (s : State) : (flush s).pc = s.pc := rfl
@[simp] theorem flush_fetchBlocked (s : State) : (flush s).fetchBlocked = false := rfl
@[simp] theorem flush_nextSeq (s : State) : (flush s).nextSeq = s.nextSeq := rfl
@[simp] theorem flush_ifId (s : State) : (flush s).ifId = none := rfl
@[simp] theorem flush_idEx (s : State) : (flush s).idEx = none := rfl
@[simp] theorem flush_exMem (s : State) : (flush s).exMem = none := rfl
@[simp] theorem flush_memWb (s : State) : (flush s).memWb = none := rfl
@[simp] theorem flush_fu (s : State) : (flush s).fu = .idle := rfl
@[simp] theorem flush_x (s : State) : (flush s).x = s.x := rfl
@[simp] theorem flush_dep (s : State) : (flush s).dep = Vector.replicate 32 none := rfl
@[simp] theorem flush_cache (s : State) : (flush s).cache = s.cache := rfl
@[simp] theorem flush_miss (s : State) : (flush s).miss = s.miss := rfl
@[simp] theorem flush_mem (s : State) : (flush s).mem = s.mem := rfl
@[simp] theorem flush_req (s : State) : (flush s).req = s.req := rfl
@[simp] theorem flush_touched (s : State) : (flush s).touched = s.touched := rfl
@[simp] theorem flush_pstate (s : State) : (flush s).pstate = s.pstate := rfl
@[simp] theorem flush_counters (s : State) : (flush s).counters = s.counters := rfl

/-! ### setBlock -/

@[simp] theorem setBlock_cfg (s : State) (a way : Nat) (b : Block) : (setBlock s a way b).cfg = s.cfg := rfl
@[simp] theorem setBlock_program (s : State) (a way : Nat) (b : Block) : (setBlock s a way b).program = s.program := rfl
@[simp] theorem setBlock_status (s : State) (a way : Nat) (b : Block) : (setBlock s a way b).status = s.status := rfl
@[simp] theorem setBlock_stage (s : State) (a way : Nat) (b : Block) : (setBlock s a way b).stage = s.stage := rfl
@[simp] theorem setBlock_tick (s : State) (a way : Nat) (b : Block) : (setBlock s a way b).tick = s.tick := rfl
@[simp] theorem setBlock_pc (s : State) (a way : Nat) (b : Block) : (setBlock s a way b).pc = s.pc := rfl
@[simp] theorem setBlock_fetchBlocked (s : State) (a way : Nat) (b : Block) : (setBlock s a way b).fetchBlocked = s.fetchBlocked := rfl
@[simp] theorem setBlock_nextSeq (s : State) (a way : Nat) (b : Block) : (setBlock s a way b).nextSeq = s.nextSeq := rfl
@[simp] theorem setBlock_ifId (s : State) (a way : Nat) (b : Block) : (setBlock s a way b).ifId = s.ifId := rfl
@[simp] theorem setBlock_idEx (s : State) (a way : Nat) (b : Block) : (setBlock s a way b).idEx = s.idEx := rfl
@[simp] theorem setBlock_exMem (s : State) (a way : Nat) (b : Block) : (setBlock s a way b).exMem = s.exMem := rfl
@[simp] theorem setBlock_memWb (s : State) (a way : Nat) (b : Block) : (setBlock s a way b).memWb = s.memWb := rfl
@[simp] theorem setBlock_fu (s : State) (a way : Nat) (b : Block) : (setBlock s a way b).fu = s.fu := rfl
@[simp] theorem setBlock_x (s : State) (a way : Nat) (b : Block) : (setBlock s a way b).x = s.x := rfl
@[simp] theorem setBlock_dep (s : State) (a way : Nat) (b : Block) : (setBlock s a way b).dep = s.dep := rfl
@[simp] theorem setBlock_cache (s : State) (a way : Nat) (b : Block) : (setBlock s a way b).cache = s.cache.set (setIndexOf s.cfg a) ((cacheSetOf s a).set way b) := rfl
@[simp] theorem setBlock_miss (s : State) (a way : Nat) (b : Block) : (setBlock s a way b).miss = s.miss := rfl
@[simp] theorem setBlock_mem (s : State) (a way : Nat) (b : Block) : (setBlock s a way b).mem = s.mem := rfl
@[simp] theorem setBlock_req (s : State) (a way : Nat) (b : Block) : (setBlock s a way b).req = s.req := rfl
@[simp] theorem setBlock_touched (s : State) (a way : Nat) (b : Block) : (setBlock s a way b).touched = s.touched := rfl
@[simp] theorem setBlock_pstate (s : State) (a way : Nat) (b : Block) : (setBlock s a way b).pstate = s.pstate := rfl
@[simp] theorem setBlock_counters (s : State) (a way : Nat) (b : Block) : (setBlock s a way b).counters = s.counters := rfl

/-! ### fetchRecord -/

@[simp] theorem fetchRecord_cfg (i : Instr) (s : State) : (fetchRecord i s).cfg = s.cfg := rfl
@[simp] theorem fetchRecord_program (i : Instr) (s : State) : (fetchRecord i s).program = s.program := rfl
@[simp] theorem fetchRecord_status (i : Instr) (s : State) : (fetchRecord i s).status = s.status := rfl
@[simp] theorem fetchRecord_stage (i : Instr) (s : State) : (fetchRecord i s).stage = s.stage := rfl
@[simp] theorem fetchRecord_tick (i : Instr) (s : State) : (fetchRecord i s).tick = s.tick := rfl
@[simp] theorem fetchRecord_pc (i : Instr) (s : State) : (fetchRecord i s).pc = s.pc + 4 := rfl
@[simp] theorem fetchRecord_fetchBlocked (i : Instr) (s : State) : (fetchRecord i s).fetchBlocked = s.fetchBlocked := rfl
@[simp] theorem fetchRecord_nextSeq (i : Instr) (s : State) : (fetchRecord i s).nextSeq = s.nextSeq + 1 := rfl
@[simp] theorem fetchRecord_ifId (i : Instr) (s : State) : (fetchRecord i s).ifId = some (newRecord s i) := rfl
@[simp] theorem fetchRecord_idEx (i : Instr) (s : State) : (fetchRecord i s).idEx = s.idEx := rfl
@[simp] theorem fetchRecord_exMem (i : Instr) (s : State) : (fetchRecord i s).exMem = s.exMem := rfl
@[simp] theorem fetchRecord_memWb (i : Instr) (s : State) : (fetchRecord i s).memWb = s.memWb := rfl
@[simp] theorem fetchRecord_fu (i : Instr) (s : State) : (fetchRecord i s).fu = s.fu := rfl
@[simp] theorem fetchRecord_x (i : Instr) (s : State) : (fetchRecord i s).x = s.x := rfl
@[simp] theorem fetchRecord_dep (i : Instr) (s : State) : (fetchRecord i s).dep = s.dep := rfl
@[simp] theorem fetchRecord_cache (i : Instr) (s : State) : (fetchRecord i s).cache = s.cache := rfl
@[simp] theorem fetchRecord_miss (i : Instr) (s : State) : (fetchRecord i s).miss = s.miss := rfl
@[simp] theorem fetchRecord_mem (i : Instr) (s : State) : (fetchRecord i s).mem = s.mem := rfl
@[simp] theorem fetchRecord_req (i : Instr) (s : State) : (fetchRecord i s).req = s.req := rfl
@[simp] theorem fetchRecord_touched (i : Instr) (s : State) : (fetchRecord i s).touched = s.touched := rfl
@[simp] theorem fetchRecord_pstate (i : Instr) (s : State) : (fetchRecord i s).pstate = s.pstate := rfl
@[simp] theorem fetchRecord_counters (i : Instr) (s : State) : (fetchRecord i s).counters = s.counters := rfl

/-! ### predictBlocked -/

@[simp] theorem predictBlocked_cfg (i : Instr) (s : State) : (predictBlocked i s).cfg = s.cfg := rfl
@[simp] theorem predictBlocked_program (i : Instr) (s : State) : (predictBlocked i s).program = s.program := rfl
@[simp] theorem predictBlocked_status (i : Instr) (s : State) : (predictBlocked i s).status = s.status := rfl
@[simp] theorem predictBlocked_stage (i : Instr) (s : State) : (predictBlocked i s).stage = s.stage := rfl
@[simp] theorem predictBlocked_tick (i : Instr) (s : State) : (predictBlocked i s).tick = s.tick := rfl
@[simp] theorem predictBlocked_pc (i : Instr) (s : State) : (predictBlocked i s).pc = s.pc + 4 := rfl
@[simp] theorem predictBlocked_fetchBlocked (i : Instr) (s : State) : (predictBlocked i s).fetchBlocked = true := rfl
@[simp] theorem predictBlocked_nextSeq (i : Instr) (s : State) : (predictBlocked i s).nextSeq = s.nextSeq + 1 := rfl
@[simp] theorem predictBlocked_ifId (i : Instr) (s : State) : (predictBlocked i s).ifId = some (newRecord s i) := rfl
@[simp] theorem predictBlocked_idEx (i : Instr) (s : State) : (predictBlocked i s).idEx = s.idEx := rfl
@[simp] theorem predictBlocked_exMem (i : Instr) (s : State) : (predictBlocked i s).exMem = s.exMem := rfl
@[simp] theorem predictBlocked_memWb (i : Instr) (s : State) : (predictBlocked i s).memWb = s.memWb := rfl
@[simp] theorem predictBlocked_fu (i : Instr) (s : State) : (predictBlocked i s).fu = s.fu := rfl
@[simp] theorem predictBlocked_x (i : Instr) (s : State) : (predictBlocked i s).x = s.x := rfl
@[simp] theorem predictBlocked_dep (i : Instr) (s : State) : (predictBlocked i s).dep = s.dep := rfl
@[simp] theorem predictBlocked_cache (i : Instr) (s : State) : (predictBlocked i s).cache = s.cache := rfl
@[simp] theorem predictBlocked_miss (i : Instr) (s : State) : (predictBlocked i s).miss = s.miss := rfl
@[simp] theorem predictBlocked_mem (i : Instr) (s : State) : (predictBlocked i s).mem = s.mem := rfl
@[simp] theorem predictBlocked_req (i : Instr) (s : State) : (predictBlocked i s).req = s.req := rfl
@[simp] theorem predictBlocked_touched (i : Instr) (s : State) : (predictBlocked i s).touched = s.touched := rfl
@[simp] theorem predictBlocked_pstate (i : Instr) (s : State) : (predictBlocked i s).pstate = s.pstate := rfl
@[simp] theorem predictBlocked_counters (i : Instr) (s : State) : (predictBlocked i s).counters = s.counters := rfl

end Sys2Proof.Machine
end

