-- ==== Sys2Proof/Laws/Coherence.lean ====
section
/-! SUPPORT. Lemmas about the cache's geometry and lookup (spec/20_memory.md R108, R109, R114, R119): the decomposition of an address
and its inverse, that two blocks are equal or disjoint, what a lookup can answer in a cache of the spec's form, and what putting a block
into way 0 changes. -/

namespace Sys2Proof.Machine

/-! ### Address decomposition (R108) -/

theorem blockBytes_eq {cfg : Config} (h : GeometryOk cfg) : cfg.blockBytes = 8 * blockWords cfg := by
  obtain ⟨h1, h2, -, -⟩ := h
  unfold blockWords
  omega

theorem setIndexOf_lt {cfg : Config} (h : GeometryOk cfg) (a : Nat) : setIndexOf cfg a < setCount cfg :=
  Nat.mod_lt _ h.2.2.1

/-- `base_of(tag(a), set(a)) = base(a)`. -/
theorem baseOfTag_tagOf (cfg : Config) (a : Nat) : baseOfTag cfg (tagOf cfg a) (setIndexOf cfg a) = baseOf cfg a := by
  unfold baseOfTag tagOf setIndexOf baseOf offsetOf
  rw [← Nat.div_div_eq_div_mul, mul_comm (a / cfg.blockBytes / setCount cfg), Nat.div_add_mod, mul_comm]
  have := Nat.div_add_mod a cfg.blockBytes
  omega

/-- Two blocks are equal or disjoint. -/
theorem baseOfTag_disjoint {cfg : Config} (hg : GeometryOk cfg) {t k t' k' : Nat} (h : k < setCount cfg)
    (h' : k' < setCount cfg) (hne : ¬ (t = t' ∧ k = k')) :
    baseOfTag cfg t k + cfg.blockBytes ≤ baseOfTag cfg t' k' ∨
      baseOfTag cfg t' k' + cfg.blockBytes ≤ baseOfTag cfg t k := by
  have hne' : t * setCount cfg + k ≠ t' * setCount cfg + k' := by
    intro e
    have h1 : (t * setCount cfg + k) % setCount cfg = k := by rw [Nat.mul_add_mod']; exact Nat.mod_eq_of_lt h
    have h2 : (t' * setCount cfg + k') % setCount cfg = k' := by rw [Nat.mul_add_mod']; exact Nat.mod_eq_of_lt h'
    have hk : k = k' := by rw [← h1, ← h2, e]
    subst hk
    exact hne ⟨Nat.eq_of_mul_eq_mul_right hg.2.2.1 (by omega), rfl⟩
  unfold baseOfTag
  rcases Nat.lt_or_gt_of_ne hne' with hl | hl
  · left
    rw [← Nat.succ_mul]
    exact Nat.mul_le_mul_right _ hl
  · right
    rw [← Nat.succ_mul]
    exact Nat.mul_le_mul_right _ hl

/-- An aligned address is word `word(a)` of its block. -/
theorem baseOf_add_word {cfg : Config} (h : GeometryOk cfg) {a : Nat} (ha : a % 8 = 0) :
    baseOf cfg a + 8 * wordIndexOf cfg a = a ∧ wordIndexOf cfg a < blockWords cfg := by
  have h8 := blockBytes_eq h
  unfold baseOf wordIndexOf offsetOf
  have hle := Nat.mod_le a cfg.blockBytes
  have hlt := Nat.mod_lt a h.1
  have : a % cfg.blockBytes % 8 = 0 := by rw [h8, Nat.mod_mul_right_mod, ha]
  omega

/-- Every byte of a block falls into the same set with the same tag. -/
theorem setIndexOf_baseOf_add {cfg : Config} (h : GeometryOk cfg) {a j : Nat} (hj : j < cfg.blockBytes) :
    setIndexOf cfg (baseOf cfg a + j) = setIndexOf cfg a ∧ tagOf cfg (baseOf cfg a + j) = tagOf cfg a := by
  have hb : (baseOf cfg a + j) / cfg.blockBytes = a / cfg.blockBytes := by
    have h1 : baseOf cfg a = cfg.blockBytes * (a / cfg.blockBytes) := by
      have := Nat.div_add_mod a cfg.blockBytes
      unfold baseOf offsetOf
      omega
    rw [h1, Nat.mul_add_div h.1, Nat.div_eq_of_lt hj, Nat.add_zero]
  unfold setIndexOf tagOf
  rw [hb, ← Nat.div_div_eq_div_mul, hb, Nat.div_div_eq_div_mul]
  exact ⟨rfl, rfl⟩

/-! ### Lookup in a cache of the spec's form (R109, R114) -/

theorem blockAt_zero (s : State) (a : Nat) : blockAt s a 0 = wayZero s (setIndexOf s.cfg a) := by
  unfold blockAt wayZero cacheSetOf
  rw [List.getD_eq_getElem?_getD]

theorem cacheSetOf_mem {s : State} {a : Nat} (h : setIndexOf s.cfg a < s.cache.length) : cacheSetOf s a ∈ s.cache := by
  unfold cacheSetOf
  rw [List.getD_eq_getElem?_getD, List.getElem?_eq_getElem h]
  exact List.getElem_mem h

/-- A lookup answers way 0 or nothing. -/
theorem lookupWay_cases {s : State} (hs : CacheShaped s) (a : Nat) :
    (∃ b, wayZero s (setIndexOf s.cfg a) = some b ∧ b.valid = true ∧ b.tag = tagOf s.cfg a ∧ lookupWay s a = some 0 ∧
        blockAt s a 0 = some b) ∨
      (lookupWay s a = none ∧
        ∀ b, wayZero s (setIndexOf s.cfg a) = some b → ¬ (b.valid = true ∧ b.tag = tagOf s.cfg a)) := by
  have hw : ∀ w b, (cacheSetOf s a)[w]? = some b → w ≠ 0 → b.valid = false := by
    intro w b hb hw
    by_cases hl : setIndexOf s.cfg a < s.cache.length
    · exact (hs.2 _ (cacheSetOf_mem hl)).2.2 w b hb hw
    · have : cacheSetOf s a = [] := by
        unfold cacheSetOf
        rw [List.getD_eq_getElem?_getD, List.getElem?_eq_none (by omega)]
        rfl
      rw [this] at hb
      simp at hb
  rw [← blockAt_zero]
  unfold lookupWay findWay blockAt
  cases hc : cacheSetOf s a with
  | nil => right; simp
  | cons b bs =>
    rw [hc] at hw
    by_cases hb : b.valid = true ∧ b.tag = tagOf s.cfg a
    · exact .inl ⟨b, rfl, hb.1, hb.2, by simp [List.findIdx?_cons, hb], rfl⟩
    · right
      refine ⟨?_, ?_⟩
      · rw [List.findIdx?_eq_none_iff]
        intro c hcm
        rcases List.mem_cons.mp hcm with rfl | hcm
        · simpa using hb
        · obtain ⟨w, hwl, hwe⟩ := List.getElem_of_mem hcm
          have := hw (w + 1) c (by simp [List.getElem?_eq_getElem hwl, hwe]) (by omega)
          simp [this]
      · intro c hcc
        simp at hcc
        subst hcc
        exact hb

/-- The coherent word at a resident address is the block's. -/
theorem coherent_of_resident {s : State} (hs : CacheShaped s) {a : Nat} {b : Block}
    (hb : wayZero s (setIndexOf s.cfg a) = some b) (hv : b.valid = true) (ht : b.tag = tagOf s.cfg a) :
    coherent s a = b.data.getD (wordIndexOf s.cfg a) 0 := by
  rcases lookupWay_cases hs a with ⟨b', hb', -, -, hl, hbl⟩ | ⟨-, hn⟩
  · rw [hb] at hb'
    cases hb'
    unfold coherent
    rw [hl]
    simp only [hbl]
  · exact absurd ⟨hv, ht⟩ (hn b hb)

/-- The coherent word at any other address is the backing store's. -/
theorem coherent_of_absent {s : State} (hs : CacheShaped s) {a : Nat}
    (hn : ∀ b, wayZero s (setIndexOf s.cfg a) = some b → ¬ (b.valid = true ∧ b.tag = tagOf s.cfg a)) :
    coherent s a = Memory.readWord s.mem a := by
  rcases lookupWay_cases hs a with ⟨b', hb', h1, h2, -, -⟩ | ⟨hl, -⟩
  · exact absurd ⟨h1, h2⟩ (hn b' hb')
  · unfold coherent
    rw [hl]

theorem wayZero_bounds {s : State} (hs : CacheShaped s) {k : Nat} {b : Block} (h : wayZero s k = some b) :
    k < setCount s.cfg ∧ b.data.length = blockWords s.cfg := by
  unfold wayZero at h
  by_cases hl : k < s.cache.length
  · rw [List.getElem?_eq_getElem hl] at h
    simp only [Option.getD_some] at h
    exact ⟨by rw [← hs.1]; exact hl, (hs.2 _ (List.getElem_mem hl)).2.1 b (List.mem_of_getElem? h)⟩
  · rw [List.getElem?_eq_none (Nat.le_of_not_lt hl)] at h
    simp at h

/-! ### A block put into way 0 (R110, R114) -/

theorem wayZero_setBlock {s : State} (hg : GeometryOk s.cfg) (hs : CacheShaped s) (a : Nat) (b : Block) (k : Nat) :
    wayZero (setBlock s a 0 b) k = if k = setIndexOf s.cfg a then some b else wayZero s k := by
  have hl : setIndexOf s.cfg a < s.cache.length := by
    rw [hs.1]
    exact setIndexOf_lt hg a
  unfold wayZero
  rw [setBlock_cache]
  by_cases hk : k = setIndexOf s.cfg a
  · subst hk
    rw [if_pos rfl, List.getElem?_set_self hl]
    simp only [Option.getD_some]
    rw [List.getElem?_set_self]
    rw [(hs.2 _ (cacheSetOf_mem hl)).1]
    exact hg.2.2.2
  · rw [if_neg hk, List.getElem?_set_ne (fun h => hk h.symm)]

theorem cacheShaped_setBlock {s : State} (hs : CacheShaped s) (a : Nat) (b : Block) (hb : b.data.length = blockWords s.cfg) :
    CacheShaped (setBlock s a 0 b) := by
  refine ⟨by simp [hs.1], ?_⟩
  intro ways hw
  rw [setBlock_cache] at hw
  rcases List.mem_or_eq_of_mem_set hw with hw | rfl
  · exact hs.2 ways hw
  · by_cases hl : setIndexOf s.cfg a < s.cache.length
    · obtain ⟨h1, h2, h3⟩ := hs.2 _ (cacheSetOf_mem hl)
      refine ⟨by simp [h1], ?_, ?_⟩
      · intro c hc
        rcases List.mem_or_eq_of_mem_set hc with hc | rfl
        · exact h2 c hc
        · exact hb
      · intro w c hc hw0
        rw [List.getElem?_set_ne (by omega)] at hc
        exact h3 w c hc hw0
    · rw [List.set_eq_of_length_le (by omega)] at hw
      exact hs.2 _ hw

end Sys2Proof.Machine
end

