-- ==== Sys2Proof/Laws/Memory.lean ====
section
/-! SUPPORT. The laws of the data memory and of the set `touched`: a read after a write, every operation keeps the canonical form, and
words and blocks leave every byte outside them alone. -/

namespace Sys2Proof.Machine

/-! ### Bytes -/

@[simp] theorem Memory.read_nil (a : Nat) : Memory.read [] a = 0 := rfl

theorem Memory.read_cons (k : Nat) (b : Byte) (m : Memory) (a : Nat) :
    Memory.read ((k, b) :: m) a = if k = a then b else Memory.read m a := rfl

theorem Memory.wf_nil : Memory.wf [] := by simp [Memory.wf]

theorem Memory.wf_cons {k : Nat} {b : Byte} {m : Memory} :
    Memory.wf ((k, b) :: m) ↔ (∀ c ∈ m, k < c.1) ∧ b ≠ 0 ∧ Memory.wf m := by
  simp only [Memory.wf, List.pairwise_cons, List.mem_cons, forall_eq_or_imp, unlistedByte]
  tauto

/-- An address below every listed one reads as unlisted. -/
theorem Memory.read_below {m : Memory} {a : Nat} (h : ∀ c ∈ m, a < c.1) : Memory.read m a = 0 := by
  induction m with
  | nil => rfl
  | cons c m ih =>
    obtain ⟨k, b⟩ := c
    have hk : a < k := h (k, b) (by simp)
    rw [Memory.read_cons, if_neg (by omega)]
    exact ih fun c hc => h c (by simp [hc])

theorem Memory.mem_write {m : Memory} {a : Nat} {b : Byte} {c : Host.Cell}
    (h : c ∈ Memory.write m a b) : c ∈ m ∨ c = (a, b) := by
  induction m with
  | nil =>
    unfold Memory.write at h
    split at h <;> simp_all
  | cons d m ih =>
    obtain ⟨k, v⟩ := d
    unfold Memory.write at h
    split at h
    · split at h <;> simp_all
      tauto
    · split at h
      · split at h <;> simp_all
        tauto
      · rcases List.mem_cons.mp h with h | h
        · exact .inl (by simp [h])
        · rcases ih h with h | h
          · exact .inl (by simp [h])
          · exact .inr h

/-- A write keeps the canonical form. -/
theorem Memory.write_wf {m : Memory} (h : Memory.wf m) (a : Nat) (b : Byte) : Memory.wf (Memory.write m a b) := by
  induction m with
  | nil =>
    unfold Memory.write
    split
    · exact h
    · exact Memory.wf_cons.mpr ⟨by simp, by assumption, h⟩
  | cons d m ih =>
    obtain ⟨k, v⟩ := d
    obtain ⟨hlt, hv, hm⟩ := Memory.wf_cons.mp h
    unfold Memory.write
    split
    · split
      · exact h
      · refine Memory.wf_cons.mpr ⟨?_, by assumption, h⟩
        intro c hc
        rcases List.mem_cons.mp hc with rfl | hc
        · assumption
        · have := hlt c hc; omega
    · split
      · split
        · exact hm
        · subst_vars
          exact Memory.wf_cons.mpr ⟨hlt, by assumption, hm⟩
      · refine Memory.wf_cons.mpr ⟨?_, hv, ih hm⟩
        intro c hc
        rcases Memory.mem_write hc with hc | rfl
        · exact hlt c hc
        · show k < a; omega

/-- A read after a write: the byte written, and every other address as before. -/
theorem Memory.read_write {m : Memory} (h : Memory.wf m) (a b : Nat) (v : Byte) :
    Memory.read (Memory.write m a v) b = if a = b then v else Memory.read m b := by
  induction m with
  | nil =>
    unfold Memory.write
    split <;> simp_all [Memory.read, unlistedByte]
  | cons d m ih =>
    obtain ⟨k, w⟩ := d
    obtain ⟨hlt, hw, hm⟩ := Memory.wf_cons.mp h
    unfold Memory.write
    split
    · split
      · split
        · subst_vars
          rw [Memory.read_cons, if_neg (by omega)]
          rw [Memory.read_below fun c hc => by have := hlt c hc; omega]
          rfl
        · rfl
      · rw [Memory.read_cons]
    · split
      · subst_vars
        split
        · split
          · subst_vars
            rw [Memory.read_below hlt]
            rfl
          · rw [Memory.read_cons, if_neg (by assumption)]
        · rw [Memory.read_cons, Memory.read_cons]
          split <;> rfl
      · rw [Memory.read_cons, Memory.read_cons, ih hm]
        split
        · rw [if_neg (by omega)]
        · rfl

theorem Memory.read_write_same {m : Memory} (h : Memory.wf m) (a : Nat) (v : Byte) :
    Memory.read (Memory.write m a v) a = v := by rw [Memory.read_write h, if_pos rfl]

theorem Memory.read_write_other {m : Memory} (h : Memory.wf m) {a b : Nat} (hab : a ≠ b) (v : Byte) :
    Memory.read (Memory.write m a v) b = Memory.read m b := by rw [Memory.read_write h, if_neg hab]

/-! ### Words (R104, R105) -/

theorem Memory.writeBytes_wf {m : Memory} (h : Memory.wf m) (a : Nat) (v : Word) (n : Nat) :
    Memory.wf (Memory.writeBytes m a v n) := by
  induction n with
  | zero => exact h
  | succ n ih => exact Memory.write_wf ih _ _

theorem Memory.read_writeBytes {m : Memory} (h : Memory.wf m) (a : Nat) (v : Word) (n b : Nat) :
    Memory.read (Memory.writeBytes m a v n) b =
      if a ≤ b ∧ b < a + n then byteOf v (b - a) else Memory.read m b := by
  induction n with
  | zero => rw [if_neg (by omega)]; rfl
  | succ n ih =>
    rw [Memory.writeBytes, Memory.read_write (Memory.writeBytes_wf h _ _ _), ih]
    by_cases hb : a + n = b
    · rw [if_pos hb, if_pos (by omega)]
      congr 1; omega
    · rw [if_neg hb]
      by_cases hc : a ≤ b ∧ b < a + n
      · rw [if_pos hc, if_pos (by omega)]
      · rw [if_neg hc, if_neg (by omega)]

theorem Memory.writeWord_wf {m : Memory} (h : Memory.wf m) (a : Nat) (v : Word) :
    Memory.wf (Memory.writeWord m a v) := Memory.writeBytes_wf h a v 8

theorem Memory.read_writeWord {m : Memory} (h : Memory.wf m) (a b : Nat) (v : Word) :
    Memory.read (Memory.writeWord m a v) b =
      if a ≤ b ∧ b < a + 8 then byteOf v (b - a) else Memory.read m b := Memory.read_writeBytes h a v 8 b

/-- A word is its eight bytes, least significant first. -/
theorem word_of_bytes (v : Word) :
    (byteOf v 7 ++ byteOf v 6 ++ byteOf v 5 ++ byteOf v 4 ++ byteOf v 3 ++ byteOf v 2 ++ byteOf v 1 ++ byteOf v 0 : Word)
      = v := by
  apply BitVec.eq_of_getLsbD_eq
  intro i hi
  simp only [byteOf, BitVec.getLsbD_append, BitVec.getLsbD_extractLsb']
  repeat' split
  all_goals rw [decide_eq_true (by omega), Bool.true_and]; congr 1; omega

/-- A word is decided by its eight bytes. -/
theorem Memory.readWord_congr {m n : Memory} {a : Nat} (h : ∀ j, j < 8 → Memory.read m (a + j) = Memory.read n (a + j)) :
    Memory.readWord m a = Memory.readWord n a := by
  have h0 := h 0 (by omega)
  simp only [Nat.add_zero] at h0
  rw [Memory.readWord, Memory.readWord, h0, h 1 (by omega), h 2 (by omega), h 3 (by omega), h 4 (by omega),
    h 5 (by omega), h 6 (by omega), h 7 (by omega)]

/-- A word read after it was written is the word written. -/
theorem Memory.readWord_writeWord_same {m : Memory} (h : Memory.wf m) (a : Nat) (v : Word) :
    Memory.readWord (Memory.writeWord m a v) a = v := by
  have hb : ∀ j, j < 8 → Memory.read (Memory.writeWord m a v) (a + j) = byteOf v j := by
    intro j hj
    rw [Memory.read_writeWord h, if_pos (by omega)]
    congr 1; omega
  have h0 := hb 0 (by omega)
  simp only [Nat.add_zero] at h0
  rw [Memory.readWord, h0, hb 1 (by omega), hb 2 (by omega), hb 3 (by omega), hb 4 (by omega), hb 5 (by omega),
    hb 6 (by omega), hb 7 (by omega), word_of_bytes]

/-- A word written leaves every word disjoint from it alone. -/
theorem Memory.readWord_writeWord_other {m : Memory} (h : Memory.wf m) {a b : Nat} (hab : b + 8 ≤ a ∨ a + 8 ≤ b)
    (v : Word) : Memory.readWord (Memory.writeWord m a v) b = Memory.readWord m b :=
  Memory.readWord_congr fun j hj => by rw [Memory.read_writeWord h, if_neg (by omega)]

/-! ### Blocks (R104) -/

theorem Memory.writeBlock_wf {m : Memory} (h : Memory.wf m) (a : Nat) (d : List Word) :
    Memory.wf (Memory.writeBlock m a d) := by
  induction d generalizing m a with
  | nil => exact h
  | cons v d ih => exact ih (Memory.writeWord_wf h a v) (a + 8)

/-- A block written leaves every byte outside it alone. -/
theorem Memory.read_writeBlock_outside {m : Memory} (h : Memory.wf m) {a b : Nat} (d : List Word)
    (hb : b < a ∨ a + 8 * d.length ≤ b) : Memory.read (Memory.writeBlock m a d) b = Memory.read m b := by
  induction d generalizing m a with
  | nil => rfl
  | cons v d ih =>
    simp only [List.length_cons] at hb
    rw [Memory.writeBlock, ih (Memory.writeWord_wf h a v) (by omega), Memory.read_writeWord h, if_neg (by omega)]

theorem Memory.readWord_writeBlock_outside {m : Memory} (h : Memory.wf m) {a b : Nat} (d : List Word)
    (hb : b + 8 ≤ a ∨ a + 8 * d.length ≤ b) : Memory.readWord (Memory.writeBlock m a d) b = Memory.readWord m b :=
  Memory.readWord_congr fun j hj => Memory.read_writeBlock_outside h d (by omega)

/-- Word `j` of a block read after it was written is word `j` of the block written. -/
theorem Memory.readWord_writeBlock_inside {m : Memory} (h : Memory.wf m) (a : Nat) (d : List Word) {j : Nat}
    (hj : j < d.length) : Memory.readWord (Memory.writeBlock m a d) (a + 8 * j) = d[j] := by
  induction d generalizing m a j with
  | nil => simp at hj
  | cons v d ih =>
    rw [Memory.writeBlock]
    cases j with
    | zero =>
      rw [Memory.readWord_writeBlock_outside (Memory.writeWord_wf h a v) d (by omega)]
      exact Memory.readWord_writeWord_same h a v
    | succ j =>
      simp only [List.length_cons] at hj
      have := ih (Memory.writeWord_wf h a v) (a + 8) (j := j) (by omega)
      rw [show a + 8 * (j + 1) = a + 8 + 8 * j by omega, this]
      rfl

@[simp] theorem Memory.readBlock_length (m : Memory) (a n : Nat) : (Memory.readBlock m a n).length = n := by
  simp [Memory.readBlock]

theorem Memory.readBlock_getD (m : Memory) (a n : Nat) {j : Nat} (hj : j < n) :
    (Memory.readBlock m a n).getD j 0 = Memory.readWord m (a + 8 * j) := by
  simp [Memory.readBlock, List.getD_eq_getElem?_getD, hj]

/-! ### Listed addresses -/

theorem Memory.address_write {m : Memory} {a : Nat} {b : Byte} {p : Nat → Prop} (h : ∀ c ∈ m, p c.1) (ha : p a) :
    ∀ c ∈ Memory.write m a b, p c.1 := by
  intro c hc
  rcases Memory.mem_write hc with hc | rfl
  · exact h c hc
  · exact ha

theorem Memory.address_writeBytes {m : Memory} {a : Nat} {v : Word} {p : Nat → Prop} (h : ∀ c ∈ m, p c.1) (n : Nat)
    (ha : ∀ j, j < n → p (a + j)) : ∀ c ∈ Memory.writeBytes m a v n, p c.1 := by
  induction n with
  | zero => exact h
  | succ n ih => exact Memory.address_write (ih fun j hj => ha j (by omega)) (ha n (by omega))

/-- A block written lists no address outside the block that was not listed before. -/
theorem Memory.address_writeBlock {m : Memory} {a : Nat} {d : List Word} {p : Nat → Prop} (h : ∀ c ∈ m, p c.1)
    (ha : ∀ j, j < 8 * d.length → p (a + j)) : ∀ c ∈ Memory.writeBlock m a d, p c.1 := by
  induction d generalizing m a with
  | nil => exact h
  | cons v d ih =>
    simp only [List.length_cons] at ha
    refine ih (Memory.address_writeBytes h 8 fun j hj => ha j (by omega)) fun j hj => ?_
    rw [Nat.add_assoc]
    exact ha (8 + j) (by omega)

/-! ### The set `touched` (R112) -/

theorem mem_insertAddress {a b : Nat} {s : List Nat} : b ∈ insertAddress a s ↔ b = a ∨ b ∈ s := by
  induction s with
  | nil => simp [insertAddress]
  | cons c s ih =>
    unfold insertAddress
    split
    · simp
    · split
      · subst_vars; simp
      · simp only [List.mem_cons, ih]; tauto

theorem insertAddress_sorted {a : Nat} {s : List Nat} (h : s.Pairwise (· < ·)) : (insertAddress a s).Pairwise (· < ·) := by
  induction s with
  | nil => simp [insertAddress]
  | cons c s ih =>
    obtain ⟨hc, hs⟩ := List.pairwise_cons.mp h
    unfold insertAddress
    split
    · refine List.pairwise_cons.mpr ⟨?_, h⟩
      intro b hb
      rcases List.mem_cons.mp hb with rfl | hb
      · assumption
      · have := hc b hb; omega
    · split
      · exact h
      · refine List.pairwise_cons.mpr ⟨?_, ih hs⟩
        intro b hb
        rcases mem_insertAddress.mp hb with rfl | hb
        · omega
        · exact hc b hb

/-- `touched ∪ [a, a + n)`. -/
theorem mem_touchRange {a n b : Nat} {s : List Nat} : b ∈ touchRange a n s ↔ (a ≤ b ∧ b < a + n) ∨ b ∈ s := by
  induction n with
  | zero =>
    simp [touchRange]
  | succ n ih =>
    rw [touchRange, mem_insertAddress, ih]
    constructor
    · rintro (h | h | h)
      · exact .inl (by omega)
      · exact .inl (by omega)
      · exact .inr h
    · rintro (h | h)
      · by_cases hb : b = a + n
        · exact .inl hb
        · exact .inr (.inl (by omega))
      · exact .inr (.inr h)

theorem touchRange_sorted {a n : Nat} {s : List Nat} (h : s.Pairwise (· < ·)) : (touchRange a n s).Pairwise (· < ·) := by
  induction n with
  | zero => exact h
  | succ n ih => exact insertAddress_sorted ih

end Sys2Proof.Machine
end

