-- ==== Sys2Proof/Laws/Ops.lean ====
section
/-! SUPPORT. For each shared operation, once, what it can do: its cases, and which fields it can change (a `_shape` lemma names
them; every other field is as before). -/

namespace Sys2Proof.Machine

/-! ### Registers and the dependency table (R33, R206 to R208) -/

/-- An entry of a table after one was set. -/
theorem vector_get_set {α : Type} {n : Nat} (v : Vector α n) (i j : Fin n) (a : α) :
    (v.set i a).get j = if i = j then a else v.get j := by
  have h := Vector.getElem_set (xs := v) (x := a) i.isLt j.isLt
  simp only [Fin.ext_iff]
  exact h

@[simp] theorem vector_get_replicate {α : Type} {n : Nat} (a : α) (j : Fin n) : (Vector.replicate n a).get j = a :=
  Vector.getElem_replicate j.isLt

@[simp] theorem readReg_zero (s : State) : readReg s 0 = 0 := rfl

theorem readReg_of_ne {s : State} {i : Reg} (h : i ≠ 0) : readReg s i = s.x.get i := if_neg h

@[simp] theorem writeReg_zero (s : State) (v : Word) : writeReg s 0 v = s := rfl

theorem writeReg_of_ne {s : State} {i : Reg} (h : i ≠ 0) (v : Word) :
    writeReg s i v = { s with x := s.x.set i v } := if_neg h

theorem writeReg_shape (s : State) (i : Reg) (v : Word) : ∃ x, writeReg s i v = { s with x := x } := by
  by_cases h : i = 0
  · exact ⟨s.x, by subst h; rfl⟩
  · exact ⟨_, writeReg_of_ne h v⟩

/-- A register reads what was written to it, unless it is `x0`; the others read as before. -/
theorem readReg_writeReg (s : State) (i j : Reg) (v : Word) :
    readReg (writeReg s i v) j = if i = j ∧ i ≠ 0 then v else readReg s j := by
  by_cases hi : i = 0
  · subst hi; simp
  · rw [writeReg_of_ne hi]
    by_cases hj : j = 0
    · subst hj; simp [hi]
    · rw [readReg_of_ne hj, readReg_of_ne hj]
      by_cases hij : i = j
      · subst hij; simp [hi, vector_get_set]
      · rw [if_neg (by tauto)]
        exact (vector_get_set _ _ _ _).trans (if_neg hij)

@[simp] theorem registerProducer_zero (s : State) (q : Nat) : registerProducer s 0 q = s := rfl

theorem registerProducer_of_ne {s : State} {rd : Reg} (h : rd ≠ 0) (q : Nat) :
    registerProducer s rd q = { s with dep := s.dep.set rd (some q) } := if_neg h

theorem registerProducer_shape (s : State) (rd : Reg) (q : Nat) :
    ∃ dep, registerProducer s rd q = { s with dep := dep } := by
  by_cases h : rd = 0
  · exact ⟨s.dep, by subst h; rfl⟩
  · exact ⟨_, registerProducer_of_ne h q⟩

/-- The entry registered, and every other as before; entry 0 is never registered (R33). -/
theorem registerProducer_dep (s : State) (rd i : Reg) (q : Nat) :
    (registerProducer s rd q).dep.get i = if rd = i ∧ rd ≠ 0 then some q else s.dep.get i := by
  by_cases h : rd = 0
  · subst h; simp
  · rw [registerProducer_of_ne h]
    by_cases hi : rd = i
    · subst hi; simp [h, vector_get_set]
    · rw [if_neg (by tauto)]
      exact (vector_get_set _ _ _ _).trans (if_neg hi)

theorem clearProducer_shape (s : State) (i : Reg) (q : Nat) :
    ∃ dep, clearProducer s i q = { s with dep := dep } := by
  unfold clearProducer
  split
  · exact ⟨_, rfl⟩
  · exact ⟨s.dep, rfl⟩

/-- The entry is cleared only if it names the record; every other is as before (R208). -/
theorem clearProducer_dep (s : State) (i j : Reg) (q : Nat) :
    (clearProducer s i q).dep.get j = if i = j ∧ s.dep.get i = some q then none else s.dep.get j := by
  unfold clearProducer
  split
  · by_cases hi : i = j
    · subst hi; simp_all [vector_get_set]
    · rw [if_neg (by tauto)]
      exact (vector_get_set _ _ _ _).trans (if_neg hi)
  · rw [if_neg (by tauto)]

theorem commitResult_shape (rd : Reg) (I : Record) (s : State) :
    ∃ x dep, commitResult rd I s = { s with x := x, dep := dep } := by
  unfold commitResult
  split
  · exact ⟨s.x, s.dep, rfl⟩
  · obtain ⟨x, hx⟩ := writeReg_shape s rd I.rdVal
    rw [hx]
    obtain ⟨dep, hd⟩ := clearProducer_shape { s with x := x } rd I.seq
    exact ⟨x, dep, hd⟩

@[simp] theorem commitResult_zero (I : Record) (s : State) : commitResult 0 I s = s := rfl

theorem commitResult_of_ne {rd : Reg} (h : rd ≠ 0) (I : Record) (s : State) :
    commitResult rd I s = clearProducer (writeReg s rd I.rdVal) rd I.seq := if_neg h

/-- What an operand can be (R206). -/
theorem operand_cases (s : State) (i : Reg) :
    (i = 0 ∧ operand s i = some 0) ∨
    (i ≠ 0 ∧ s.dep.get i = none ∧ operand s i = some (readReg s i)) ∨
    (∃ q P, i ≠ 0 ∧ s.dep.get i = some q ∧ inFlight s q = some P ∧ s.cfg.forwarding = true ∧ P.ready = true ∧
      operand s i = some P.rdVal) ∨
    (∃ q, i ≠ 0 ∧ s.dep.get i = some q ∧
      (∀ P, inFlight s q = some P → ¬ (s.cfg.forwarding = true ∧ P.ready = true)) ∧ operand s i = none) := by
  by_cases hi : i = 0
  · exact .inl ⟨hi, by simp [operand, hi]⟩
  · refine .inr ?_
    cases hd : s.dep.get i with
    | none => exact .inl ⟨hi, rfl, by simp only [operand, if_neg hi, hd]⟩
    | some q =>
      refine .inr ?_
      cases hf : inFlight s q with
      | none => exact .inr ⟨q, hi, rfl, by simp [hf], by simp only [operand, if_neg hi, hd, hf]⟩
      | some P =>
        by_cases hr : s.cfg.forwarding = true ∧ P.ready = true
        · exact .inl ⟨q, P, hi, rfl, hf, hr.1, hr.2, by simp [operand, hi, hd, hf, hr]⟩
        · refine .inr ⟨q, hi, rfl, ?_, ?_⟩
          · rintro P' hP'
            rw [hf] at hP'
            cases hP'
            exact hr
          · simp only [operand, if_neg hi, hd, hf, Bool.and_eq_true, if_neg hr]

theorem depCheck_some {s : State} {rs1 rs2 : Reg} {v : Word × Word} :
    depCheck s rs1 rs2 = some v ↔ operand s rs1 = some v.1 ∧ operand s rs2 = some v.2 := by
  unfold depCheck
  cases operand s rs1 <;> cases operand s rs2 <;> simp [Prod.ext_iff]

/-! ### Branch resolution (R211) -/

theorem resolvePrediction_shape (I : Record) (s : State) :
    ∃ p b, resolvePrediction I s = { s with pstate := p, fetchBlocked := b } := by
  unfold resolvePrediction
  split
  · exact ⟨_, s.fetchBlocked, rfl⟩
  · exact ⟨s.pstate, false, rfl⟩

/-- Resolution either keeps the pipeline and counts `correct`, or flushes it and redirects `pc` (R211). -/
theorem resolveBranch_cases (I : Record) (s : State) :
    ∃ p b,
      (I.predTarget = I.target ∧
        resolveBranch I s =
          { s with
            pstate := p
            fetchBlocked := b
            counters := { s.counters with branches := s.counters.branches + 1, correct := s.counters.correct + 1 } }) ∨
      (I.predTarget ≠ I.target ∧
        resolveBranch I s =
          { flush s with
            pstate := p
            pc := I.target
            counters := { s.counters with branches := s.counters.branches + 1, flushes := s.counters.flushes + 1 } }) := by
  obtain ⟨p, b, h⟩ :=
    resolvePrediction_shape I { s with counters := { s.counters with branches := s.counters.branches + 1 } }
  refine ⟨p, b, ?_⟩
  by_cases ht : I.predTarget = I.target
  · refine .inl ⟨ht, ?_⟩
    unfold resolveBranch
    rw [if_neg (by simpa using ht), h]
  · refine .inr ⟨ht, ?_⟩
    unfold resolveBranch
    rw [if_pos (by simpa using ht), h]
    rfl

/-! ### Fetch (R217 to R220) -/

theorem predictSpeculative_shape (i : Instr) (s : State) :
    ∃ I pc, predictSpeculative i s = { s with ifId := some I, nextSeq := s.nextSeq + 1, pc := pc } ∧
      I.seq = s.nextSeq ∧ I.instr = i ∧ I.pendingFault = none ∧ I.memIssued = false := by
  unfold predictSpeculative
  split
  · exact ⟨_, _, rfl, rfl, rfl, rfl, rfl⟩
  · exact ⟨_, _, rfl, rfl, rfl, rfl, rfl⟩

theorem fetchBranch_shape (i : Instr) (s : State) :
    ∃ I pc, fetchBranch i s = { s with
        ifId := some I
        nextSeq := s.nextSeq + 1
        pc := pc
        fetchBlocked := if s.cfg.speculation then s.fetchBlocked else true } ∧
      I.seq = s.nextSeq ∧ I.instr = i ∧ I.pendingFault = none ∧ I.memIssued = false := by
  unfold fetchBranch
  split
  · obtain ⟨I, pc, h, h1, h2, h3, h4⟩ := predictSpeculative_shape i s
    exact ⟨I, pc, by rw [h], h1, h2, h3, h4⟩
  · exact ⟨_, _, rfl, rfl, rfl, rfl, rfl⟩

/-! ### Decode (R215) -/

/-- A decode stalls and writes nothing, or moves the record with its operands and registers it (R215). -/
theorem decodeRecord_cases {rd rs1 rs2 : Reg} {s : State} {I : Record} (h : s.ifId = some I) :
    (depCheck s rs1 rs2 = none ∧ decodeRecord rd rs1 rs2 s = s) ∨
    (∃ v, depCheck s rs1 rs2 = some v ∧
      decodeRecord rd rs1 rs2 s =
        { registerProducer s rd I.seq with idEx := some (withOperands I v), ifId := none }) := by
  unfold decodeRecord
  rw [h]
  cases hd : depCheck s rs1 rs2 with
  | none => exact .inl ⟨rfl, rfl⟩
  | some v => exact .inr ⟨v, rfl, rfl⟩

theorem decodeRecord_empty {rd rs1 rs2 : Reg} {s : State} (h : s.ifId = none) : decodeRecord rd rs1 rs2 s = s := by
  unfold decodeRecord; rw [h]

theorem depCheck_zero (s : State) : depCheck s 0 0 = some (0, 0) := rfl

theorem decodeJump_some {rd : Reg} {imm : Int} {s : State} {I : Record} (h : s.ifId = some I) :
    decodeJump rd imm s =
      { registerProducer s rd I.seq with
        idEx := some { withOperands I (0, 0) with target := I.pc + byteOffset imm }
        ifId := none
        pc := I.pc + byteOffset imm } := by
  unfold decodeJump; rw [h]; rfl

theorem decodeJump_empty {rd : Reg} {imm : Int} {s : State} (h : s.ifId = none) : decodeJump rd imm s = s := by
  unfold decodeJump; rw [h]

/-! ### EX completion (R205) -/

theorem completeRecord_busy {f : Record → Record} {s : State} {I : Record} {e : Nat} (h : s.fu = .busy I e) :
    completeRecord f s = { s with fu := .done (f I) } := by
  unfold completeRecord; rw [h]

theorem completeDivision_busy {f : Record → Record} {s : State} {I : Record} {e : Nat} (h : s.fu = .busy I e) :
    completeDivision f s =
      { s with
        fu := .done (f I)
        counters :=
          { s.counters with divByZero := s.counters.divByZero + if I.rs2Val = 0 then 1 else 0 } } := by
  unfold completeDivision; rw [h]
  simp only [countDivision]
  split <;> rfl

/-- What EX completion leaves of a record: everything but the result fields (R205). -/
theorem computeSignedDivision_shape (f : Word → Word → Word) (w : Word) (p : DivOverflow) (I : Record) :
    ∃ v c, computeSignedDivision f w p I = { I with rdVal := v, ready := true, pendingFault := c } ∧
      (c = I.pendingFault ∨ (c = some .divOverflow ∧ p = .fault)) := by
  unfold computeSignedDivision
  split
  · cases p
    · exact ⟨0, _, rfl, .inr ⟨rfl, rfl⟩⟩
    · exact ⟨w, _, rfl, .inl rfl⟩
  · exact ⟨_, _, rfl, .inl rfl⟩

/-! ### MEM (R109 to R116, R213) -/

theorem passMemory_some {s : State} {I : Record} (h : s.exMem = some I) (hw : s.memWb = none) :
    passMemory s = { s with memWb := some I, exMem := none } := by
  unfold passMemory; rw [h]; simp [hw]

theorem passMemory_cases (s : State) :
    passMemory s = s ∨ ∃ I, s.exMem = some I ∧ s.memWb = none ∧ passMemory s = { s with memWb := some I, exMem := none } := by
  cases h : s.exMem with
  | none => left; unfold passMemory; rw [h]
  | some I =>
    by_cases hw : s.memWb = none
    · exact .inr ⟨I, rfl, hw, passMemory_some h hw⟩
    · left; unfold passMemory; rw [h]; simp [hw]

theorem loadBlock_cases (a : Nat) (pc : Word) (s : State) :
    ((a % s.cfg.blockBytes ≠ 0 ∨ a < s.cfg.codeBytes ∨ s.cfg.memBytes < a + s.cfg.blockBytes) ∧
      loadBlock a pc s = raiseFault .dataBounds (.access a pc) s) ∨
    (s.req.isSome = true ∧ loadBlock a pc s = raiseFault .storeBusy (.block a) s) ∨
    (a % s.cfg.blockBytes = 0 ∧ s.cfg.codeBytes ≤ a ∧ a + s.cfg.blockBytes ≤ s.cfg.memBytes ∧ s.req = none ∧
      loadBlock a pc s =
        { s with
          touched := touchRange a s.cfg.blockBytes s.touched
          req := some (a, s.tick + s.cfg.memLatency) }) := by
  unfold loadBlock
  split
  · exact .inl ⟨by assumption, rfl⟩
  · split
    · exact .inr (.inl ⟨by assumption, rfl⟩)
    · refine .inr (.inr ⟨by omega, by omega, by omega, ?_, rfl⟩)
      cases h : s.req <;> simp_all

/-- The access is misaligned, hits, or misses (R109). -/
theorem cacheAccess_cases (ap : Apply) (I : Record) (s : State) :
    (I.addr.toNat % 8 ≠ 0 ∧
      cacheAccess ap I s = raiseFault .dataMisaligned (.access I.addr.toNat I.pc) s) ∨
    (∃ way b, I.addr.toNat % 8 = 0 ∧ lookupWay s I.addr.toNat = some way ∧
      blockAt s I.addr.toNat way = some b ∧ cacheAccess ap I s = cacheHit ap I way b s) ∨
    (I.addr.toNat % 8 = 0 ∧ lookupWay s I.addr.toNat = none ∧ cacheAccess ap I s = cacheMiss I s) := by
  unfold cacheAccess
  by_cases ha : I.addr.toNat % 8 = 0
  · rw [if_neg (by simpa using ha)]
    cases hl : lookupWay s I.addr.toNat with
    | none => exact .inr (.inr ⟨ha, rfl, rfl⟩)
    | some way =>
      cases hb : blockAt s I.addr.toNat way with
      | some b => exact .inr (.inl ⟨way, b, ha, rfl, hb, by simp [hb]⟩)
      | none =>
        exfalso
        obtain ⟨h, -⟩ := List.findIdx?_eq_some_iff_getElem.mp hl
        rw [blockAt, List.getElem?_eq_getElem h] at hb
        exact absurd hb (by simp)
  · exact .inl ⟨ha, by rw [if_pos ha]⟩

/-- Way 0 is written back when it is valid and dirty, and nothing else changes (R114). -/
theorem evictVictim_cases (a : Nat) (s : State) :
    evictVictim a s = s ∨
    ∃ v, blockAt s a 0 = some v ∧ v.valid = true ∧ v.dirty = true ∧
      evictVictim a s =
        { s with
          counters := { s.counters with writebacks := s.counters.writebacks + 1 }
          mem := Memory.writeBlock s.mem (baseOfTag s.cfg v.tag (setIndexOf s.cfg a)) v.data } := by
  unfold evictVictim
  cases h : blockAt s a 0 with
  | none => exact .inl rfl
  | some v =>
    by_cases hv : (v.valid && v.dirty) = true
    · have hv' : v.valid = true ∧ v.dirty = true := by simpa using hv
      exact .inr ⟨v, rfl, hv'.1, hv'.2, by simp only [if_pos hv]⟩
    · exact .inl (by simp only [if_neg hv])

theorem evictVictim_shape (a : Nat) (s : State) :
    ∃ c m, evictVictim a s = { s with counters := c, mem := m } := by
  rcases evictVictim_cases a s with h | ⟨v, -, -, -, h⟩
  · exact ⟨s.counters, s.mem, h⟩
  · exact ⟨_, _, h⟩

theorem replay_shape (ap : Apply) (a : Nat) (b : Block) (s : State) :
    ∃ e c, replay ap a b s = { s with exMem := e, cache := c } := by
  unfold replay
  split
  · split
    · exact ⟨_, _, rfl⟩
    · exact ⟨s.exMem, s.cache, rfl⟩
  · exact ⟨s.exMem, s.cache, rfl⟩

theorem handleResponse_shape (ap : Apply) (a : Nat) (d : List Word) (s : State) :
    ∃ e ca c m, handleResponse ap a d s =
      { s with exMem := e, cache := ca, counters := c, mem := m, miss := none } := by
  obtain ⟨c, m, h⟩ := evictVictim_shape a s
  unfold handleResponse
  rw [h]
  obtain ⟨e, ca, h'⟩ :=
    replay_shape ap a (arrivedBlock { s with counters := c, mem := m } a d)
      (setBlock { s with counters := c, mem := m } a 0 (arrivedBlock { s with counters := c, mem := m } a d))
  exact ⟨e, ca, c, m, by simp only [h']; rfl⟩

/-- The backing store waits, or its response is handled (R113). -/
theorem storeRun_cases (ap : Apply) (s : State) :
    ((s.req = none ∨ ∃ a t, s.req = some (a, t) ∧ s.tick < t) ∧ storeRun ap s = s) ∨
    (∃ a t, s.req = some (a, t) ∧ t ≤ s.tick ∧
      storeRun ap s = handleResponse ap a (Memory.readBlock s.mem a (blockWords s.cfg)) { s with req := none }) := by
  unfold storeRun
  cases h : s.req with
  | none => exact .inl ⟨by simp, rfl⟩
  | some r =>
    obtain ⟨a, t⟩ := r
    by_cases ht : t ≤ s.tick
    · exact .inr ⟨a, t, rfl, ht, by simp [ht]⟩
    · exact .inl ⟨.inr ⟨a, t, rfl, by omega⟩, by simp [ht]⟩

/-! ### Writeback (R210) -/

/-- A record at writeback raises its pending fault, or retires and is resolved (R210). -/
theorem writebackRecord_cases {rd : Reg} {after : Record → State → State} {s : State} {I : Record}
    (h : s.memWb = some I) :
    (∃ c, I.pendingFault = some c ∧
      writebackRecord rd after s = raiseFault c (.atPc I.pc) { s with memWb := none }) ∨
    (I.pendingFault = none ∧
      writebackRecord rd after s = after I (retireRecord rd I { s with memWb := none })) := by
  cases hp : I.pendingFault with
  | none => exact .inr ⟨rfl, by simp only [writebackRecord, h, hp]⟩
  | some c => exact .inl ⟨c, rfl, by simp only [writebackRecord, h, hp]⟩

theorem writebackRecord_empty {rd : Reg} {after : Record → State → State} {s : State} (h : s.memWb = none) :
    writebackRecord rd after s = s := by
  unfold writebackRecord; rw [h]

theorem retireRecord_shape (rd : Reg) (I : Record) (s : State) :
    ∃ x dep, retireRecord rd I s =
      { s with x := x, dep := dep, counters := { s.counters with retired := s.counters.retired + 1 } } := by
  obtain ⟨x, dep, h⟩ := commitResult_shape rd I s
  exact ⟨x, dep, by unfold retireRecord; rw [h]⟩

end Sys2Proof.Machine
end

