-- ==== Sys2Proof/Laws/Exec.lean ====
section
/-! SUPPORT. What `exec` does, stage by stage, over all instructions at once: the five parts of a meaning are a few shared
operations, chosen by the instruction. Later proofs cite these instead of unfolding an arm. -/

namespace Sys2Proof.Machine

/-- The divisions and remainders, which count a zero divisor (R314). -/
def isDivision : Instr → Bool
  | .div _ _ _ | .divu _ _ _ | .rem _ _ _ | .remu _ _ _ => true
  | _ => false

/-- What EX completion makes of an instruction's record (R205). -/
def computeOf (policy : DivOverflow) : Instr → Record → Record
  | .add _ _ _ => computeRR fun a b => a + b
  | .sub _ _ _ => computeRR fun a b => a - b
  | .and _ _ _ => computeRR fun a b => a &&& b
  | .or _ _ _ => computeRR fun a b => a ||| b
  | .xor _ _ _ => computeRR fun a b => a ^^^ b
  | .sll _ _ _ => computeRR sllResult
  | .srl _ _ _ => computeRR srlResult
  | .sra _ _ _ => computeRR sraResult
  | .mul _ _ _ => computeRR mulResult
  | .div _ _ _ => computeSignedDivision divResult 0x8000000000000000#64 policy
  | .divu _ _ _ => computeRR divuResult
  | .rem _ _ _ => computeSignedDivision remResult 0#64 policy
  | .remu _ _ _ => computeRR remuResult
  | .addi _ _ imm => computeRI fun a => a + immValue imm
  | .andi _ _ imm => computeRI fun a => a &&& immValue imm
  | .ori _ _ imm => computeRI fun a => a ||| immValue imm
  | .xori _ _ imm => computeRI fun a => a ^^^ immValue imm
  | .slli _ _ shamt => computeRI fun a => a <<< shamt
  | .srli _ _ shamt => computeRI fun a => a >>> shamt
  | .srai _ _ shamt => computeRI fun a => a.sshiftRight shamt
  | .ld _ _ imm => computeLoadAddress imm
  | .sd _ _ imm => computeStoreAddress imm
  | .beq _ _ imm => computeBranch condEq imm
  | .bne _ _ imm => computeBranch condNe imm
  | .blt _ _ imm => computeBranch condLt imm
  | .bge _ _ imm => computeBranch condGe imm
  | .lui _ imm => setResult (upperValue imm)
  | .jal _ _ => fun I => setResult (I.pc + 4) I

/-- The part of an instruction at fetch (R217, R219, R220). -/
theorem exec_fetch {s : State} (h : s.stage = .fetch) (i : Instr) :
    exec i s = .next (if isBranch i then fetchBranch i s else fetchRecord i s) := by
  cases i <;>
    simp only [exec, execAdd, execSub, execAnd, execOr, execXor, execSll, execSrl, execSra, execMul, execDiv, execDivu,
      execRem, execRemu, execAddi, execAndi, execOri, execXori, execSlli, execSrli, execSrai, execLd, execSd, execBeq,
      execBne, execBlt, execBge, execLui, execJal, atStage, h] <;> rfl

/-- The part of an instruction at decode: the shared decode, or the jump's (R215). -/
theorem exec_decode {s : State} (h : s.stage = .decode) (i : Instr) :
    (∃ rd imm, i = .jal rd imm ∧ exec i s = .next (decodeJump rd imm s)) ∨
    ((∀ rd imm, i ≠ .jal rd imm) ∧
      exec i s = .next (decodeRecord (rdIndex i) (rs1Index i) (rs2Index i) s)) := by
  cases i
  case jal rd imm => exact .inl ⟨rd, imm, rfl, by simp only [exec, execJal, atStage, h]; rfl⟩
  all_goals
    refine .inr ⟨by simp, ?_⟩
    simp only [exec, execAdd, execSub, execAnd, execOr, execXor, execSll, execSrl, execSra, execMul, execDiv, execDivu,
      execRem, execRemu, execAddi, execAndi, execOri, execXori, execSlli, execSrli, execSrai, execLd, execSd, execBeq,
      execBne, execBlt, execBge, execLui, atStage, h]
    rfl

/-- The part of an instruction at EX completion (R205). -/
theorem exec_execute {s : State} (h : s.stage = .execute) (i : Instr) :
    exec i s =
      .next (if isDivision i then completeDivision (computeOf s.cfg.divOverflow i) s
        else completeRecord (computeOf s.cfg.divOverflow i) s) := by
  cases i <;>
    simp only [exec, execAdd, execSub, execAnd, execOr, execXor, execSll, execSrl, execSra, execMul, execDiv, execDivu,
      execRem, execRemu, execAddi, execAndi, execOri, execXori, execSlli, execSrli, execSrai, execLd, execSd, execBeq,
      execBne, execBlt, execBge, execLui, execJal, atStage, h] <;> rfl

/-- The part of an instruction at MEM: the access of `LD` or of `SD`, or the pass of the others (R213). -/
theorem exec_memory {s : State} (h : s.stage = .memory) (i : Instr) :
    (∃ rd rs1 imm, i = .ld rd rs1 imm ∧ exec i s = .next (accessMemory applyLoad s)) ∨
    (∃ rs1 rs2 imm, i = .sd rs1 rs2 imm ∧ exec i s = .next (accessMemory applyStore s)) ∨
    (isMemory i = false ∧ exec i s = .next (passMemory s)) := by
  cases i
  case ld rd rs1 imm => exact .inl ⟨rd, rs1, imm, rfl, by simp only [exec, execLd, atStage, h]; rfl⟩
  case sd rs1 rs2 imm => exact .inr (.inl ⟨rs1, rs2, imm, rfl, by simp only [exec, execSd, atStage, h]; rfl⟩)
  all_goals
    refine .inr (.inr ⟨rfl, ?_⟩)
    simp only [exec, execAdd, execSub, execAnd, execOr, execXor, execSll, execSrl, execSra, execMul, execDiv, execDivu,
      execRem, execRemu, execAddi, execAndi, execOri, execXori, execSlli, execSrli, execSrai, execBeq,
      execBne, execBlt, execBge, execLui, execJal, atStage, h]
    rfl

/-- The part of an instruction at writeback (R210). -/
theorem exec_writeback {s : State} (h : s.stage = .writeback) (i : Instr) :
    exec i s = .next (writebackRecord (rdIndex i) (if isBranch i then resolveBranch else noResolve) s) := by
  cases i <;>
    simp only [exec, execAdd, execSub, execAnd, execOr, execXor, execSll, execSrl, execSra, execMul, execDiv, execDivu,
      execRem, execRemu, execAddi, execAndi, execOri, execXori, execSlli, execSrli, execSrai, execLd, execSd, execBeq,
      execBne, execBlt, execBge, execLui, execJal, atStage, h] <;> rfl

/-- What EX completion leaves of a record, whatever the instruction: its identity, its operands and its memory mark; a pending
fault is the old one or the overflow of a `DIV` or `REM` under the `fault` policy (R205, R315). -/
theorem computeOf_keeps (policy : DivOverflow) (i : Instr) (I : Record) :
    (computeOf policy i I).seq = I.seq ∧ (computeOf policy i I).pc = I.pc ∧ (computeOf policy i I).instr = I.instr ∧
    (computeOf policy i I).memIssued = I.memIssued ∧
    ((computeOf policy i I).pendingFault = I.pendingFault ∨
      ((computeOf policy i I).pendingFault = some .divOverflow ∧ policy = .fault ∧
        (opOf i = .div ∨ opOf i = .rem))) := by
  cases i
  case div rd rs1 rs2 =>
    obtain ⟨v, c, h, hc⟩ := computeSignedDivision_shape divResult 0x8000000000000000#64 policy I
    rw [show computeOf policy (.div rd rs1 rs2) I = _ from h]
    refine ⟨rfl, rfl, rfl, rfl, ?_⟩
    rcases hc with hc | ⟨hc, hp⟩
    · exact .inl hc
    · exact .inr ⟨hc, hp, .inl rfl⟩
  case rem rd rs1 rs2 =>
    obtain ⟨v, c, h, hc⟩ := computeSignedDivision_shape remResult 0#64 policy I
    rw [show computeOf policy (.rem rd rs1 rs2) I = _ from h]
    refine ⟨rfl, rfl, rfl, rfl, ?_⟩
    rcases hc with hc | ⟨hc, hp⟩
    · exact .inl hc
    · exact .inr ⟨hc, hp, .inr rfl⟩
  all_goals exact ⟨rfl, rfl, rfl, rfl, .inl rfl⟩

/-- EX completion writes only the record in the functional unit, which becomes done, and the `div_by_zero` counter (R205). -/
theorem exec_execute_shape {s : State} (h : s.stage = .execute) (i : Instr) {I : Record} {e : Nat}
    (hf : s.fu = .busy I e) :
    ∃ n, exec i s = .next { s with
      fu := .done (computeOf s.cfg.divOverflow i I)
      counters := { s.counters with divByZero := n } } := by
  rw [exec_execute h]
  cases isDivision i
  · refine ⟨s.counters.divByZero, ?_⟩
    rw [if_neg (by simp), completeRecord_busy hf]
  · rw [if_pos rfl, completeDivision_busy hf]
    exact ⟨_, rfl⟩

end Sys2Proof.Machine
end

