-- ==== Sys2Proof/Laws/Launch.lean ====
section
/-! SUPPORT. What the check of a `REG_INIT` entry can answer (spec/70_reset_and_hazards.md R602), and what the report lists
(spec/40_pipeline.md R203, spec/20_memory.md R119). -/

namespace Sys2Proof.Machine

/-! ### `REG_INIT` (R602) -/

theorem validValue_iff (n : Int) : validValue n = true ↔ ValueInRange n := by
  unfold validValue ValueInRange
  rw [decide_eq_true_iff]
  norm_num

/-- The check accepts exactly the valid entries, with the register of the key and the value modulo `2^64`. -/
theorem checkRegEntry_eq_some (seen : List Int) (i : Int) (v : Option Int) (r : Reg) (w : Word) :
    checkRegEntry seen i v = some (r, w) ↔
      i = r.val ∧ i ∉ seen ∧ ∃ n, v = some n ∧ ValueInRange n ∧ w = BitVec.ofInt 64 n := by
  have hr : registerOfKey i = some r ↔ i = r.val := by
    unfold registerOfKey
    have := r.isLt
    split
    · rw [Option.some.injEq, Fin.ext_iff]
      show i.toNat = r.val ↔ i = r.val
      omega
    · simp only [reduceCtorEq, false_iff]
      omega
  unfold checkRegEntry
  cases h : registerOfKey i with
  | none =>
    have : i ≠ r.val := fun e => by simp [hr.mpr e] at h
    simp [this]
  | some q =>
    rw [h, Option.some.injEq] at hr
    cases v with
    | none => simp
    | some n =>
      have hc : (validValue n && !seen.contains i) = true ↔ ValueInRange n ∧ i ∉ seen := by
        simp [validValue_iff]
      by_cases hv : ValueInRange n ∧ i ∉ seen
      · simp only [if_pos (hc.mpr hv), Option.some.injEq, exists_eq_left', Prod.mk.injEq, hr]
        exact ⟨fun e => ⟨e.1, hv.2, hv.1, e.2.symm⟩, fun e => ⟨e.1, e.2.2.2.symm⟩⟩
      · simp only [if_neg (mt hc.mp hv), Option.some.injEq, exists_eq_left', reduceCtorEq, false_iff]
        exact fun e => hv ⟨e.2.2.1, e.2.1⟩

/-! ### The report (R203) -/

theorem mem_dataAddresses (cfg : Config) (a : Nat) :
    a ∈ dataAddresses cfg ↔ a % 8 = 0 ∧ cfg.codeBytes ≤ a ∧ a < cfg.memBytes := by
  simp [dataAddresses]
  omega

theorem mem_memoryImage (s : State) (a : Nat) (v : Word) :
    (a, v) ∈ memoryImage s ↔ a % 8 = 0 ∧ s.cfg.codeBytes ≤ a ∧ a < s.cfg.memBytes ∧ v = coherent s a := by
  unfold memoryImage
  rw [List.mem_map]
  refine ⟨?_, ?_⟩
  · rintro ⟨b, hb, e⟩
    obtain ⟨rfl, rfl⟩ := Prod.mk.inj e
    obtain ⟨h1, h2, h3⟩ := (mem_dataAddresses _ _).mp hb
    exact ⟨h1, h2, h3, rfl⟩
  · rintro ⟨h1, h2, h3, rfl⟩
    exact ⟨a, (mem_dataAddresses _ _).mpr ⟨h1, h2, h3⟩, rfl⟩

theorem memoryImage_sorted (s : State) : (memoryImage s).Pairwise (fun p q => p.1 < q.1) :=
  List.pairwise_map.mpr (List.pairwise_lt_range.filter _)

end Sys2Proof.Machine
end

