-- ==== Sys2Proof/Laws/PerInstr.lean ====
section
/-! SUPPORT. A statement about every instruction as syntax, one lemma per constructor: the launch accepts the record of a
well-formed instruction as that instruction (spec/30_encoding.md R161, spec/70_reset_and_hazards.md R600). -/

namespace Sys2Proof.Laws.recordAccepted

open Sys2Proof.Machine

/-- The record of `i` passes the launch check as `i`, if `i` is well-formed. -/
def Statement (i : Instr) : Prop := i.WellFormed → checkRecord (rawOfInstr i) = .ok i

theorem accepted {i : Instr} (h : i.WellFormed)
    (hf : instrOfFields (opOf i) (rdIndex i) (rs1Index i) (rs2Index i) (immIndex i) = i) :
    checkRecord (rawOfInstr i) = .ok i := by
  have hb : (rdIndex i).val < 32 ∧ (rs1Index i).val < 32 ∧ (rs2Index i).val < 32 :=
    ⟨(rdIndex i).isLt, (rs1Index i).isLt, (rs2Index i).isLt⟩
  have hw : wellFormedInstr (opOf i) (rawOfInstr i) = some i := by
    simp only [wellFormedInstr, rawOfInstr, dif_pos hb, Fin.eta, hf]
    rw [if_pos]
    simpa using h
  simp only [checkRecord]
  rw [show (rawOfInstr i).op = .known (opOf i) from rfl]
  simp only [hw]

theorem add (rd rs1 rs2 : Reg) : Statement (.add rd rs1 rs2) := fun h => accepted h rfl
theorem sub (rd rs1 rs2 : Reg) : Statement (.sub rd rs1 rs2) := fun h => accepted h rfl
theorem and (rd rs1 rs2 : Reg) : Statement (.and rd rs1 rs2) := fun h => accepted h rfl
theorem or (rd rs1 rs2 : Reg) : Statement (.or rd rs1 rs2) := fun h => accepted h rfl
theorem xor (rd rs1 rs2 : Reg) : Statement (.xor rd rs1 rs2) := fun h => accepted h rfl
theorem sll (rd rs1 rs2 : Reg) : Statement (.sll rd rs1 rs2) := fun h => accepted h rfl
theorem srl (rd rs1 rs2 : Reg) : Statement (.srl rd rs1 rs2) := fun h => accepted h rfl
theorem sra (rd rs1 rs2 : Reg) : Statement (.sra rd rs1 rs2) := fun h => accepted h rfl
theorem mul (rd rs1 rs2 : Reg) : Statement (.mul rd rs1 rs2) := fun h => accepted h rfl
theorem div (rd rs1 rs2 : Reg) : Statement (.div rd rs1 rs2) := fun h => accepted h rfl
theorem divu (rd rs1 rs2 : Reg) : Statement (.divu rd rs1 rs2) := fun h => accepted h rfl
theorem rem (rd rs1 rs2 : Reg) : Statement (.rem rd rs1 rs2) := fun h => accepted h rfl
theorem remu (rd rs1 rs2 : Reg) : Statement (.remu rd rs1 rs2) := fun h => accepted h rfl
theorem addi (rd rs1 : Reg) (imm : Int) : Statement (.addi rd rs1 imm) := fun h => accepted h rfl
theorem andi (rd rs1 : Reg) (imm : Int) : Statement (.andi rd rs1 imm) := fun h => accepted h rfl
theorem ori (rd rs1 : Reg) (imm : Int) : Statement (.ori rd rs1 imm) := fun h => accepted h rfl
theorem xori (rd rs1 : Reg) (imm : Int) : Statement (.xori rd rs1 imm) := fun h => accepted h rfl
theorem slli (rd rs1 : Reg) (shamt : Nat) : Statement (.slli rd rs1 shamt) := fun h => accepted h rfl
theorem srli (rd rs1 : Reg) (shamt : Nat) : Statement (.srli rd rs1 shamt) := fun h => accepted h rfl
theorem srai (rd rs1 : Reg) (shamt : Nat) : Statement (.srai rd rs1 shamt) := fun h => accepted h rfl
theorem ld (rd rs1 : Reg) (imm : Int) : Statement (.ld rd rs1 imm) := fun h => accepted h rfl
theorem sd (rs1 rs2 : Reg) (imm : Int) : Statement (.sd rs1 rs2 imm) := fun h => accepted h rfl
theorem beq (rs1 rs2 : Reg) (imm : Int) : Statement (.beq rs1 rs2 imm) := fun h => accepted h rfl
theorem bne (rs1 rs2 : Reg) (imm : Int) : Statement (.bne rs1 rs2 imm) := fun h => accepted h rfl
theorem blt (rs1 rs2 : Reg) (imm : Int) : Statement (.blt rs1 rs2 imm) := fun h => accepted h rfl
theorem bge (rs1 rs2 : Reg) (imm : Int) : Statement (.bge rs1 rs2 imm) := fun h => accepted h rfl
theorem lui (rd : Reg) (imm : Int) : Statement (.lui rd imm) := fun h => accepted h rfl
theorem jal (rd : Reg) (imm : Int) : Statement (.jal rd imm) := fun h => accepted h rfl

end Sys2Proof.Laws.recordAccepted
end

