-- ==== Sys2Proof/Laws/Pipeline.lean ====
section
/-! SUPPORT. What a cycle and a step can do, said once: the run loop's cases, the cycle as a chain of stages, and each stage as
`exec` of the record in its place. -/

namespace Sys2Proof.Machine

/-- Sequencing inside a cycle (R200): the first part ran on and the second followed, or a fault stopped the cycle. -/
theorem andThen_next {o : Host.Outcome State Fault Refusal} {f : State → Host.Outcome State Fault Refusal} {t : State}
    (h : andThen o f = .next t) :
    (∃ s, o = .next s ∧ s.status = .running ∧ f s = .next t) ∨ (o = .next t ∧ t.status ≠ .running) := by
  cases o with
  | next s =>
    by_cases hs : s.status = .running
    · simp only [andThen, if_pos hs] at h
      exact .inl ⟨s, rfl, hs, h⟩
    · simp only [andThen, if_neg hs, Host.Outcome.next.injEq] at h
      subst h
      exact .inr ⟨rfl, hs⟩
  | fault r => simp [andThen] at h
  | refused r => simp [andThen] at h

@[simp] theorem andThen_running {s : State} {f : State → Host.Outcome State Fault Refusal} (h : s.status = .running) :
    andThen (.next s) f = f s := by simp [andThen, h]

theorem andThen_stopped {s : State} {f : State → Host.Outcome State Fault Refusal} (h : s.status ≠ .running) :
    andThen (.next s) f = .next s := by simp [andThen, h]

/-- A step of a running block whose run continues is a cycle; otherwise it drains, stays drained, or answers with its fault
(R53, R202). -/
theorem step_cases (s : State) :
    (s.status = .running ∧ continues s = true ∧ step s = cycle s) ∨
    (s.status = .running ∧ continues s = false ∧ step s = .next { s with status := .drained }) ∨
    (s.status = .drained ∧ step s = .next s) ∨
    (∃ c info, s.status = .faulted c info ∧ step s = .fault (faultOf c info)) := by
  cases h : s.status with
  | running =>
    cases hc : continues s
    · exact .inr (.inl ⟨rfl, rfl, by simp [step, runLoop, h, hc]⟩)
    · exact .inl ⟨rfl, rfl, by simp [step, runLoop, h, hc]⟩
  | drained => exact .inr (.inr (.inl ⟨rfl, by simp [step, runLoop, h]⟩))
  | faulted c info => exact .inr (.inr (.inr ⟨c, info, rfl, by simp [step, runLoop, h]⟩))

/-- A cycle that runs to its end is five stages and the tick; one that a fault stops ends where the fault was raised
(R200). -/
theorem cycle_cases {s t : State} (h : cycle s = .next t) :
    (∃ w m e d f, writebackStage s = .next w ∧ w.status = .running ∧ memoryStage w = .next m ∧ m.status = .running ∧
      executeStage m = .next e ∧ e.status = .running ∧ decodeStage e = .next d ∧ d.status = .running ∧
      fetchStage d = .next f ∧ f.status = .running ∧ t = tickOver f) ∨
    (t.status ≠ .running ∧
      (writebackStage s = .next t ∨
        (∃ w, writebackStage s = .next w ∧ w.status = .running ∧
          (memoryStage w = .next t ∨
            (∃ m, memoryStage w = .next m ∧ m.status = .running ∧
              (executeStage m = .next t ∨
                (∃ e, executeStage m = .next e ∧ e.status = .running ∧
                  (decodeStage e = .next t ∨
                    (∃ d, decodeStage e = .next d ∧ d.status = .running ∧ fetchStage d = .next t))))))))) := by
  unfold cycle backStages at h
  rcases andThen_next h with ⟨f, hf, hfr, ht⟩ | ⟨hf, htr⟩
  · rcases andThen_next hf with ⟨d, hd, hdr, hfd⟩ | ⟨-, hn⟩
    · rcases andThen_next hd with ⟨e, he, her, hde⟩ | ⟨-, hn⟩
      · rcases andThen_next he with ⟨m, hm, hmr, hem⟩ | ⟨-, hn⟩
        · rcases andThen_next hm with ⟨w, hw, hwr, hmw⟩ | ⟨-, hn⟩
          · simp only [Host.Outcome.next.injEq] at ht
            exact .inl ⟨w, m, e, d, f, hw, hwr, hmw, hmr, hem, her, hde, hdr, hfd, hfr, ht.symm⟩
          · exact absurd hmr hn
        · exact absurd her hn
      · exact absurd hdr hn
    · exact absurd hfr hn
  · refine .inr ⟨htr, ?_⟩
    rcases andThen_next hf with ⟨d, hd, hdr, hfd⟩ | ⟨hd, -⟩
    · rcases andThen_next hd with ⟨e, he, her, hde⟩ | ⟨-, hn⟩
      · rcases andThen_next he with ⟨m, hm, hmr, hem⟩ | ⟨-, hn⟩
        · rcases andThen_next hm with ⟨w, hw, hwr, hmw⟩ | ⟨-, hn⟩
          · exact .inr ⟨w, hw, hwr, .inr ⟨m, hmw, hmr, .inr ⟨e, hem, her, .inr ⟨d, hde, hdr, hfd⟩⟩⟩⟩
          · exact absurd hmr hn
        · exact absurd her hn
      · exact absurd hdr hn
    · rcases andThen_next hd with ⟨e, he, her, hde⟩ | ⟨he, -⟩
      · rcases andThen_next he with ⟨m, hm, hmr, hem⟩ | ⟨-, hn⟩
        · rcases andThen_next hm with ⟨w, hw, hwr, hmw⟩ | ⟨-, hn⟩
          · exact .inr ⟨w, hw, hwr, .inr ⟨m, hmw, hmr, .inr ⟨e, hem, her, .inl hde⟩⟩⟩
          · exact absurd hmr hn
        · exact absurd her hn
      · rcases andThen_next he with ⟨m, hm, hmr, hem⟩ | ⟨hm, -⟩
        · rcases andThen_next hm with ⟨w, hw, hwr, hmw⟩ | ⟨-, hn⟩
          · exact .inr ⟨w, hw, hwr, .inr ⟨m, hmw, hmr, .inl hem⟩⟩
          · exact absurd hmr hn
        · rcases andThen_next hm with ⟨w, hw, hwr, hmw⟩ | ⟨hw, -⟩
          · exact .inr ⟨w, hw, hwr, .inl hmw⟩
          · exact .inl hw

/-! ### Each stage (R210, R213 to R217) -/

theorem writebackStage_cases (s : State) :
    (s.memWb = none ∧ writebackStage s = .next (enterStage .writeback s)) ∨
    (∃ I, s.memWb = some I ∧ writebackStage s =
      .next (writebackRecord (rdIndex I.instr) (if isBranch I.instr then resolveBranch else noResolve)
        (enterStage .writeback s))) := by
  unfold writebackStage
  cases h : s.memWb with
  | none => exact .inl ⟨rfl, rfl⟩
  | some I => exact .inr ⟨I, rfl, exec_writeback rfl _⟩

theorem memoryStage_cases (s : State) :
    (s.exMem = none ∧ memoryStage s = .next (enterStage .memory s)) ∨
    (∃ I, s.exMem = some I ∧ isMemory I.instr = false ∧ memoryStage s = .next (passMemory (enterStage .memory s))) ∨
    (∃ I ap, s.exMem = some I ∧ isMemory I.instr = true ∧
      ((∃ rd rs1 imm, I.instr = .ld rd rs1 imm ∧ ap = applyLoad) ∨
        (∃ rs1 rs2 imm, I.instr = .sd rs1 rs2 imm ∧ ap = applyStore)) ∧
      memoryStage s = .next (accessMemory ap (enterStage .memory s))) := by
  unfold memoryStage
  cases h : s.exMem with
  | none => exact .inl ⟨rfl, rfl⟩
  | some I =>
    refine .inr ?_
    rcases exec_memory (s := enterStage .memory s) rfl I.instr with
      ⟨rd, rs1, imm, hi, he⟩ | ⟨rs1, rs2, imm, hi, he⟩ | ⟨hm, he⟩
    · exact .inr ⟨I, applyLoad, rfl, by rw [hi]; rfl, .inl ⟨rd, rs1, imm, hi, rfl⟩, he⟩
    · exact .inr ⟨I, applyStore, rfl, by rw [hi]; rfl, .inr ⟨rs1, rs2, imm, hi, rfl⟩, he⟩
    · exact .inl ⟨I, rfl, hm, he⟩

theorem drainUnit_cases (s : State) :
    drainUnit s = s ∨
    ∃ I, s.fu = .done I ∧ s.exMem = none ∧ drainUnit s = { s with exMem := some I, fu := .idle } := by
  unfold drainUnit
  cases s.fu with
  | done I =>
    by_cases h : s.exMem = none
    · exact .inr ⟨I, rfl, h, by simp [h]⟩
    · exact .inl (by simp [h])
  | busy I e => exact .inl rfl
  | idle => exact .inl rfl

theorem feedUnit_cases (s : State) :
    feedUnit s = s ∨
    ∃ I, s.fu = .idle ∧ s.idEx = some I ∧
      feedUnit s = { s with idEx := none, fu := .busy I (s.tick + max 1 I.latency) } := by
  unfold feedUnit
  cases s.fu with
  | done I => exact .inl rfl
  | busy I e => exact .inl rfl
  | idle =>
    cases s.idEx with
    | none => exact .inl rfl
    | some I => exact .inr ⟨I, rfl, rfl, rfl⟩

/-- Completion does nothing, or completes the record that is due (R204, R205). -/
theorem completeStage_cases (s : State) :
    completeStage s = .next (enterStage .execute s) ∨
    ∃ I e n, s.fu = .busy I e ∧ e ≤ s.tick ∧
      completeStage s = .next { enterStage .execute s with
        fu := .done (computeOf s.cfg.divOverflow I.instr I)
        counters := { s.counters with divByZero := n } } := by
  unfold completeStage
  cases h : s.fu with
  | idle => exact .inl rfl
  | done I => exact .inl rfl
  | busy I e =>
    by_cases he : e ≤ s.tick
    · obtain ⟨n, hn⟩ := exec_execute_shape (s := enterStage .execute s) rfl I.instr (I := I) (e := e) h
      exact .inr ⟨I, e, n, rfl, he, by simp only [if_pos he]; exact hn⟩
    · exact .inl (by simp only [if_neg he])

/-- The stages of EX, in a running block (R214). -/
theorem executeStage_running {s : State} (h : s.status = .running) :
    ∃ c, completeStage s = .next c ∧ c.status = .running ∧ executeStage s = .next (feedUnit (drainUnit c)) := by
  rcases completeStage_cases s with hc | ⟨I, e, n, -, -, hc⟩
  · exact ⟨_, hc, h, by rw [executeStage, hc, andThen_running (by simpa using h)]⟩
  · exact ⟨_, hc, h, by rw [executeStage, hc, andThen_running (by simpa using h)]⟩

theorem decodeStage_cases (s : State) :
    decodeStage s = .next (enterStage .decode s) ∨
    (∃ I rd imm, s.ifId = some I ∧ s.idEx = none ∧ I.instr = .jal rd imm ∧
      decodeStage s = .next (decodeJump rd imm (enterStage .decode s))) ∨
    (∃ I, s.ifId = some I ∧ s.idEx = none ∧ (∀ rd imm, I.instr ≠ .jal rd imm) ∧
      decodeStage s = .next
        (decodeRecord (rdIndex I.instr) (rs1Index I.instr) (rs2Index I.instr) (enterStage .decode s))) := by
  unfold decodeStage
  cases h : s.ifId with
  | none => exact .inl rfl
  | some I =>
    by_cases hd : s.idEx = none
    · refine .inr ?_
      rcases exec_decode (s := enterStage .decode s) rfl I.instr with ⟨rd, imm, hi, he⟩ | ⟨hi, he⟩
      · exact .inl ⟨I, rd, imm, rfl, hd, hi, by simp only [if_pos hd, he]⟩
      · exact .inr ⟨I, rfl, hd, hi, by simp only [if_pos hd, he]⟩
    · exact .inl (by simp only [if_neg hd])

/-- Fetch counts a stall, waits, faults, finds no instruction, or takes one in (R217). -/
theorem fetchStage_cases (s : State) :
    (s.ifId.isSome = true ∧ fetchStage s =
      .next { enterStage .fetch s with counters := { s.counters with stalls := s.counters.stalls + 1 } }) ∨
    (s.ifId = none ∧ (s.fetchBlocked = true ∨ (fetchable s.pc = true ∧ readProgram s.program s.pc = none)) ∧
      fetchStage s = .next (enterStage .fetch s)) ∨
    (s.ifId = none ∧ s.fetchBlocked = false ∧ fetchable s.pc = false ∧
      fetchStage s = .next (fetchInvalid (enterStage .fetch s))) ∨
    (∃ i, s.ifId = none ∧ s.fetchBlocked = false ∧ fetchable s.pc = true ∧ readProgram s.program s.pc = some i ∧
      fetchStage s = exec i (enterStage .fetch s)) := by
  unfold fetchStage
  cases hi : s.ifId with
  | some I => exact .inl ⟨rfl, by simp [hi]⟩
  | none =>
    refine .inr ?_
    cases hb : s.fetchBlocked
    · cases hf : fetchable s.pc
      · exact .inr (.inl ⟨rfl, rfl, rfl, by simp [hi, hb, hf]⟩)
      · cases hr : readProgram s.program s.pc with
        | none => exact .inl ⟨rfl, .inr ⟨rfl, rfl⟩, by simp [hi, hb, hf, hr]⟩
        | some i => exact .inr (.inr ⟨i, rfl, rfl, rfl, rfl, by simp [hi, hb, hf, hr]⟩)
    · exact .inl ⟨rfl, .inl rfl, by simp [hi, hb]⟩

/-- Fetch at an invalid address waits for older records, then faults (R217, R507, R508). -/
theorem fetchInvalid_cases (s : State) :
    (noOlderRecord s = false ∧ fetchInvalid s = s) ∨
    (noOlderRecord s = true ∧ fetchInvalid s =
      raiseFault (if s.pc = 0 then .fetchPcZero else .fetchMisaligned) (.atPc s.pc) s) := by
  unfold fetchInvalid
  cases h : noOlderRecord s
  · exact .inl ⟨rfl, by simp⟩
  · exact .inr ⟨rfl, by simp⟩

/-- The access was issued before, or is issued now with the record marked (R213). -/
theorem issueAccess_cases (ap : Apply) (I : Record) (s : State) :
    (I.memIssued = true ∧ issueAccess ap I s = s) ∨
    (I.memIssued = false ∧ issueAccess ap I s =
      cacheAccess ap { I with memIssued := true } { s with exMem := some { I with memIssued := true } }) := by
  unfold issueAccess
  cases h : I.memIssued
  · exact .inr ⟨rfl, by simp⟩
  · exact .inl ⟨rfl, by simp⟩

end Sys2Proof.Machine
end

