-- ==== Sys2Proof/Tests/Slice0.lean ====
section
/-! SUPPORT. Tests on fixed values: the well-formedness checks, the decoding of words written out from the encodings of spec/30_encoding.md, one or
two results per instruction taken from the spec's worked examples (spec/41 to 45, spec/95_test_vectors.md), the launch, and for every statement
with hypotheses a witness that meets them (`witness_…`). -/

namespace Sys2Proof.Tests

open Sys2Proof.Machine

/-! ### Well-formedness (R161): an ill-formed term for each check -/

theorem test_imm12_too_large : (Instr.addi 1 0 2048).wellFormed = false := by decide
theorem test_imm12_too_small : (Instr.ld 1 0 (-2049)).wellFormed = false := by decide
theorem test_store_imm_too_large : (Instr.sd 1 2 2048).wellFormed = false := by decide
theorem test_branch_imm_too_small : (Instr.beq 1 2 (-2049)).wellFormed = false := by decide
theorem test_imm20_too_large : (Instr.lui 1 524288).wellFormed = false := by decide
theorem test_jump_imm_too_small : (Instr.jal 1 (-524289)).wellFormed = false := by decide
theorem test_shamt_too_large : (Instr.slli 1 1 64).wellFormed = false := by decide

/-! ### Decoding (R170 to R173), words of the spec's vectors V-X -/

theorem test_decode_add : decodeTableWord 32 0x002081b3 = some (.add 3 1 2) := by decide
theorem test_decode_sub : decodeTableWord 32 0x402081b3 = some (.sub 3 1 2) := by decide
theorem test_decode_and : decodeTableWord 32 0x007372b3 = some (.and 5 6 7) := by decide
theorem test_decode_or : decodeTableWord 32 0x007362b3 = some (.or 5 6 7) := by decide
theorem test_decode_xor : decodeTableWord 32 0x007342b3 = some (.xor 5 6 7) := by decide
theorem test_decode_sll : decodeTableWord 32 0x00a49433 = some (.sll 8 9 10) := by decide
theorem test_decode_srl : decodeTableWord 32 0x00a4d433 = some (.srl 8 9 10) := by decide
theorem test_decode_sra : decodeTableWord 32 0x40a4d433 = some (.sra 8 9 10) := by decide
theorem test_decode_mul : decodeTableWord 32 0x02d605b3 = some (.mul 11 12 13) := by decide
theorem test_decode_div : decodeTableWord 32 0x02d645b3 = some (.div 11 12 13) := by decide
theorem test_decode_divu : decodeTableWord 32 0x02d655b3 = some (.divu 11 12 13) := by decide
theorem test_decode_rem : decodeTableWord 32 0x02d665b3 = some (.rem 11 12 13) := by decide
theorem test_decode_remu : decodeTableWord 32 0x02d675b3 = some (.remu 11 12 13) := by decide
theorem test_decode_addi : decodeTableWord 32 0xfff08093 = some (.addi 1 1 (-1)) := by decide
theorem test_decode_andi : decodeTableWord 32 0x8000f113 = some (.andi 2 1 (-2048)) := by decide
theorem test_decode_ori : decodeTableWord 32 0x7ff0e113 = some (.ori 2 1 2047) := by decide
theorem test_decode_xori : decodeTableWord 32 0xfff0c113 = some (.xori 2 1 (-1)) := by decide
theorem test_decode_slli : decodeTableWord 32 0x00329293 = some (.slli 5 5 3) := by decide
theorem test_decode_srli : decodeTableWord 32 0x03f0d113 = some (.srli 2 1 63) := by decide
theorem test_decode_srai : decodeTableWord 32 0x43f0d113 = some (.srai 2 1 63) := by decide
theorem test_decode_ld : decodeTableWord 32 0xff813203 = some (.ld 4 2 (-8)) := by decide
theorem test_decode_sd : decodeTableWord 32 0x10303023 = some (.sd 0 3 256) := by decide
theorem test_decode_beq : decodeTableWord 32 0xfe208ce3 = some (.beq 1 2 (-4)) := by decide
theorem test_decode_bne : decodeTableWord 32 0xfe009ee3 = some (.bne 1 0 (-2)) := by decide
theorem test_decode_blt : decodeTableWord 32 0x0020c863 = some (.blt 1 2 8) := by decide
theorem test_decode_bge : decodeTableWord 32 0x8020d063 = some (.bge 1 2 (-2048)) := by decide
theorem test_decode_lui : decodeTableWord 32 0xfffff337 = some (.lui 6 (-1)) := by decide
theorem test_decode_jal : decodeTableWord 32 0x8000006f = some (.jal 0 (-524288)) := by decide

/-- SLT, JALR, ECALL, FENCE, MULH's neighbour and the two constant words are refused (R173). -/
theorem test_decode_refused :
    ([0, 0xffffffff, 0x0020a1b3, 0x00008067, 0x73, 0x100f, 0x02009033] : List InstrWord).all
      (fun w => decide (decodeWord w = .error (.encoding w))) = true := by decide

/-- A fifth byte is no part of an instruction (R175). -/
theorem test_decode_four_bytes :
    decodeBytes [0xb3, 0x81, 0x20, 0x00, 0x55] = .ok (.add 3 1 2, [0x55]) := by decide

/-! ### Small states -/

/-- A record of an instruction with its operands resolved. -/
def sampleRecord (i : Instr) (pc a b : Word) : Record where
  seq := 0
  pc := pc
  instr := i
  rs1Val := a
  rs2Val := b
  rdVal := 0
  addr := 0
  target := 0
  taken := false
  predTarget := pc + 4
  predTaken := false
  ready := false
  latency := 1
  memIssued := false
  pendingFault := none

/-- The record at the functional unit's completion. -/
def executing (i : Instr) (pc a b : Word) : State :=
  { State.reset with stage := .execute, tick := 3, nextSeq := 1, fu := .busy (sampleRecord i pc a b) 3 }

/-- The record that one completion leaves. -/
def completed (i : Instr) (pc a b : Word) : Option Record :=
  match exec i (executing i pc a b) with
  | .next s => FuState.record? s.fu
  | _ => none

/-- The result that one completion leaves. -/
def computed (i : Instr) (a b : Word) : Option Word := (completed i 4 a b).map (·.rdVal)

/-- Direction and target that one completion leaves. -/
def resolved (i : Instr) (pc a b : Word) : Option (Bool × Word) := (completed i pc a b).map fun I => (I.taken, I.target)

/-! ### Results at EX completion -/

theorem test_add : computed (.add 3 1 2) 5 7 = some 12 := by decide
theorem test_add_wraps : computed (.add 3 1 2) 0xffffffffffffffff 1 = some 0 := by decide
theorem test_sub : computed (.sub 3 1 2) 5 7 = some 0xfffffffffffffffe := by decide
theorem test_sub_wraps : computed (.sub 3 1 2) 0x8000000000000000 1 = some 0x7fffffffffffffff := by decide
theorem test_and : computed (.and 3 1 2) 0xff00ff00 0x0ff00ff0 = some 0x0f000f00 := by decide
theorem test_or : computed (.or 3 1 2) 0xf0 0x0f = some 0xff := by decide
theorem test_xor : computed (.xor 3 1 2) 0xffffffffffffffff 5 = some (-6) := by decide
theorem test_sll_masks : computed (.sll 3 1 2) 3 65 = some 6 := by decide
theorem test_srl_masks : computed (.srl 3 1 2) (-16) 64 = some (-16) := by decide
theorem test_srl : computed (.srl 3 1 2) 0xffffffffffffffff 60 = some 0xf := by decide
theorem test_sra : computed (.sra 3 1 2) (-16) 2 = some (-4) := by decide
theorem test_sra_sign : computed (.sra 3 1 2) 0x8000000000000000 63 = some 0xffffffffffffffff := by decide
theorem test_mul : computed (.mul 3 1 2) (-3) 5 = some 0xfffffffffffffff1 := by decide
theorem test_mul_low : computed (.mul 3 1 2) 0x100000000 0x100000000 = some 0 := by decide
theorem test_div_truncates : computed (.div 3 1 2) (-7) 2 = some (-3) := by decide
theorem test_div_by_zero : computed (.div 3 1 2) (-42) 0 = some (-42) := by decide
theorem test_divu : computed (.divu 3 1 2) 0xffffffffffffffff 2 = some 0x7fffffffffffffff := by decide
theorem test_divu_by_zero : computed (.divu 3 1 2) 42 0 = some 42 := by decide
theorem test_rem_sign : computed (.rem 3 1 2) (-7) (-2) = some (-1) := by decide
theorem test_rem_by_zero : computed (.rem 3 1 2) 42 0 = some 0 := by decide
theorem test_remu : computed (.remu 3 1 2) 0xffffffffffffffff 10 = some 5 := by decide
theorem test_addi : computed (.addi 3 0 (-2048)) 0 0 = some 0xfffffffffffff800 := by decide
theorem test_andi : computed (.andi 3 1 (-1)) 0x1234 0 = some 0x1234 := by decide
theorem test_ori : computed (.ori 3 0 (-2048)) 0 0 = some 0xfffffffffffff800 := by decide
theorem test_xori : computed (.xori 3 1 (-1)) 0x55 0 = some (-86) := by decide
theorem test_slli : computed (.slli 3 1 63) 1 0 = some 0x8000000000000000 := by decide
theorem test_srli : computed (.srli 3 1 63) 0xffffffffffffffff 0 = some 1 := by decide
theorem test_srai : computed (.srai 3 1 1) (-3) 0 = some (-2) := by decide
theorem test_lui : computed (.lui 6 0x12345) 0 0 = some 0x12345000 := by decide
theorem test_lui_negative : computed (.lui 6 (-524288)) 0 0 = some 0xffffffff80000000 := by decide
theorem test_jal_link : (completed (.jal 1 4) 8 0 0).map (·.rdVal) = some 12 := by decide
theorem test_beq : resolved (.beq 1 2 (-4)) 16 3 3 = some (true, 8) := by decide
theorem test_bne : resolved (.bne 1 0 (-2)) 12 0 0 = some (false, 16) := by decide
theorem test_blt : resolved (.blt 1 2 8) 4 (-5) 3 = some (true, 20) := by decide
theorem test_bge : resolved (.bge 1 2 8) 4 (-5) 3 = some (false, 8) := by decide
theorem test_ld_address : (completed (.ld 4 1 (-8)) 4 264 0).map (fun I => (I.addr, I.ready)) = some (256, false) := by decide
theorem test_sd_address : (completed (.sd 1 3 256) 4 0 12).map (fun I => (I.addr, I.ready)) = some (256, true) := by decide

theorem test_div_overflow_is_deferred :
    (completed (.div 3 1 2) 4 0x8000000000000000 (-1)).map (fun I => (I.pendingFault, I.rdVal)) =
      some (some .divOverflow, 0) := by decide

/-! ### The memory stage -/

/-- A load of address 256 (the spec's example of R381) that reaches the MEM stage of a block whose backing store holds 7 there. -/
def loading : State :=
  { State.reset with
    stage := .memory
    tick := 4
    nextSeq := 1
    mem := Memory.writeWord [] 256 7
    exMem := some { sampleRecord (.ld 0 0 256) 4 0 0 with addr := 256 } }

/-- A store of 12 to address 256 (the example of R382), likewise. -/
def storing : State :=
  { loading with exMem := some { sampleRecord (.sd 0 3 256) 4 0 12 with addr := 256, ready := true } }

/-- The block of addresses 256 to 287, resident and clean in set 0, way 0. -/
def resident : Block := ⟨true, false, 2, [7, 0, 0, 0], 1⟩

/-- A cache that holds that block. -/
def warmCache : List (List Block) :=
  [[resident, Block.reset 4], [Block.reset 4, Block.reset 4], [Block.reset 4, Block.reset 4],
    [Block.reset 4, Block.reset 4]]

/-- The state once its miss has been issued in an earlier cycle and the block arrives now. -/
def arriving (s : State) : State :=
  { s with
    tick := 8
    req := some (256, 8)
    miss := some 0
    exMem := s.exMem.map fun I => { I with memIssued := true } }

/-- What the part of an instruction leaves. -/
def after (i : Instr) (s : State) : Option State :=
  match exec i s with
  | .next t => some t
  | _ => none

theorem test_ld_misses : (after (.ld 0 0 256) loading).map (fun t => (t.req, t.miss, t.counters.misses)) =
    some (some (256, 8), some 0, 1) := by decide

theorem test_ld_arrives : (after (.ld 0 0 256) (arriving loading)).map
    (fun t => (t.memWb.map (·.rdVal), t.miss, t.counters.hits)) = some (some 7, none, 0) := by decide

theorem test_ld_hits : (after (.ld 0 0 256) { loading with cache := warmCache }).map
    (fun t => (t.memWb.map (·.rdVal), t.counters.hits, t.req)) = some (some 7, 1, none) := by decide

theorem test_sd_arrives : (after (.sd 0 3 256) (arriving storing)).map
    (fun t => (coherent t 256, Memory.readWord t.mem 256, t.memWb.isSome)) = some (12, 7, true) := by decide

/-! ### Launch and step -/

theorem test_reset_is_the_empty_launch : launch ⟨Config.reference, [], [], []⟩ = .next State.reset := by rfl

theorem test_launch_refuses_unknown_opcode :
    launch ⟨Config.reference, [⟨.unknown "SLT", 1, 0, 0, 0⟩], [], []⟩ = .refused (.opcode "SLT") := by rfl

theorem test_launch_rejects_bad_immediate :
    launch ⟨Config.reference, [⟨.known .addi, 1, 0, 0, 2048⟩], [], []⟩ =
      .fault (.init (.record ⟨.known .addi, 1, 0, 0, 2048⟩)) := by rfl

theorem test_launch_rejects_three_ways :
    launch ⟨{ Config.reference with ways := 3 }, [], [], []⟩ = .fault (.config (.check .waysPowerOfTwo)) := by rfl

/-- A key without a value, a key below `x0`, and the vectors VR8 and VR9: a key given twice, an entry for `x0`. -/
theorem test_launch_checks_register_entries :
    launch ⟨Config.reference, [], [(1, none)], []⟩ = .fault (.init (.regEntry 1 none)) ∧
      launch ⟨Config.reference, [], [(-1, some 5)], []⟩ = .fault (.init (.regEntry (-1) (some 5))) ∧
      launch ⟨Config.reference, [], [(1, some 5), (1, some 6)], []⟩ = .fault (.init (.regEntry 1 (some 6))) ∧
      launch ⟨Config.reference, [], [(0, some 5)], []⟩ = .next State.reset := ⟨rfl, rfl, rfl, rfl⟩

/-- A word of `MEM_INIT` that no block fetch covered is in the report, and not among the touched words (R203, R603). -/
theorem test_report_has_untouched_words :
    let s := { State.reset with
      status := .drained, cfg := { Config.reference with memBytes := 288 }, mem := Memory.writeWord [] 264 7 }
    (report s).map (fun r => (r.memory, r.touched, r.touchedWords)) =
      some ([(256, 0), (264, 7), (272, 0), (280, 0)], [], []) := by rfl

/-- What one step leaves. -/
def stepped (s : State) : Option State :=
  match step s with
  | .next t => some t
  | _ => none

theorem test_first_step_fetches : (stepped (State.reset.withFetchWord 32 0x00500093)).map
    (fun t => (t.ifId.map (·.instr), t.pc, t.tick)) = some (some (.addi 1 0 5), 8, 1) := by decide

theorem test_empty_program_runs_one_cycle : (stepped State.reset).map (fun t => (t.tick, continues t)) =
    some (1, false) := by decide

theorem test_fetch_at_zero_faults : (stepped { State.reset with pc := 0 }).map (·.status) =
    some (.faulted .fetchPcZero (.atPc 0)) := by decide

theorem test_commit : (after (.addi 1 0 5)
      { State.reset with
        stage := .writeback
        dep := State.reset.dep.set 1 (some 0)
        memWb := some { sampleRecord (.addi 1 0 5) 4 0 0 with rdVal := 5 } }).map
    (fun t => (t.x.get 1, t.dep.get 1, t.counters.retired)) = some (5, none, 1) := by decide

/-! ### Witnesses: encoding (one state or word for each clause of a statement with hypotheses) -/

theorem witness_DecodeOfEncodeIsIdentity :
    (Instr.addi 1 0 (-2048)).WellFormed ∧ (Instr.sd 1 2 2047).WellFormed ∧ (Instr.srai 1 31 63).WellFormed ∧
      (Instr.bge 31 0 (-2048)).WellFormed ∧ (Instr.lui 1 524287).WellFormed ∧ (Instr.jal 31 (-524288)).WellFormed := by
  decide

theorem witness_EncodeOfDecodeIsIdentity : decodeWord 0xff813203#32 = .ok (.ld 4 2 (-8)) := by decide

theorem config_of_the_vectors_is_valid (n : Nat) (h : n ≤ 2) : ConfigValid Config.reference n := by
  intro c
  cases c
  · exact ⟨⟨4, rfl⟩, by decide⟩
  · exact ⟨1, rfl⟩
  · exact ⟨2, rfl⟩
  · exact (by decide : 1 ≤ 4)
  · exact ⟨⟨8, rfl⟩, ⟨128, rfl⟩⟩
  · exact (by omega : 4 * (n + 1) ≤ 256 ∧ 256 < 4096)

theorem witness_WordsOutsideTheMapAreRefused :
    (∀ r ∈ opcodeRows, (0x0020a1b3 : InstrWord) &&& r.mask ≠ r.pattern) ∧
      (∀ v ∈ [(0x002081b3 : InstrWord)], ∃ r ∈ opcodeRows, v &&& r.mask = r.pattern) ∧
      ConfigValid Config.reference ([(0x002081b3 : InstrWord)] ++ 0x0020a1b3 :: []).length := by
  refine ⟨?_, ?_, config_of_the_vectors_is_valid 2 (by decide)⟩
  · have h : (opcodeRows.all fun r => (0x0020a1b3 : InstrWord) &&& r.mask != r.pattern) = true := by rfl
    intro r hr
    simpa using List.all_eq_true.mp h r hr
  · intro v hv
    obtain rfl := List.mem_singleton.mp hv
    exact ⟨opcodeRows.head (by simp [opcodeRows]), List.head_mem _, by decide⟩

/-! ### Witnesses: launch -/

/-- A launch of one instruction with one register and one word set. -/
def smallLaunch : LaunchInput :=
  ⟨Config.reference, [⟨.known .addi, 1, 0, 0, 5⟩], [(2, some (-1))], [(256, 7)]⟩

theorem witness_LaunchSetsTheResetValues :
    (∃ s, launch smallLaunch = .next s) ∧ (2, some (-1 : Int)) ∈ smallLaunch.regInit ∧ ((256 : Nat), (7 : Int)) ∈ [((256 : Nat), (7 : Int))] ∧
      ∀ v : Option Int, ((8 : Int), v) ∉ smallLaunch.regInit :=
  ⟨⟨_, rfl⟩, by decide, by decide, by intro n h; simp [smallLaunch] at h⟩

/-- Clause 1: a failing condition with every earlier one met. -/
theorem witness_LaunchStopsAtTheFirstInvalidInput_config :
    ¬ ConfigCondition { Config.reference with memLatency := 0 } 0 .memLatency ∧
      ∀ d, conditionNumber d < conditionNumber .memLatency →
        ConfigCondition { Config.reference with memLatency := 0 } 0 d := by
  refine ⟨(by decide : ¬ 1 ≤ 0), ?_⟩
  intro d h
  cases d
  · exact ⟨⟨4, rfl⟩, by decide⟩
  · exact ⟨1, rfl⟩
  · exact ⟨2, rfl⟩
  · exact absurd h (by decide)
  · exact absurd h (by decide)
  · exact absurd h (by decide)

/-- Clause 2: a valid configuration, and the first bad record, of an unknown operation and of a known one with an immediate one too large. -/
theorem witness_LaunchStopsAtTheFirstInvalidInput_record :
    ConfigValid Config.reference 1 ∧ (∀ q ∈ ([] : List RawRecord), RecordValid q) ∧
      (RawRecord.mk (.unknown "SLT") 1 0 0 0).op = .unknown "SLT" ∧ ¬ FitsOpcode .addi ⟨.known .addi, 1, 0, 0, 2048⟩ :=
  ⟨config_of_the_vectors_is_valid 1 (by decide), (by intro q h; simp at h), rfl,
    by simp [FitsOpcode, FitsFormat, formatOf]⟩

/-- Clause 3: register keys just above and just below the range, no value, a value just out of range, a key given twice, and
addresses just below and just above the data region. -/
theorem witness_LaunchStopsAtTheFirstInvalidInput_values :
    ConfigValid Config.reference 1 ∧ (∀ q ∈ [RawRecord.mk (.known .addi) 1 0 0 5], RecordValid q) ∧ RegInitValid [] ∧
      ¬ RegEntryValid [] (32, some 0) ∧ ¬ RegEntryValid [] (-1, some 0) ∧ ¬ RegEntryValid [] (1, none) ∧
      ¬ RegEntryValid [] (1, some (2 ^ 64)) ∧ ¬ RegEntryValid [(1, some 5)] (1, some 6) ∧ MemInitValid Config.reference [] ∧
      ¬ MemEntryValid Config.reference [] (248, 0) ∧ ¬ MemEntryValid Config.reference [] (4096, 0) := by
  refine ⟨config_of_the_vectors_is_valid 1 (by decide), ?_, ?_, by simp [RegEntryValid], by simp [RegEntryValid], by simp [RegEntryValid],
    fun h => by obtain ⟨n, hn, hv⟩ := h.2.2.1; cases hn; exact absurd hv.2 (by decide), by simp [RegEntryValid], ?_,
    by simp [MemEntryValid, Config.reference], by simp [MemEntryValid, Config.reference]⟩
  · intro q h
    obtain rfl := List.mem_singleton.mp h
    exact ⟨.addi, rfl, by decide, by decide, by decide, by simp [FitsFormat, formatOf]⟩
  · intro b e a h
    simp at h
  · intro b e a h
    simp at h

/-! ### Witnesses: EX completion -/

theorem executing_atExecute (i : Instr) (pc a b : Word) : AtExecute (executing i pc a b) (sampleRecord i pc a b) :=
  ⟨rfl, 3, rfl⟩

theorem witness_ArithmeticAndLogicResults :
    AtExecute (executing (.mul 3 1 2) 4 (-3) 5) (sampleRecord (.mul 3 1 2) 4 (-3) 5) := executing_atExecute _ _ _ _

theorem witness_ShiftResults :
    AtExecute (executing (.sll 3 1 2) 4 3 65) (sampleRecord (.sll 3 1 2) 4 3 65) ∧ 63 < 64 :=
  ⟨executing_atExecute _ _ _ _, by decide⟩

theorem witness_DivisionResults :
    AtExecute (executing (.div 3 1 2) 4 0x8000000000000000 1) (sampleRecord (.div 3 1 2) 4 0x8000000000000000 1) ∧
      (1 : Word) ≠ 0 ∧ ¬ ((0x8000000000000000 : Word).toInt = -2 ^ 63 ∧ (1 : Word).toInt = -1) :=
  ⟨executing_atExecute _ _ _ _, by decide, by decide⟩

theorem witness_DivisionByZeroSubstitutesOne :
    AtExecute (executing (.rem 3 1 2) 4 42 0) (sampleRecord (.rem 3 1 2) 4 42 0) ∧
      (sampleRecord (.rem 3 1 2) 4 42 0).rs2Val = 0 := ⟨executing_atExecute _ _ _ _, rfl⟩

/-- The overflow of `DIV`, under a division policy. -/
def overflowing (p : DivOverflow) : State :=
  let s := executing (.div 3 1 2) 4 0x8000000000000000 (-1)
  { s with cfg := { s.cfg with divOverflow := p } }

theorem witness_SignedDivisionOverflow (p : DivOverflow) :
    AtExecute (overflowing p) (sampleRecord (.div 3 1 2) 4 0x8000000000000000 (-1)) ∧
      (0x8000000000000000 : Word).toInt = -2 ^ 63 ∧ (-1 : Word).toInt = -1 ∧ (overflowing p).cfg.divOverflow = p :=
  ⟨⟨rfl, 3, rfl⟩, by decide, by decide, rfl⟩

theorem witness_ImmediateResults :
    AtExecute (executing (.addi 3 1 (-2048)) 4 5 0) (sampleRecord (.addi 3 1 (-2048)) 4 5 0) ∧
      (-2048 : Int) ≤ -2048 ∧ (2047 : Int) ≤ 2047 := ⟨executing_atExecute _ _ _ _, by decide, by decide⟩

theorem witness_ImmediateShiftResults :
    AtExecute (executing (.srai 3 1 63) 4 5 0) (sampleRecord (.srai 3 1 63) 4 5 0) ∧ 63 ≤ 63 :=
  ⟨executing_atExecute _ _ _ _, by decide⟩

theorem witness_UpperImmediateAndLinkResults :
    AtExecute (executing (.lui 3 (-524288)) 4 0 0) (sampleRecord (.lui 3 (-524288)) 4 0 0) ∧
      AtExecute (executing (.jal 1 524287) 4 0 0) (sampleRecord (.jal 1 524287) 4 0 0) :=
  ⟨executing_atExecute _ _ _ _, executing_atExecute _ _ _ _⟩

theorem witness_EffectiveAddresses :
    AtExecute (executing (.ld 3 1 (-2048)) 4 0 0) (sampleRecord (.ld 3 1 (-2048)) 4 0 0) ∧
      AtExecute (executing (.sd 1 2 2047) 4 (-1) 0) (sampleRecord (.sd 1 2 2047) 4 (-1) 0) :=
  ⟨executing_atExecute _ _ _ _, executing_atExecute _ _ _ _⟩

theorem witness_BranchDirectionsAndTargets :
    AtExecute (executing (.blt 1 2 (-2048)) 4 (-5) 3) (sampleRecord (.blt 1 2 (-2048)) 4 (-5) 3) ∧
      AtExecute (executing (.bge 1 2 2047) 4 (-5) 3) (sampleRecord (.bge 1 2 2047) 4 (-5) 3) :=
  ⟨executing_atExecute _ _ _ _, executing_atExecute _ _ _ _⟩

/-! ### Witnesses: decode -/

/-- `ADD x3, x1, x2` at decode while an older `ADDI x1, x0, 5` stands finished in the functional unit. -/
def forwarding (enabled ready : Bool) : State :=
  { State.reset with
    cfg := { Config.reference with forwarding := enabled }
    stage := .decode
    tick := 3
    nextSeq := 2
    fu := .done { sampleRecord (.addi 1 0 5) 4 0 0 with rdVal := 5, ready := ready }
    dep := State.reset.dep.set 1 (some 0)
    ifId := some { sampleRecord (.add 3 1 2) 8 0 0 with seq := 1 } }

theorem forwarding_programOrder (e r : Bool) : ProgramOrder (forwarding e r) := by
  cases e <;> cases r <;> exact ⟨by decide, by decide⟩

/-- Every clause of operand resolution: `x0`, no producer, a ready one forwarded, and the two ways to stall. -/
theorem witness_OperandResolution :
    (∀ e r, ProgramOrder (forwarding e r)) ∧
      (forwarding true true).dep.get 2 = none ∧
      (∃ P ∈ producers (forwarding true true), (forwarding true true).dep.get 1 = some P.seq ∧ P.ready = true) ∧
      (∃ P ∈ producers (forwarding true false), (forwarding true false).dep.get 1 = some P.seq ∧ P.ready = false) ∧
      (∃ P ∈ producers (forwarding false true), (forwarding false true).dep.get 1 = some P.seq ∧ P.ready = true) ∧
      AtDecode (forwarding true false) { sampleRecord (.add 3 1 2) 8 0 0 with seq := 1 } ∧
      operand (forwarding true false) (rs1Index (.add 3 1 2)) = none :=
  ⟨forwarding_programOrder, by decide, by decide, by decide, by decide, ⟨rfl, rfl, rfl⟩, by decide⟩

theorem witness_DecodeTakesOperands :
    AtDecode (forwarding true true) { sampleRecord (.add 3 1 2) 8 0 0 with seq := 1 } ∧
      (∀ rd imm, (Instr.add 3 1 2) ≠ .jal rd imm) ∧
      operand (forwarding true true) (rs1Index (.add 3 1 2)) = some 5 ∧
      operand (forwarding true true) (rs2Index (.add 3 1 2)) = some 0 :=
  ⟨⟨rfl, rfl, rfl⟩, by simp, by decide, by decide⟩

theorem witness_JumpRedirectsAtDecode :
    AtDecode { State.reset with stage := .decode, nextSeq := 1, ifId := some (sampleRecord (.jal 1 524287) 4 0 0) }
      (sampleRecord (.jal 1 524287) 4 0 0) ∧ (-524288 : Int) ≤ 524287 := ⟨⟨rfl, rfl, rfl⟩, by decide⟩

/-! ### Witnesses: fetch -/

/-- The first and the last record's address, and the first past the end. -/
theorem witness_InstructionSource :
    (4 : Word).toNat % 4 = 0 ∧ (4 ≤ (4 : Word).toNat ∧ (4 : Word).toNat < 4 * ([noOp, noOp].length + 1)) ∧
      (4 ≤ (8 : Word).toNat ∧ (8 : Word).toNat < 4 * ([noOp, noOp].length + 1)) ∧
      4 * ([noOp, noOp].length + 1) ≤ (12 : Word).toNat := by decide

theorem reset_atFetch : AtFetch State.reset := ⟨rfl, rfl, rfl, rfl, by decide⟩

theorem witness_FetchCreatesTheRecord : AtFetch State.reset ∧ isBranch (.addi 1 0 5) = false :=
  ⟨reset_atFetch, rfl⟩

theorem witness_FetchPredictsBranches :
    isBranch (.beq 1 2 (-4)) = true ∧ AtFetch State.reset ∧ State.reset.cfg.speculation = false ∧
      AtFetch { State.reset with cfg := { Config.reference with speculation := true } } ∧
      ({ Config.reference with speculation := true } : Config).speculation = true :=
  ⟨rfl, reset_atFetch, rfl, ⟨rfl, rfl, rfl, rfl, by decide⟩, rfl⟩

/-- One state for each way not to fetch: stalled, blocked, past the end, held back by an older record, faulting. -/
theorem witness_FetchWaitsOrFaults :
    (forwarding true true).ifId = some { sampleRecord (.add 3 1 2) 8 0 0 with seq := 1 } ∧
      ({ State.reset with fetchBlocked := true } : State).fetchBlocked = true ∧
      (State.reset.pc.toNat % 4 = 0 ∧ 4 * (State.reset.program.length + 1) ≤ State.reset.pc.toNat) ∧
      ¬ PipelineEmpty { executing noOp 4 0 0 with pc := 0 } ∧
      PipelineEmpty { State.reset with pc := 0 } ∧
      PipelineEmpty { State.reset with pc := 6 } ∧ (6 : Word).toNat % 4 ≠ 0 :=
  ⟨rfl, rfl, by decide, fun h => FuState.noConfusion h.2.2.2.2, ⟨rfl, rfl, rfl, rfl, rfl⟩, ⟨rfl, rfl, rfl, rfl, rfl⟩, by decide⟩

/-! ### Witnesses: MEM -/

theorem witness_OthersPassTheMemoryStage :
    AtMemory { loading with exMem := some (sampleRecord (.addi 1 0 5) 4 0 0) } (sampleRecord (.addi 1 0 5) 4 0 0) ∧
      isMemory (.addi 1 0 5) = false := ⟨⟨rfl, rfl, rfl, rfl⟩, rfl⟩

/-- The record of `loading`. -/
def loadRecord : Record := { sampleRecord (.ld 0 0 256) 4 0 0 with addr := 256 }

/-- The record of `storing`. -/
def storeRecord : Record := { sampleRecord (.sd 0 3 256) 4 0 12 with addr := 256, ready := true }

theorem loading_atMemory : AtMemory loading loadRecord := ⟨rfl, rfl, rfl, rfl⟩
theorem storing_atMemory : AtMemory storing storeRecord := ⟨rfl, rfl, rfl, rfl⟩

theorem witness_HitsCompleteInOneCycle :
    AtMemory { loading with cache := warmCache } loadRecord ∧ loadRecord.memIssued = false ∧ loading.miss = none ∧
      loading.req = none ∧ loadRecord.addr.toNat % 8 = 0 ∧
      lookupWay { loading with cache := warmCache } loadRecord.addr.toNat = some 0 ∧
      blockAt { loading with cache := warmCache } loadRecord.addr.toNat 0 = some resident :=
  ⟨⟨rfl, rfl, rfl, rfl⟩, rfl, rfl, rfl, by decide, by decide, by decide⟩

/-- A load of another address. -/
def loadingAt (a : Word) : State := { loading with exMem := some { loadRecord with addr := a } }

/-- A misaligned address, the last word below the data region, the first above it, and the top of the address space. -/
theorem witness_BadDataAddressesFault :
    (∀ a, AtMemory (loadingAt a) { loadRecord with addr := a }) ∧ (257 : Word).toNat % 8 ≠ 0 ∧
      (lookupWay (loadingAt 248) 248 = none ∧ baseOf Config.reference 248 < 256) ∧
      (lookupWay (loadingAt 4096) 4096 = none ∧ 4096 < baseOf Config.reference 4096 + 32) ∧
      (lookupWay (loadingAt (-8)) (2 ^ 64 - 8) = none ∧ 4096 < baseOf Config.reference (2 ^ 64 - 8) + 32) :=
  ⟨fun _ => ⟨rfl, rfl, rfl, rfl⟩, by decide, by decide, by decide, by decide⟩

/-- The first and the last word of the data region, and the wait for the block. -/
theorem witness_MissRequestsTheBlockAndWaits :
    (∀ a, AtMemory (loadingAt a) { loadRecord with addr := a }) ∧
      (lookupWay (loadingAt 256) 256 = none ∧ 256 ≤ baseOf Config.reference 256) ∧
      (lookupWay (loadingAt 4088) 4088 = none ∧ baseOf Config.reference 4088 + 32 ≤ 4096) ∧
      AtMemory { arriving loading with tick := 7 } { loadRecord with memIssued := true } ∧ (arriving loading).miss = some loadRecord.seq ∧
      (arriving loading).req = some (256, 8) ∧ 7 < 8 :=
  ⟨fun _ => ⟨rfl, rfl, rfl, rfl⟩, by decide, by decide, ⟨rfl, rfl, rfl, rfl⟩, rfl, rfl, by decide⟩

theorem reference_geometryOk : GeometryOk Config.reference := by unfold GeometryOk; decide

theorem reset_cacheShaped : CacheShaped State.reset := by
  refine ⟨by decide, ?_⟩
  intro ways h
  obtain rfl : ways = [Block.reset 4, Block.reset 4] := List.eq_of_mem_replicate h
  refine ⟨rfl, by decide, ?_⟩
  intro w b hb _
  match w, hb with
  | 0, hb => obtain rfl := Option.some.inj hb; rfl
  | 1, hb => obtain rfl := Option.some.inj hb; rfl

theorem witness_ArrivalReplaysTheAccess :
    AtMemory (arriving loading) { loadRecord with memIssued := true } ∧
      AtMemory (arriving storing) { storeRecord with memIssued := true } ∧
      (arriving loading).miss = some loadRecord.seq ∧
      (arriving loading).req = some (baseOf Config.reference loadRecord.addr.toNat, 8) ∧ 8 ≤ (arriving loading).tick ∧
      GeometryOk (arriving loading).cfg ∧ CacheShaped (arriving loading) ∧ loadRecord.addr.toNat % 8 = 0 :=
  ⟨⟨rfl, rfl, rfl, rfl⟩, ⟨rfl, rfl, rfl, rfl⟩, rfl, by decide, by decide, reference_geometryOk, reset_cacheShaped,
    by decide⟩

/-- A cache whose set 0 holds a modified block of addresses 384 to 415. -/
def dirtyCache : List (List Block) :=
  [[⟨true, true, 3, [1, 2, 3, 4], 1⟩, Block.reset 4], [Block.reset 4, Block.reset 4], [Block.reset 4, Block.reset 4],
    [Block.reset 4, Block.reset 4]]

/-- A dirty victim, and none: while the block has not been asked for, and when it arrives in an empty set. -/
theorem witness_EvictionStoresTheVictim :
    AtMemory { arriving loading with cache := dirtyCache } { loadRecord with memIssued := true } ∧
      Memory.wf loading.mem ∧ (∃ t, exec (.ld 0 0 256) { arriving loading with cache := dirtyCache } = .next t) ∧
      blockAt { arriving loading with cache := dirtyCache } 256 0 = some ⟨true, true, 3, [1, 2, 3, 4], 1⟩ ∧
      (loading.req = none ∧ 1 ≤ loading.cfg.memLatency) ∧
      blockAt (arriving loading) 256 0 = some (Block.reset 4) :=
  ⟨⟨rfl, rfl, rfl, rfl⟩, by decide, ⟨_, rfl⟩, by decide, by decide, by decide⟩

theorem witness_EveryAccessIsCountedOnce :
    AtMemory loading loadRecord ∧ (∃ t, exec (.ld 0 0 256) loading = .next t) ∧ loadRecord.memIssued = false ∧
      loadRecord.addr.toNat % 8 = 0 ∧ AtMemory (arriving loading) { loadRecord with memIssued := true } ∧
      ∃ t, exec (.ld 0 0 256) (arriving loading) = .next t :=
  ⟨loading_atMemory, ⟨_, rfl⟩, rfl, by decide, ⟨rfl, rfl, rfl, rfl⟩, ⟨_, rfl⟩⟩

/-- No register but `x0` is ever named by an empty dependency table. -/
theorem reset_dep (i : Reg) : State.reset.dep.get i = none := by
  revert i
  decide

theorem cold_wayZero (s : State) (h : s.cache = State.reset.cache) (k : Nat) (b : Block) (hb : wayZero s k = some b) :
    b.valid = false := by
  rw [wayZero, h] at hb
  match k, hb with
  | 0, hb => obtain rfl := Option.some.inj hb; rfl
  | 1, hb => obtain rfl := Option.some.inj hb; rfl
  | 2, hb => obtain rfl := Option.some.inj hb; rfl
  | 3, hb => obtain rfl := Option.some.inj hb; rfl

theorem arriving_storing_ordered : PipelineOrdered (arriving storing) := by
  intro _
  refine ⟨⟨by decide, by decide⟩, ⟨?_, by decide⟩, ?_, rfl, ?_, by decide⟩
  · intro i q h
    rw [show (arriving storing).dep.get i = none from reset_dep i] at h
    simp at h
  · intro q h
    obtain rfl := Option.some.inj h
    exact ⟨_, rfl, rfl, rfl, rfl, rfl⟩
  · intro I h _
    obtain rfl := Option.some.inj h
    rfl

theorem arriving_storing_coherent : MemoryCoherent (arriving storing) := by
  intro _
  refine ⟨reference_geometryOk, reset_cacheShaped, ?_, ?_, ?_, by unfold MemoryInRegion; decide⟩
  · intro k b hb hv
    rw [cold_wayZero _ rfl k b hb] at hv
    simp at hv
  · intro k b hb hv
    rw [cold_wayZero _ rfl k b hb] at hv
    simp at hv
  · intro a t h
    obtain ⟨rfl, rfl⟩ := Prod.mk.inj (Option.some.inj h)
    exact ⟨by decide, by decide, _, rfl, rfl, rfl, rfl, by decide, by decide, by decide⟩

theorem arriving_loading_ordered : PipelineOrdered (arriving loading) := by
  intro _
  refine ⟨⟨by decide, by decide⟩, ⟨?_, by decide⟩, ?_, rfl, ?_, by decide⟩
  · intro i q h
    rw [show (arriving loading).dep.get i = none from reset_dep i] at h
    simp at h
  · intro q h
    obtain rfl := Option.some.inj h
    exact ⟨_, rfl, rfl, rfl, rfl, rfl⟩
  · intro I h _
    obtain rfl := Option.some.inj h
    rfl

theorem arriving_loading_coherent : MemoryCoherent (arriving loading) := by
  intro _
  refine ⟨reference_geometryOk, reset_cacheShaped, ?_, ?_, ?_, by unfold MemoryInRegion; decide⟩
  · intro k b hb hv
    rw [cold_wayZero _ rfl k b hb] at hv
    simp at hv
  · intro k b hb hv
    rw [cold_wayZero _ rfl k b hb] at hv
    simp at hv
  · intro a t h
    obtain ⟨rfl, rfl⟩ := Prod.mk.inj (Option.some.inj h)
    exact ⟨by decide, by decide, _, rfl, rfl, rfl, rfl, by decide, by decide, by decide⟩

/-- A store that leaves the MEM stage when its block arrives, and another word of the region. -/
theorem witness_LoadsAndStoresActOnTheCoherentImage_store :
    AtMemory (arriving storing) { storeRecord with memIssued := true } ∧ PipelineOrdered (arriving storing) ∧
      MemoryCoherent (arriving storing) ∧ Memory.wf storing.mem ∧
      (∃ t, exec (.sd 0 3 256) (arriving storing) = .next t ∧ t.memWb ≠ none) ∧ 264 % 8 = 0 ∧ 256 ≤ 264 ∧ 264 < 4096 :=
  ⟨⟨rfl, rfl, rfl, rfl⟩, arriving_storing_ordered, arriving_storing_coherent, by decide, ⟨_, rfl, nofun⟩, by decide,
    by decide, by decide⟩

/-- A load that leaves it. -/
theorem witness_LoadsAndStoresActOnTheCoherentImage_load :
    AtMemory (arriving loading) { loadRecord with memIssued := true } ∧ PipelineOrdered (arriving loading) ∧
      MemoryCoherent (arriving loading) ∧ Memory.wf loading.mem ∧
      ∃ t J, exec (.ld 0 0 256) (arriving loading) = .next t ∧ t.memWb = some J :=
  ⟨⟨rfl, rfl, rfl, rfl⟩, arriving_loading_ordered, arriving_loading_coherent, by decide, ⟨_, _, rfl, rfl⟩⟩

/-! ### Witnesses: writeback -/

/-- A record at writeback. -/
def retiring (I : Record) : State := { State.reset with stage := .writeback, tick := 5, nextSeq := 1, memWb := some I }

theorem witness_WritebackCommitsOrFaults (I : Record) : AtWriteback (retiring I) I ∧ isBranch (.addi 1 0 5) = false ∧
    (sampleRecord (.addi 1 0 5) 4 0 0).pendingFault = none ∧
    ({ sampleRecord (.div 3 1 2) 4 0 0 with pendingFault := some .divOverflow } : Record).pendingFault = some .divOverflow :=
  ⟨⟨rfl, rfl⟩, rfl, rfl, rfl⟩

/-- A branch predicted right and one predicted wrong. -/
theorem witness_BranchesResolveAtWriteback (I : Record) : AtWriteback (retiring I) I ∧ isBranch (.beq 1 2 (-4)) = true ∧
    (let J := { sampleRecord (.beq 1 2 (-4)) 12 0 0 with target := 16 }
     J.pendingFault = none ∧ J.predTarget = J.target) ∧
    (let J := { sampleRecord (.beq 1 2 (-4)) 12 0 0 with target := 4, taken := true }
     J.pendingFault = none ∧ J.predTarget ≠ J.target) :=
  ⟨⟨rfl, rfl⟩, rfl, by decide, by decide⟩

/-! ### Witnesses: the step -/

theorem witness_StepRunsTheInstructionAtPc :
    let s := State.reset.withFetchWord 32 0x00500093
    s.status = .running ∧ continues s = true ∧
      ∃ d, backStages s = .next d ∧ d.status = .running ∧ d.ifId = none ∧ d.fetchBlocked = false ∧
        readProgram d.program d.pc = some (.addi 1 0 5) :=
  ⟨rfl, rfl, _, rfl, rfl, rfl, rfl, by decide⟩

theorem witness_StepRunsThePlacedWord :
    decodeTableWord 32 0x00500093 = some (.addi 1 0 5) ∧ State.reset.status = .running ∧ State.reset.tick = 0 ∧
      PipelineEmpty State.reset ∧ State.reset.fetchBlocked = false ∧ fetchable State.reset.pc = true :=
  ⟨by decide, rfl, rfl, ⟨rfl, rfl, rfl, rfl, rfl⟩, rfl, by decide⟩

theorem witness_StagesRunTheirRecord :
    (retiring loadRecord).memWb = some loadRecord ∧ loading.exMem = some loadRecord ∧
      ((executing noOp 4 0 0).fu = .busy (sampleRecord noOp 4 0 0) 3 ∧ 3 ≤ (executing noOp 4 0 0).tick) ∧
      ((forwarding true true).ifId.isSome = true ∧ (forwarding true true).idEx = none) :=
  ⟨rfl, rfl, ⟨rfl, by decide⟩, rfl, rfl⟩

/-- A finished record that drains, an idle unit that is fed, and the two units that wait. -/
theorem witness_FunctionalUnitDrainsThenFeeds :
    (∀ I exit, (forwarding true true).fu = .busy I exit → (forwarding true true).tick < exit) ∧
      (forwarding true true).exMem = none ∧ State.reset.fu = .idle ∧
      (∃ I exit, ({ executing noOp 4 0 0 with tick := 2 } : State).fu = .busy I exit ∧ 2 < exit) ∧
      ({ forwarding true true with exMem := some loadRecord } : State).exMem ≠ none :=
  ⟨by simp [forwarding], rfl, rfl, ⟨_, 3, rfl, by decide⟩, by decide⟩

theorem witness_RunsEndDrainedOrFaulted :
    let s := { State.reset with tick := 1 }
    s.status = .running ∧ continues s = false ∧ step s = .next { s with status := .drained } ∧
      ({ s with status := .faulted .fetchPcZero (.atPc 0) } : State).status = .faulted .fetchPcZero (.atPc 0) :=
  ⟨rfl, rfl, rfl, rfl⟩

theorem witness_EveryInstructionAnswersNext : ∀ code info, State.reset.status ≠ .faulted code info := nofun

/-- A cycle that runs to its end and one that a fetch fault stops. -/
theorem witness_OneCycleOneTick :
    State.reset.status = .running ∧ continues State.reset = true ∧
      (∃ t, step State.reset = .next t ∧ t.status = .running) ∧
      ∃ t, step { State.reset with pc := 0 } = .next t ∧ t.status ≠ .running :=
  ⟨rfl, rfl, ⟨_, rfl, rfl⟩, _, rfl, nofun⟩

/-- A fault of each of the three stages that raise one. -/
theorem witness_FaultsArePrecise :
    (PendingFaultsAreDivisions { State.reset with pc := 0 } ∧
      ∃ t, step { State.reset with pc := 0 } = .next t ∧ t.status = .faulted .fetchPcZero (.atPc 0) ∧ t.stage = .fetch) ∧
    (PendingFaultsAreDivisions (loadingAt 257) ∧
      ∃ t, step (loadingAt 257) = .next t ∧ t.status = .faulted .dataMisaligned (.access 257 4) ∧ t.stage = .memory) ∧
    (let I := { sampleRecord (.div 3 1 2) 4 0 0 with pendingFault := some .divOverflow }
     PendingFaultsAreDivisions (retiring I) ∧
      ∃ t, step (retiring I) = .next t ∧ t.status = .faulted .divOverflow (.atPc 4) ∧ t.stage = .writeback) := by
  refine ⟨⟨?_, _, rfl, rfl, rfl⟩, ⟨?_, _, rfl, rfl, rfl⟩, ?_, _, rfl, rfl, rfl⟩
  · intro I h
    simp [recordsInFlight, FuState.record?, State.reset, State.initial] at h
  · intro I h c hc
    obtain rfl := List.mem_singleton.mp h
    simp [loadRecord, sampleRecord] at hc
  · intro I h c hc
    obtain rfl := List.mem_singleton.mp h
    obtain rfl := Option.some.inj hc
    exact ⟨rfl, .inl rfl, rfl⟩

/-! ### Witnesses: invariants, frames and runs -/

/-- A running block in the middle of a store's miss meets every invariant and steps. -/
theorem witness_invariants :
    ZeroHardwired (arriving storing) ∧ Memory.wf (arriving storing).mem ∧ TouchedCanonical (arriving storing) ∧
      CacheShaped (arriving storing) ∧ FetchControlled (arriving storing) ∧ PredictorConfigured (arriving storing) ∧
      PendingFaultsAreDivisions (arriving storing) ∧ PipelineOrdered (arriving storing) ∧
      MemoryCoherent (arriving storing) ∧ (arriving storing).status = .running ∧ ∃ t, step (arriving storing) = .next t := by
  refine ⟨⟨by decide, by decide⟩, by decide, by unfold TouchedCanonical; decide, reset_cacheShaped, nofun, rfl, ?_,
    arriving_storing_ordered, arriving_storing_coherent, rfl, _, rfl⟩
  intro I h c hc
  obtain rfl := List.mem_singleton.mp h
  simp [sampleRecord] at hc

theorem witness_LaunchMeetsTheInvariants : ∃ s, launch smallLaunch = .next s := ⟨_, rfl⟩

/-- A part away from writeback, a part away from data, and one that leaves both registers and data alone. -/
theorem witness_frames :
    (∃ t, exec (.ld 0 0 256) loading = .next t) ∧ loading.stage ≠ .writeback ∧
      (∃ t, exec (.addi 1 0 5) (retiring (sampleRecord (.addi 1 0 5) 4 0 0)) = .next t) ∧ isMemory (.addi 1 0 5) = false ∧
      (2 : Reg) ≠ rdIndex (.addi 1 0 5) :=
  ⟨⟨_, rfl⟩, nofun, ⟨_, rfl⟩, rfl, by decide⟩

theorem witness_LoneInstructionRetires :
    let s := { State.reset with program := [.addi 1 0 5] }
    (Instr.addi 1 0 5, readReg s 0 + BitVec.ofInt 64 5) ∈
        [(Instr.addi 1 0 5, readReg s 0 + BitVec.ofInt 64 5)] ∧
      s.status = .running ∧ s.tick = 0 ∧ s.pc = 4 ∧ s.fetchBlocked = false ∧ PipelineEmpty s ∧
      (∀ r, s.dep.get r = none) ∧ s.miss = none ∧ s.program = [.addi 1 0 5] :=
  ⟨List.mem_singleton.mpr rfl, rfl, rfl, rfl, rfl, ⟨rfl, rfl, rfl, rfl, rfl⟩, reset_dep, rfl, rfl⟩

/-- The last word of the data region. -/
theorem witness_LoneLoadRetires :
    let s := { State.reset with program := [.ld 1 2 (-8)], x := State.reset.x.set 2 4096 }
    (readReg s 2 + BitVec.ofInt 64 (-8)).toNat = 4088 ∧ 4088 % 8 = 0 ∧ s.cfg.codeBytes ≤ baseOf s.cfg 4088 ∧
      baseOf s.cfg 4088 + s.cfg.blockBytes ≤ s.cfg.memBytes ∧ GeometryOk s.cfg ∧ CacheShaped s ∧ 1 ≤ s.cfg.memLatency ∧
      (∀ ways ∈ s.cache, ∀ b ∈ ways, b.valid = false) ∧ s.status = .running ∧ s.tick = 0 ∧ s.pc = 4 ∧
      s.fetchBlocked = false ∧ PipelineEmpty s ∧ (∀ r, s.dep.get r = none) ∧ s.miss = none ∧ s.req = none ∧
      s.program = [.ld 1 2 (-8)] :=
  ⟨by decide, by decide, by decide, by decide, reference_geometryOk, reset_cacheShaped, by decide, by decide, rfl, rfl, rfl,
    rfl, ⟨rfl, rfl, rfl, rfl, rfl⟩, reset_dep, rfl, rfl, rfl⟩

theorem witness_ReportOfADrainedRun :
    ({ State.reset with status := .drained } : State).status = .drained ∧ State.reset.status ≠ .drained :=
  ⟨rfl, nofun⟩

end Sys2Proof.Tests
end

section
/-! PROOFS. The checks of the launch (R13, R161, R600, R602, R603): each of the model's checks against the condition of the
spec, then the three lists that the launch reads in order, then the launch itself. -/

namespace Sys2Proof.Machine

/-! ### `config_ok` (R13) -/

theorem isPowerOfTwo_iff (n : Nat) : isPowerOfTwo n = true ↔ ∃ k, n = 2 ^ k := by
  constructor
  · intro h
    have hlog : n ≠ 0 ∧ 2 ^ n.log2 = n := by simpa [isPowerOfTwo] using h
    exact ⟨n.log2, hlog.2.symm⟩
  · rintro ⟨k, rfl⟩
    simp [isPowerOfTwo, Nat.log2_two_pow]

/-- The number of sets is a power of two; a block and a way of some size make the quotient meaningful. -/
theorem setCountCheck_iff {cache row : Nat} (hrow : 0 < row) :
    (cache % row = 0 ∧ isPowerOfTwo (cache / row) = true) ↔ ∃ k, cache = row * 2 ^ k := by
  rw [isPowerOfTwo_iff]
  constructor
  · rintro ⟨hdvd, k, hk⟩
    exact ⟨k, by rw [← hk, Nat.mul_div_cancel' (Nat.dvd_of_mod_eq_zero hdvd)]⟩
  · rintro ⟨k, rfl⟩
    exact ⟨Nat.mul_mod_right _ _, k, Nat.mul_div_cancel_left _ hrow⟩

/-- Each check of R13 is its condition; that of the set count divides by `B * A`, so it needs both to be positive. -/
theorem configCheck_iff {cfg : Config} {n : Nat} {c : ConfigCheck}
    (hrow : c = .setCount → 0 < cfg.blockBytes * cfg.ways) :
    configCheck cfg n c = true ↔ ConfigCondition cfg n c := by
  cases c with
  | blockSize => simp [configCheck, ConfigCondition, Nat.dvd_iff_mod_eq_zero]
  | waysPowerOfTwo => exact isPowerOfTwo_iff _
  | setCount => simpa [configCheck, ConfigCondition] using setCountCheck_iff (hrow rfl)
  | memLatency => simp [configCheck, ConfigCondition]
  | regionAlignment => simp [configCheck, ConfigCondition, Nat.dvd_iff_mod_eq_zero]
  | codeRegion => simp [configCheck, ConfigCondition]

theorem rowBytes_pos {cfg : Config} {n : Nat} (hblock : ConfigCondition cfg n .blockSize)
    (hways : ConfigCondition cfg n .waysPowerOfTwo) : 0 < cfg.blockBytes * cfg.ways := by
  obtain ⟨k, hk⟩ := hways
  exact Nat.mul_pos hblock.2 (hk ▸ Nat.two_pow_pos k)

/-- A check is its condition wherever the earlier conditions hold, those of block and ways before the set count's among them. -/
theorem configCheck_iff_of_earlier {cfg : Config} {n : Nat} {c : ConfigCheck}
    (hearlier : ∀ d, conditionNumber d < conditionNumber c → ConfigCondition cfg n d) :
    configCheck cfg n c = true ↔ ConfigCondition cfg n c := by
  refine configCheck_iff ?_
  rintro rfl
  exact rowBytes_pos (hearlier _ (by decide)) (hearlier _ (by decide))

theorem mem_configChecks (c : ConfigCheck) : c ∈ configChecks := by cases c <;> decide

/-- The list of checks is in the order of R13. -/
theorem configChecks_split (c : ConfigCheck) :
    ∃ before after, configChecks = before ++ c :: after ∧ ∀ d ∈ before, conditionNumber d < conditionNumber c := by
  obtain ⟨before, after, hsplit⟩ := List.append_of_mem (mem_configChecks c)
  have hsorted : configChecks.Pairwise fun d c => conditionNumber d < conditionNumber c := by decide
  rw [hsplit, List.pairwise_append] at hsorted
  exact ⟨before, after, hsplit, fun d hd => hsorted.2.2 d hd c List.mem_cons_self⟩

theorem firstFailingCheck_eq_some {cfg : Config} {n : Nat} {c : ConfigCheck} (hfails : ¬ ConfigCondition cfg n c)
    (hearlier : ∀ d, conditionNumber d < conditionNumber c → ConfigCondition cfg n d) :
    firstFailingCheck cfg n = some c := by
  obtain ⟨before, after, hsplit, hbefore⟩ := configChecks_split c
  refine List.find?_eq_some_iff_append.mpr ⟨?_, before, after, hsplit, fun d hd => ?_⟩
  · simpa using mt (configCheck_iff_of_earlier hearlier).mp hfails
  · have hd' := hbefore d hd
    simpa using (configCheck_iff_of_earlier fun e he => hearlier e (he.trans hd')).mpr (hearlier d hd')

theorem firstFailingCheck_eq_none (cfg : Config) (n : Nat) : firstFailingCheck cfg n = none ↔ ConfigValid cfg n := by
  have hnone : firstFailingCheck cfg n = none ↔ ∀ c, configCheck cfg n c = true := by
    simp [firstFailingCheck, List.find?_eq_none, mem_configChecks]
  rw [hnone]
  constructor
  · intro hall
    have hblock : ConfigCondition cfg n .blockSize := (configCheck_iff (c := .blockSize) nofun).mp (hall _)
    have hways : ConfigCondition cfg n .waysPowerOfTwo := (configCheck_iff (c := .waysPowerOfTwo) nofun).mp (hall _)
    have hrow := rowBytes_pos hblock hways
    exact fun c => (configCheck_iff fun _ => hrow).mp (hall c)
  · exact fun hvalid c => (configCheck_iff_of_earlier fun d _ => hvalid d).mpr (hvalid c)

/-! ### Records (R160, R161) -/

/-- What the two tests of `wellFormedInstr` say of a record with indices in range: the row of R161 for its format. -/
theorem instrOfFields_wellFormed_iff (op : Op) (rd rs1 rs2 : Reg) (imm : Int) :
    ((instrOfFields op rd rs1 rs2 imm).wellFormed = true ∧
      rawOfInstr (instrOfFields op rd rs1 rs2 imm) = ⟨.known op, rd, rs1, rs2, imm⟩) ↔
    FitsFormat ⟨.known op, rd, rs1, rs2, imm⟩ (formatOf op) := by
  cases op with
  | add | sub | and | or | xor | sll | srl | sra | mul | div | divu | rem | remu =>
    simp only [instrOfFields, Instr.wellFormed, rawOfInstr, opOf, rdIndex, rs1Index, rs2Index, immIndex,
      RawRecord.mk.injEq, true_and, FitsFormat, formatOf]
    omega
  | addi | andi | ori | xori | slli | srli | srai | ld | sd | beq | bne | blt | bge | lui | jal =>
    simp only [instrOfFields, Instr.wellFormed, rawOfInstr, opOf, rdIndex, rs1Index, rs2Index, immIndex,
      RawRecord.mk.injEq, decide_eq_true_iff, Fin.val_zero, true_and, and_true, FitsFormat, formatOf]
    omega

/-- `wellFormedInstr` answers exactly on the records of R161. -/
theorem wellFormedInstr_isSome_iff {op : Op} {r : RawRecord} (hop : r.op = .known op) :
    (∃ i, wellFormedInstr op r = some i) ↔ FitsOpcode op r := by
  obtain ⟨_, rd, rs1, rs2, imm⟩ := r
  obtain rfl : _ = RawOp.known op := hop
  by_cases hidx : rd < 32 ∧ rs1 < 32 ∧ rs2 < 32
  · obtain ⟨hrd, hrs1, hrs2⟩ := hidx
    have hfits := instrOfFields_wellFormed_iff op ⟨rd, hrd⟩ ⟨rs1, hrs1⟩ ⟨rs2, hrs2⟩ imm
    simp [wellFormedInstr, FitsOpcode, hrd, hrs1, hrs2, ← hfits]
  · simp only [wellFormedInstr, FitsOpcode, dif_neg hidx, reduceCtorEq, exists_false, false_iff]
    exact fun ⟨hrd, hrs1, hrs2, _⟩ => hidx ⟨hrd, hrs1, hrs2⟩

/-- What a record that is not valid stops the launch with (R504, R512). -/
def recordError (r : RawRecord) : LaunchError :=
  match r.op with
  | .unknown name => .refused (.opcode name)
  | .known _ => .fault (.init (.record r))

theorem recordError_unknown {r : RawRecord} {name : String} (h : r.op = .unknown name) :
    recordError r = .refused (.opcode name) := by
  rw [recordError, h]

theorem recordError_known {r : RawRecord} {op : Op} (h : r.op = .known op) :
    recordError r = .fault (.init (.record r)) := by
  rw [recordError, h]

theorem recordValid_iff_of_known {r : RawRecord} {op : Op} (h : r.op = .known op) : RecordValid r ↔ FitsOpcode op r := by
  simp [RecordValid, h]

theorem not_recordValid_of_unknown {r : RawRecord} {name : String} (h : r.op = .unknown name) : ¬ RecordValid r := by
  simp [RecordValid, h]

theorem checkRecord_of_valid {r : RawRecord} (h : RecordValid r) : ∃ i, checkRecord r = .ok i := by
  obtain ⟨op, hop, hfits⟩ := h
  obtain ⟨i, hi⟩ := (wellFormedInstr_isSome_iff hop).mpr hfits
  exact ⟨i, by simp only [checkRecord, hop, hi]⟩

theorem checkRecord_of_not_valid {r : RawRecord} (h : ¬ RecordValid r) : checkRecord r = .error (recordError r) := by
  cases hop : r.op with
  | unknown name => simp only [checkRecord, hop, recordError_unknown hop]
  | known op =>
    rw [recordValid_iff_of_known hop, ← wellFormedInstr_isSome_iff hop] at h
    have hnone : wellFormedInstr op r = none := Option.eq_none_iff_forall_ne_some.mpr fun i hi => h ⟨i, hi⟩
    simp only [checkRecord, hop, hnone, recordError_known hop]

/-! ### Lists read in order (R600)

The program, `REG_INIT` and `MEM_INIT` are each read entry by entry, the first that is not valid after those before it
stopping the launch. What that gives is proved once, for any such reader. -/

/-- Every entry of `rest` meets `P` after the entries of `done` and those of `rest` before it. -/
def EachValidAfter {α : Type} (P : List α → α → Prop) (done rest : List α) : Prop :=
  ∀ before e after, rest = before ++ e :: after → P (done ++ before) e

theorem eachValidAfter_nil {α : Type} (P : List α → α → Prop) (done : List α) : EachValidAfter P done [] := by
  intro before e after h
  simp at h

theorem eachValidAfter_cons {α : Type} {P : List α → α → Prop} {done : List α} {e : α} {rest : List α} :
    EachValidAfter P done (e :: rest) ↔ P done e ∧ EachValidAfter P (done ++ [e]) rest := by
  constructor
  · intro h
    refine ⟨by simpa using h [] e rest rfl, fun before d after hrest => ?_⟩
    simpa using h (e :: before) d after (by rw [hrest, List.cons_append])
  · rintro ⟨he, hrest⟩ before d after hsplit
    rcases List.cons_eq_append_iff.mp hsplit with ⟨rfl, hd⟩ | ⟨before', rfl, hd⟩
    · obtain ⟨rfl, rfl⟩ := List.cons.inj hd
      simpa using he
    · simpa using hrest before' d after hd

/-- A property of the entry alone holds of every member. -/
theorem eachValidAfter_const {α : Type} {p : α → Prop} {done l : List α} :
    EachValidAfter (fun _ e => p e) done l ↔ ∀ e ∈ l, p e := by
  induction l generalizing done with
  | nil => simp [eachValidAfter_nil]
  | cons e rest ih => rw [eachValidAfter_cons, ih, List.forall_mem_cons]

/-- `read done x rest` reads `rest` from the state `x`, the entries `done` having been read: an entry that meets `P` lets it go
on, and one that does not is the error `err` gives it. -/
structure ReadsInOrder {α σ τ : Type} (read : List α → σ → List α → Except LaunchError τ) (P : List α → α → Prop)
    (err : α → LaunchError) : Prop where
  nil : ∀ done x, ∃ y, read done x [] = .ok y
  valid : ∀ done x e rest, P done e → ∃ y f, read done x (e :: rest) = (read (done ++ [e]) y rest).map f
  invalid : ∀ done x e rest, ¬ P done e → read done x (e :: rest) = .error (err e)

section
variable {α σ τ : Type} {read : List α → σ → List α → Except LaunchError τ} {P : List α → α → Prop}
  {err : α → LaunchError}

theorem ReadsInOrder.ok_iff (h : ReadsInOrder read P err) (done : List α) (x : σ) (l : List α) :
    (∃ y, read done x l = .ok y) ↔ EachValidAfter P done l := by
  induction l generalizing done x with
  | nil => exact iff_of_true (h.nil done x) (eachValidAfter_nil P done)
  | cons e rest ih =>
    rw [eachValidAfter_cons]
    by_cases he : P done e
    · obtain ⟨y, f, hstep⟩ := h.valid done x e rest he
      rw [hstep, ← ih (done ++ [e]) y, and_iff_right he]
      cases read (done ++ [e]) y rest <;> simp [Except.map]
    · simp [h.invalid done x e rest he, he]

theorem ReadsInOrder.first_error (h : ReadsInOrder read P err) {done : List α} (x : σ) {before : List α} {e : α}
    (after : List α) (hbefore : EachValidAfter P done before) (he : ¬ P (done ++ before) e) :
    read done x (before ++ e :: after) = .error (err e) := by
  induction before generalizing done x with
  | nil => exact h.invalid done x e after (by simpa using he)
  | cons d before ih =>
    obtain ⟨hd, hbefore⟩ := eachValidAfter_cons.mp hbefore
    obtain ⟨y, f, hstep⟩ := h.valid done x d (before ++ e :: after) hd
    rw [List.cons_append, hstep, ih y hbefore (by simpa using he)]
    rfl

end

/-! ### The three readers -/

theorem checkProgram_readsInOrder :
    ReadsInOrder (fun _ (_ : Unit) rest => checkProgram rest) (fun _ r => RecordValid r) recordError where
  nil _ _ := ⟨[], rfl⟩
  valid _ _ r rest hr := by
    obtain ⟨i, hi⟩ := checkRecord_of_valid hr
    refine ⟨(), (i :: ·), ?_⟩
    simp only [checkProgram, hi]
    cases checkProgram rest <;> rfl
  invalid _ _ r rest hr := by simp only [checkProgram, checkRecord_of_not_valid hr]

/-- The keys that the model keeps of the entries read, the latest first. -/
def keysOf {β : Type} (entries : List (Int × β)) : List Int := (entries.map Prod.fst).reverse

theorem keysOf_concat {β : Type} (entries : List (Int × β)) (e : Int × β) :
    keysOf (entries ++ [e]) = e.1 :: keysOf entries := by
  simp [keysOf]

theorem not_mem_keysOf {β : Type} {entries : List (Int × β)} {k : Int} :
    k ∉ keysOf entries ↔ ∀ d ∈ entries, d.1 ≠ k := by
  simp only [keysOf, List.mem_reverse, List.mem_map, not_exists, not_and, ne_eq]

theorem checkRegEntry_isSome_iff (done : List (Int × Option Int)) (e : Int × Option Int) :
    (∃ p, checkRegEntry (keysOf done) e.1 e.2 = some p) ↔ RegEntryValid done e := by
  simp only [Prod.exists, checkRegEntry_eq_some, not_mem_keysOf]
  constructor
  · rintro ⟨r, -, hr, hnew, n, hn, hrange, -⟩
    have := r.isLt
    exact ⟨by omega, by omega, ⟨n, hn, hrange⟩, hnew⟩
  · rintro ⟨hlow, hhigh, ⟨n, hn, hrange⟩, hnew⟩
    exact ⟨⟨e.1.toNat, by omega⟩, _, (Int.toNat_of_nonneg hlow).symm, hnew, n, hn, hrange, rfl⟩

theorem initRegisters_readsInOrder :
    ReadsInOrder (fun done x rest => initRegisters (keysOf done) x rest) RegEntryValid
      (fun e => .fault (.init (.regEntry e.1 e.2))) where
  nil _ x := ⟨x, rfl⟩
  valid done x e rest he := by
    obtain ⟨⟨r, w⟩, hp⟩ := (checkRegEntry_isSome_iff done e).mpr he
    refine ⟨if r = 0 then x else x.set r w, id, ?_⟩
    simp only [initRegisters, hp, keysOf_concat]
    rw [Except.map_id]
    rfl
  invalid done x e rest he := by
    rw [← checkRegEntry_isSome_iff] at he
    have hnone : checkRegEntry (keysOf done) e.1 e.2 = none :=
      Option.eq_none_iff_forall_ne_some.mpr fun p hp => he ⟨p, hp⟩
    simp only [initRegisters, hnone]

theorem memEntryCheck_iff (cfg : Config) (done : List (Int × Int)) (e : Int × Int) :
    (decide (e.1 % 8 = 0 ∧ (cfg.codeBytes : Int) ≤ e.1 ∧ e.1 < cfg.memBytes) && validValue e.2 &&
      !(keysOf done).contains e.1) = true ↔ MemEntryValid cfg done e := by
  simp only [Bool.and_eq_true, decide_eq_true_iff, validValue_iff, Bool.not_eq_true', List.contains_eq_mem,
    decide_eq_false_iff_not, not_mem_keysOf, MemEntryValid, Int.dvd_iff_emod_eq_zero, and_assoc]

theorem initMemory_readsInOrder (cfg : Config) :
    ReadsInOrder (fun done m rest => initMemory cfg (keysOf done) m rest) (MemEntryValid cfg)
      (fun e => .fault (.init (.memEntry e.1 e.2))) where
  nil _ m := ⟨m, rfl⟩
  valid done m e rest he := by
    refine ⟨Memory.writeWord m e.1.toNat (BitVec.ofInt 64 e.2), id, ?_⟩
    simp only [initMemory, if_pos ((memEntryCheck_iff cfg done e).mpr he), keysOf_concat]
    rw [Except.map_id]
    rfl
  invalid done m e rest he := by
    simp only [initMemory, if_neg (mt (memEntryCheck_iff cfg done e).mp he)]

theorem checkProgram_ok_iff (p : List RawRecord) : (∃ q, checkProgram p = .ok q) ↔ ∀ r ∈ p, RecordValid r :=
  (checkProgram_readsInOrder.ok_iff [] () p).trans eachValidAfter_const

theorem initRegisters_ok_iff (x : Vector Word 32) (l : List (Int × Option Int)) :
    (∃ y, initRegisters [] x l = .ok y) ↔ RegInitValid l :=
  initRegisters_readsInOrder.ok_iff [] x l

theorem initMemory_ok_iff (cfg : Config) (m : Memory) (l : List (Int × Int)) :
    (∃ y, initMemory cfg [] m l = .ok y) ↔ MemInitValid cfg l :=
  (initMemory_readsInOrder cfg).ok_iff [] m l

/-! ### The launch (R600) -/

/-- The outcome that an error of the reset sequence is. -/
def LaunchError.outcome : LaunchError → Host.Outcome State Fault Refusal
  | .fault r => .fault r
  | .refused r => .refused r

theorem launch_of_error {l : LaunchInput} {e : LaunchError} (h : resetSequence l = .error e) : launch l = e.outcome := by
  cases e <;> simp only [launch, h] <;> rfl

theorem launch_next_iff (l : LaunchInput) : (∃ s, launch l = .next s) ↔ ∃ s, resetSequence l = .ok s := by
  cases h : resetSequence l with
  | ok s => simp [launch, h]
  | error e => cases e <;> simp [launch_of_error h, LaunchError.outcome]

/-- The reset sequence ends exactly when each of its four checks passes. -/
theorem resetSequence_ok_iff (l : LaunchInput) :
    (∃ s, resetSequence l = .ok s) ↔
      firstFailingCheck l.cfg l.program.length = none ∧ (∃ p, checkProgram l.program = .ok p) ∧
        (∃ x, initRegisters [] (Vector.replicate 32 0) l.regInit = .ok x) ∧
        ∃ m, initMemory l.cfg [] [] l.memInit = .ok m := by
  unfold resetSequence
  cases firstFailingCheck l.cfg l.program.length with
  | some c => simp
  | none =>
    cases checkProgram l.program with
    | error e => simp
    | ok p =>
      cases initRegisters [] (Vector.replicate 32 0) l.regInit with
      | error e => simp
      | ok x => cases initMemory l.cfg [] [] l.memInit <;> simp

theorem launch_of_config_error {l : LaunchInput} {c : ConfigCheck}
    (h : firstFailingCheck l.cfg l.program.length = some c) : launch l = .fault (.config (.check c)) :=
  launch_of_error (e := .fault _) (by simp only [resetSequence, h])

section
variable {l : LaunchInput} {e : LaunchError}

theorem launch_of_record_error (hcfg : ConfigValid l.cfg l.program.length) (h : checkProgram l.program = .error e) :
    launch l = e.outcome :=
  launch_of_error (by simp only [resetSequence, (firstFailingCheck_eq_none _ _).mpr hcfg, h])

theorem launch_of_register_error (hcfg : ConfigValid l.cfg l.program.length) (hprog : ∀ r ∈ l.program, RecordValid r)
    (h : initRegisters [] (Vector.replicate 32 0) l.regInit = .error e) : launch l = e.outcome := by
  obtain ⟨p, hp⟩ := (checkProgram_ok_iff _).mpr hprog
  exact launch_of_error (by simp only [resetSequence, (firstFailingCheck_eq_none _ _).mpr hcfg, hp, h])

theorem launch_of_memory_error (hcfg : ConfigValid l.cfg l.program.length) (hprog : ∀ r ∈ l.program, RecordValid r)
    (hregs : RegInitValid l.regInit) (h : initMemory l.cfg [] [] l.memInit = .error e) : launch l = e.outcome := by
  obtain ⟨p, hp⟩ := (checkProgram_ok_iff _).mpr hprog
  obtain ⟨x, hx⟩ := (initRegisters_ok_iff (Vector.replicate 32 0) _).mpr hregs
  exact launch_of_error (by simp only [resetSequence, (firstFailingCheck_eq_none _ _).mpr hcfg, hp, hx, h])

end

/-- Settles O7: each of the four checks passes exactly on its condition of the spec. -/
theorem launchAcceptsExactlyValidInputs : Obligations.LaunchAcceptsExactlyValidInputs := by
  intro l
  rw [launch_next_iff, resetSequence_ok_iff, firstFailingCheck_eq_none, checkProgram_ok_iff, initRegisters_ok_iff,
    initMemory_ok_iff]

/-- Settles O8: the failing check of R13 is the first found, and each list stops at its first entry that is not valid. -/
theorem launchStopsAtTheFirstInvalidInput : Obligations.LaunchStopsAtTheFirstInvalidInput := by
  intro l
  refine ⟨fun c hfails hearlier => launch_of_config_error (firstFailingCheck_eq_some hfails hearlier), fun hcfg =>
    ⟨fun before r after hsplit hbefore => ?_, fun hprog =>
      ⟨fun before e after hsplit hbefore he => ?_, fun hregs before e after hsplit hbefore he => ?_⟩⟩⟩
  · have hrecord (hr : ¬ RecordValid r) : launch l = (recordError r).outcome := by
      refine launch_of_record_error hcfg ?_
      rw [hsplit]
      exact checkProgram_readsInOrder.first_error () after
        (eachValidAfter_const (done := []).mpr hbefore) hr
    refine ⟨fun name hop => ?_, fun op hop hfits => ?_⟩
    · rw [hrecord (not_recordValid_of_unknown hop), recordError_unknown hop]
      rfl
    · rw [hrecord (mt (recordValid_iff_of_known hop).mp hfits), recordError_known hop]
      rfl
  · refine launch_of_register_error (e := .fault (.init (.regEntry e.1 e.2))) hcfg hprog ?_
    rw [hsplit]
    exact initRegisters_readsInOrder.first_error (done := []) _ after hbefore he
  · refine launch_of_memory_error (e := .fault (.init (.memEntry e.1 e.2))) hcfg hprog hregs ?_
    rw [hsplit]
    exact (initMemory_readsInOrder l.cfg).first_error (done := []) _ after hbefore he

end Sys2Proof.Machine
end

section
/-! PROOFS. DIV, DIVU, REM and REMU away from a zero divisor and the signed overflow (R15, R310 to R313): the model's
`tdiv` and `trem` are `BitVec.sdiv` and `BitVec.srem` there, so their results are in range without an argument of its own. -/

namespace Sys2Proof.Machine

/-! ### The four results as numbers -/

theorem divOverflows_eq_false {a b : Word} (hb : b ≠ 0) (hov : ¬ (a.toInt = -2 ^ 63 ∧ b.toInt = -1)) :
    divOverflows a b = false := by
  rw [divOverflows, signedDivisor, if_neg hb, decide_eq_false_iff_not]
  norm_num at hov ⊢
  exact hov

theorem toInt_divResult {a b : Word} (hb : b ≠ 0) (hov : ¬ (a.toInt = -2 ^ 63 ∧ b.toInt = -1)) :
    (divResult a b).toInt = a.toInt.tdiv b.toInt := by
  have hne : a ≠ BitVec.intMin 64 ∨ b ≠ -1#64 := by
    by_contra h
    push Not at h
    obtain ⟨rfl, rfl⟩ := h
    exact hov ⟨by decide, by decide⟩
  rw [divResult, signedDivisor, if_neg hb, tdiv, ← BitVec.toInt_sdiv_of_ne_or_ne a b hne, BitVec.ofInt_toInt]

theorem toInt_remResult {a b : Word} (hb : b ≠ 0) : (remResult a b).toInt = a.toInt.tmod b.toInt := by
  rw [remResult, signedDivisor, if_neg hb, trem, tdiv, ← Int.tmod_def, ← BitVec.toInt_srem, BitVec.ofInt_toInt]

theorem toNat_divuResult {a b : Word} (hb : b ≠ 0) : (divuResult a b).toNat = a.toNat / b.toNat := by
  rw [divuResult, unsignedDivisor, if_neg hb, ← BitVec.toNat_udiv, BitVec.ofNat_toNat, BitVec.setWidth_eq]

theorem toNat_remuResult {a b : Word} (hb : b ≠ 0) : (remuResult a b).toNat = a.toNat % b.toNat := by
  rw [remuResult, unsignedDivisor, if_neg hb, ← BitVec.toNat_umod, BitVec.ofNat_toNat, BitVec.setWidth_eq]

/-! ### The remainder of R15 -/

theorem natAbs_tmod_lt (n : Int) {d : Int} (hd : d ≠ 0) : (n.tmod d).natAbs < d.natAbs := by
  rw [Int.natAbs_tmod]
  exact Nat.mod_lt _ (Int.natAbs_pos.mpr hd)

/-- The remainder has the sign of the dividend, or is 0. -/
theorem mul_tmod_nonneg (n d : Int) : 0 ≤ n * n.tmod d := by
  rcases Int.le_total 0 n with hn | hn
  · exact mul_nonneg hn (Int.tmod_nonneg d hn)
  · have hr : 0 ≤ (-n).tmod d := Int.tmod_nonneg d (by omega)
    rw [Int.neg_tmod] at hr
    exact mul_nonneg_of_nonpos_of_nonpos hn (by omega)

/-! ### EX completion of a division -/

/-- With a divisor other than 0 no counter moves, so the result is all that a division leaves. -/
theorem exec_division_of_ne_zero {i : Instr} {s : State} {I : Record} {v : Word} (hi : isDivision i = true)
    (hx : AtExecute s I) (hb : I.rs2Val ≠ 0) (hv : computeOf s.cfg.divOverflow i I = setResult v I) :
    exec i s = .next (resultDone s I v) := by
  obtain ⟨hstage, exit, hfu⟩ := hx
  rw [exec_execute hstage, if_pos hi, completeDivision_busy hfu, if_neg hb, hv]
  rfl

theorem computeSignedDivision_of_not_overflow (f : Word → Word → Word) (w : Word) (policy : DivOverflow) {I : Record}
    (h : divOverflows I.rs1Val I.rs2Val = false) :
    computeSignedDivision f w policy I = setResult (f I.rs1Val I.rs2Val) I :=
  if_neg (Bool.not_eq_true _ ▸ h)

/-- Settles O12: each result is `Int.tdiv`, `Int.tmod` or the quotient and remainder on `Nat`. -/
theorem divisionResults : Obligations.DivisionResults := by
  intro rd rs1 rs2 s I hx hb
  have hd : I.rs2Val.toInt ≠ 0 := fun h => hb (BitVec.eq_of_toInt_eq h)
  refine ⟨fun hov => ?_, ?_, ?_⟩
  · have hno := divOverflows_eq_false hb hov
    refine ⟨⟨_, exec_division_of_ne_zero rfl hx hb (computeSignedDivision_of_not_overflow divResult _ _ hno), ?_⟩,
      ⟨_, exec_division_of_ne_zero rfl hx hb (computeSignedDivision_of_not_overflow remResult _ _ hno), ?_⟩⟩
    · rw [toInt_divResult hb hov]
      exact ⟨_, (Int.mul_tdiv_add_tmod _ _).symm, natAbs_tmod_lt _ hd, mul_tmod_nonneg _ _⟩
    · rw [toInt_remResult hb]
      exact ⟨_, (Int.mul_tdiv_add_tmod _ _).symm, natAbs_tmod_lt _ hd, mul_tmod_nonneg _ _⟩
  · exact ⟨_, exec_division_of_ne_zero rfl hx hb rfl, toNat_divuResult hb⟩
  · exact ⟨_, exec_division_of_ne_zero rfl hx hb rfl, toNat_remuResult hb⟩

end Sys2Proof.Machine
end

section
/-! PROOFS. What each stage can write (spec/10_state.md R30), and the two ways a property passes through a step: kept by every
stage, or set by writeback and kept by the stages after it. -/

namespace Sys2Proof.Machine

/-! ### The fields a stage can write

`t = memoryWritten t s` says that MEM, having made `t` of `s`, wrote none of the fields that `memoryWritten` takes from `s`. -/

/-- `s` with the fields that writeback can write taken from `t` (R210 to R212). -/
def writebackWritten (t s : State) : State :=
  { s with
    stage := t.stage, status := t.status, pc := t.pc, fetchBlocked := t.fetchBlocked, ifId := t.ifId, idEx := t.idEx
    exMem := t.exMem, memWb := t.memWb, fu := t.fu, x := t.x, dep := t.dep, pstate := t.pstate, counters := t.counters }

/-- `s` with the fields that MEM can write taken from `t` (R213). -/
def memoryWritten (t s : State) : State :=
  { s with
    stage := t.stage, status := t.status, exMem := t.exMem, memWb := t.memWb, cache := t.cache, miss := t.miss
    mem := t.mem, req := t.req, touched := t.touched, counters := { t.counters with retired := s.counters.retired } }

/-- `s` with the fields that EX can write taken from `t` (R204, R214). -/
def executeWritten (t s : State) : State :=
  { s with
    stage := t.stage, idEx := t.idEx, exMem := t.exMem, fu := t.fu
    counters := { t.counters with retired := s.counters.retired } }

/-- `s` with the fields that decode can write taken from `t` (R215). -/
def decodeWritten (t s : State) : State :=
  { s with stage := t.stage, pc := t.pc, ifId := t.ifId, idEx := t.idEx, dep := t.dep }

/-- `s` with the fields that fetch can write taken from `t` (R217). -/
def fetchWritten (t s : State) : State :=
  { s with
    stage := t.stage, status := t.status, pc := t.pc, fetchBlocked := t.fetchBlocked, nextSeq := t.nextSeq
    ifId := t.ifId, counters := { t.counters with retired := s.counters.retired } }

/-- The stage raises a fault or leaves the status: it never drains the block (R202). -/
def KeepsUndrained (s t : State) : Prop := s.status ≠ .drained → t.status ≠ .drained

/-- The writes of MEM. -/
def MemoryFrame (s t : State) : Prop := t = memoryWritten t s ∧ KeepsUndrained s t

theorem MemoryFrame.trans {s t u : State} (h : MemoryFrame s t) (h' : MemoryFrame t u) : MemoryFrame s u := by
  have hw := congrArg (memoryWritten u) h.1
  exact ⟨h'.1.trans hw, fun hs => h'.2 (h.2 hs)⟩

theorem keepsUndrained_raiseFault (c : FaultCode) (info : FaultInfo) (s u : State) :
    KeepsUndrained s (raiseFault c info u) := fun _ => Status.noConfusion

/-! ### Writeback -/

/-- `s` after the commit of the record that leaves `MEM_WB` (R210). -/
def retired (i : Instr) (I : Record) (s : State) : State := retireRecord (rdIndex i) I { s with memWb := none }

/-- What writeback of `i` can make of a state (R210). -/
inductive WritebackResult (i : Instr) (s : State) : State → Prop where
  | empty (hw : s.memWb = none) : WritebackResult i s s
  | fault (I : Record) (c : FaultCode) (hw : s.memWb = some I) (hc : I.pendingFault = some c) :
      WritebackResult i s (raiseFault c (.atPc I.pc) { s with memWb := none })
  | retire (I : Record) (hw : s.memWb = some I) (hb : isBranch i = false) : WritebackResult i s (retired i I s)
  | resolve (I : Record) (hw : s.memWb = some I) (hb : isBranch i = true) :
      WritebackResult i s (resolveBranch I (retired i I s))

theorem exec_writeback_result {i : Instr} {s t : State} (h : s.stage = .writeback) (he : exec i s = .next t) :
    WritebackResult i s t := by
  obtain rfl := Host.Outcome.next.inj ((exec_writeback h i).symm.trans he)
  cases hw : s.memWb with
  | none => rw [writebackRecord_empty hw]; exact .empty hw
  | some I =>
    obtain ⟨c, hc, hr⟩ | ⟨-, hr⟩ :=
      writebackRecord_cases (rd := rdIndex i) (after := if isBranch i then resolveBranch else noResolve) hw <;> rw [hr]
    · exact .fault I c hw hc
    · cases hb : isBranch i
      · exact .retire I hw hb
      · exact .resolve I hw hb

theorem writebackStage_result {s t : State} (h : writebackStage s = .next t) :
    ∃ i, (∀ I, s.memWb = some I → I.instr = i) ∧ WritebackResult i (enterStage .writeback s) t := by
  unfold writebackStage at h
  cases hw : s.memWb with
  | none =>
    simp only [hw, Host.Outcome.next.injEq] at h
    subst h
    exact ⟨noOp, by simp, .empty hw⟩
  | some I =>
    simp only [hw] at h
    exact ⟨I.instr, by simp, exec_writeback_result rfl h⟩

theorem retired_shape (i : Instr) (I : Record) (s : State) :
    ∃ x dep, retired i I s = { s with
      memWb := none, x := x, dep := dep, counters := { s.counters with retired := s.counters.retired + 1 } } :=
  retireRecord_shape (rdIndex i) I { s with memWb := none }

theorem retired_writes (i : Instr) (I : Record) (s : State) :
    retired i I s = writebackWritten (retired i I s) s ∧ (retired i I s).status = s.status ∧
      (retired i I s).memWb = none ∧ (retired i I s).counters.retired = s.counters.retired + 1 := by
  obtain ⟨x, dep, h⟩ := retired_shape i I s
  rw [h]
  exact ⟨rfl, rfl, rfl, rfl⟩

theorem resolveBranch_writes (I : Record) (s : State) :
    resolveBranch I s = writebackWritten (resolveBranch I s) s ∧ (resolveBranch I s).status = s.status ∧
      (s.memWb = none → (resolveBranch I s).memWb = none) ∧
      (resolveBranch I s).counters.retired = s.counters.retired := by
  obtain ⟨p, b, ⟨-, h⟩ | ⟨-, h⟩⟩ := resolveBranch_cases I s <;> rw [h] <;> exact ⟨rfl, rfl, by simp, rfl⟩

/-- Writeback empties `MEM_WB`, retires at most one record, and writes only what `writebackWritten` names. -/
theorem WritebackResult.frame {i : Instr} {s t : State} (h : WritebackResult i s t) :
    t = writebackWritten t s ∧ KeepsUndrained s t ∧ t.memWb = none ∧
      (t.counters.retired = s.counters.retired ∨ t.counters.retired = s.counters.retired + 1) := by
  cases h with
  | empty hw => exact ⟨rfl, id, hw, .inl rfl⟩
  | fault I c _ _ => exact ⟨rfl, keepsUndrained_raiseFault _ _ _ _, rfl, .inl rfl⟩
  | retire I _ _ =>
    obtain ⟨hr, hs, hm, hc⟩ := retired_writes i I s
    exact ⟨hr, fun h => hs ▸ h, hm, .inr hc⟩
  | resolve I _ _ =>
    obtain ⟨hr, hs, hm, hc⟩ := retired_writes i I s
    obtain ⟨hr', hs', hm', hc'⟩ := resolveBranch_writes I (retired i I s)
    have hw := congrArg (writebackWritten (resolveBranch I (retired i I s))) hr
    exact ⟨hr'.trans hw, fun h => by rwa [hs', hs], hm' hm, .inr (hc'.trans hc)⟩

theorem writebackStage_frame {s t : State} (h : writebackStage s = .next t) :
    t = writebackWritten t s ∧ KeepsUndrained s t ∧ t.memWb = none ∧
      (t.counters.retired = s.counters.retired ∨ t.counters.retired = s.counters.retired + 1) := by
  obtain ⟨i, -, hr⟩ := writebackStage_result h
  exact hr.frame

/-! ### MEM -/

theorem passMemory_frame (s : State) : MemoryFrame s (passMemory s) := by
  obtain h | ⟨I, -, -, h⟩ := passMemory_cases s <;> rw [h] <;> exact ⟨rfl, id⟩

theorem loadBlock_frame (a : Nat) (pc : Word) (s : State) : MemoryFrame s (loadBlock a pc s) := by
  obtain ⟨-, h⟩ | ⟨-, h⟩ | ⟨-, -, -, -, h⟩ := loadBlock_cases a pc s <;> rw [h]
  · exact ⟨rfl, keepsUndrained_raiseFault _ _ _ _⟩
  · exact ⟨rfl, keepsUndrained_raiseFault _ _ _ _⟩
  · exact ⟨rfl, id⟩

theorem cacheAccess_frame (ap : Apply) (I : Record) (s : State) : MemoryFrame s (cacheAccess ap I s) := by
  obtain ⟨-, h⟩ | ⟨way, b, -, -, -, h⟩ | ⟨-, -, h⟩ := cacheAccess_cases ap I s <;> rw [h]
  · exact ⟨rfl, keepsUndrained_raiseFault _ _ _ _⟩
  · exact ⟨rfl, id⟩
  · exact MemoryFrame.trans (t := { s with
      counters := { s.counters with misses := s.counters.misses + 1 }, miss := some I.seq }) ⟨rfl, id⟩
      (loadBlock_frame _ _ _)

theorem issueAccess_frame (ap : Apply) (I : Record) (s : State) : MemoryFrame s (issueAccess ap I s) := by
  obtain ⟨-, h⟩ | ⟨-, h⟩ := issueAccess_cases ap I s <;> rw [h]
  · exact ⟨rfl, id⟩
  · exact MemoryFrame.trans (t := { s with exMem := some { I with memIssued := true } }) ⟨rfl, id⟩
      (cacheAccess_frame _ _ _)

theorem evictVictim_frame (a : Nat) (s : State) : MemoryFrame s (evictVictim a s) := by
  obtain h | ⟨v, -, -, -, h⟩ := evictVictim_cases a s <;> rw [h] <;> exact ⟨rfl, id⟩

theorem replay_frame (ap : Apply) (a : Nat) (b : Block) (s : State) : MemoryFrame s (replay ap a b s) := by
  obtain ⟨e, c, h⟩ := replay_shape ap a b s
  rw [h]
  exact ⟨rfl, id⟩

theorem handleResponse_frame (ap : Apply) (a : Nat) (d : List Word) (s : State) :
    MemoryFrame s (handleResponse ap a d s) := by
  have hinstall (u : State) (b : Block) : MemoryFrame u (setBlock u a 0 b) := ⟨rfl, id⟩
  have hclear (u : State) : MemoryFrame u { u with miss := none } := ⟨rfl, id⟩
  exact (((evictVictim_frame a s).trans (hinstall _ _)).trans (replay_frame ap a _ _)).trans (hclear _)

theorem storeRun_frame (ap : Apply) (s : State) : MemoryFrame s (storeRun ap s) := by
  obtain ⟨-, h⟩ | ⟨a, t, -, -, h⟩ := storeRun_cases ap s <;> rw [h]
  · exact ⟨rfl, id⟩
  · exact MemoryFrame.trans (t := { s with req := none }) ⟨rfl, id⟩ (handleResponse_frame _ _ _ _)

/-- After the access a fault ends the stage, the cache stays busy, or the record moves on (R116, R213). -/
theorem finishAccess_cases (ap : Apply) (s : State) :
    (s.status ≠ .running ∧ finishAccess ap s = s) ∨
    (s.status = .running ∧ (storeRun ap s).miss ≠ none ∧ finishAccess ap s = storeRun ap s) ∨
    (s.status = .running ∧ (storeRun ap s).miss = none ∧ finishAccess ap s = passMemory (storeRun ap s)) := by
  unfold finishAccess
  by_cases hs : s.status = .running
  · rw [if_pos hs]
    cases hm : (storeRun ap s).miss
    · exact .inr (.inr ⟨hs, rfl, by simp [cacheBusy, hm]⟩)
    · exact .inr (.inl ⟨hs, by simp, by simp [cacheBusy, hm]⟩)
  · exact .inl ⟨hs, if_neg hs⟩

theorem accessMemory_some {ap : Apply} {s : State} {I : Record} (h : s.exMem = some I) :
    accessMemory ap s = finishAccess ap (issueAccess ap I s) := by
  unfold accessMemory; rw [h]

theorem accessMemory_empty {ap : Apply} {s : State} (h : s.exMem = none) : accessMemory ap s = s := by
  unfold accessMemory; rw [h]

theorem accessMemory_frame (ap : Apply) (s : State) : MemoryFrame s (accessMemory ap s) := by
  cases hI : s.exMem with
  | none => rw [accessMemory_empty hI]; exact ⟨rfl, id⟩
  | some I =>
    rw [accessMemory_some hI]
    have hissue := issueAccess_frame ap I s
    have hrun := hissue.trans (storeRun_frame ap _)
    obtain ⟨-, h⟩ | ⟨-, -, h⟩ | ⟨-, -, h⟩ := finishAccess_cases ap (issueAccess ap I s) <;> rw [h]
    · exact hissue
    · exact hrun
    · exact hrun.trans (passMemory_frame _)

theorem exec_memory_frame {i : Instr} {s t : State} (h : s.stage = .memory) (he : exec i s = .next t) :
    MemoryFrame s t := by
  obtain ⟨_, _, _, -, hx⟩ | ⟨_, _, _, -, hx⟩ | ⟨-, hx⟩ := exec_memory h i <;>
    obtain rfl := Host.Outcome.next.inj (hx.symm.trans he)
  · exact accessMemory_frame applyLoad s
  · exact accessMemory_frame applyStore s
  · exact passMemory_frame s

theorem memoryStage_frame {s t : State} (h : memoryStage s = .next t) : MemoryFrame s t := by
  have henter : MemoryFrame s (enterStage .memory s) := ⟨rfl, id⟩
  unfold memoryStage at h
  cases hI : s.exMem with
  | none =>
    simp only [hI, Host.Outcome.next.injEq] at h
    exact h ▸ henter
  | some I =>
    simp only [hI] at h
    exact henter.trans (exec_memory_frame rfl h)

/-! ### EX -/

theorem exec_execute_writes {i : Instr} {s t : State} (h : s.stage = .execute) (he : exec i s = .next t) :
    t = executeWritten t s := by
  obtain rfl := Host.Outcome.next.inj ((exec_execute h i).symm.trans he)
  cases hf : s.fu with
  | busy I e =>
    rw [completeDivision_busy hf, completeRecord_busy hf]
    split <;> rfl
  | idle => unfold completeDivision completeRecord; rw [hf, ite_self]; rfl
  | done I => unfold completeDivision completeRecord; rw [hf, ite_self]; rfl

theorem drainUnit_writes (s : State) : drainUnit s = executeWritten (drainUnit s) s := by
  obtain h | ⟨I, -, -, h⟩ := drainUnit_cases s <;> rw [h] <;> rfl

theorem feedUnit_writes (s : State) : feedUnit s = executeWritten (feedUnit s) s := by
  obtain h | ⟨I, -, -, h⟩ := feedUnit_cases s <;> rw [h] <;> rfl

theorem completeStage_writes {s t : State} (h : completeStage s = .next t) : t = executeWritten t s := by
  obtain hc | ⟨I, e, n, -, -, hc⟩ := completeStage_cases s <;>
    obtain rfl := Host.Outcome.next.inj (hc.symm.trans h)
  · rfl
  · rfl

theorem executeStage_writes {s t : State} (h : executeStage s = .next t) : t = executeWritten t s := by
  obtain ⟨c, hc, -, ht⟩ | ⟨hc, -⟩ := andThen_next h
  · obtain rfl := Host.Outcome.next.inj ht
    have hdrain := congrArg (executeWritten (drainUnit c)) (completeStage_writes hc)
    have hfeed := congrArg (executeWritten (feedUnit (drainUnit c))) ((drainUnit_writes c).trans hdrain)
    exact (feedUnit_writes _).trans hfeed
  · exact completeStage_writes hc

/-! ### Decode -/

/-- What decode of `i` can make of a state: nothing, or the record moves to `ID_EX` and is registered as the producer of its `rd`,
`JAL` redirecting `pc` (R206, R207, R215). -/
inductive DecodeResult (i : Instr) (s : State) : State → Prop where
  | wait : DecodeResult i s s
  | move (I J : Record) (pc : Word) (hI : s.ifId = some I) (hseq : J.seq = I.seq) (hinstr : J.instr = I.instr)
      (hissued : J.memIssued = I.memIssued) (hpc : pc = s.pc ∨ ∃ rd imm, i = .jal rd imm ∧ pc = I.pc + byteOffset imm) :
      DecodeResult i s { registerProducer s (rdIndex i) I.seq with idEx := some J, ifId := none, pc := pc }

theorem decodeJump_result (rd : Reg) (imm : Int) (s : State) : DecodeResult (.jal rd imm) s (decodeJump rd imm s) := by
  cases hI : s.ifId with
  | none => rw [decodeJump_empty hI]; exact .wait
  | some I =>
    rw [decodeJump_some hI]
    exact .move I { withOperands I (0, 0) with target := I.pc + byteOffset imm } _ hI rfl rfl rfl (.inr ⟨rd, imm, rfl, rfl⟩)

theorem decodeRecord_result (i : Instr) (s : State) :
    DecodeResult i s (decodeRecord (rdIndex i) (rs1Index i) (rs2Index i) s) := by
  cases hI : s.ifId with
  | none => rw [decodeRecord_empty hI]; exact .wait
  | some I =>
    obtain ⟨-, hx⟩ | ⟨v, -, hx⟩ := decodeRecord_cases (rd := rdIndex i) (rs1 := rs1Index i) (rs2 := rs2Index i) hI <;>
      rw [hx]
    · exact .wait
    · have hmove := DecodeResult.move (i := i) I (withOperands I v) s.pc hI rfl rfl rfl (.inl rfl)
      obtain ⟨dep, hd⟩ := registerProducer_shape s (rdIndex i) I.seq
      rw [hd] at hmove ⊢
      exact hmove

theorem exec_decode_result {i : Instr} {s t : State} (h : s.stage = .decode) (he : exec i s = .next t) :
    DecodeResult i s t := by
  obtain ⟨rd, imm, rfl, hx⟩ | ⟨-, hx⟩ := exec_decode h i <;> obtain rfl := Host.Outcome.next.inj (hx.symm.trans he)
  · exact decodeJump_result rd imm s
  · exact decodeRecord_result i s

theorem decodeStage_result {s t : State} (h : decodeStage s = .next t) :
    t = enterStage .decode s ∨
      ∃ I, s.ifId = some I ∧ s.idEx = none ∧ DecodeResult I.instr (enterStage .decode s) t := by
  unfold decodeStage at h
  cases hI : s.ifId with
  | none => exact .inl (Host.Outcome.next.inj (by simpa only [hI] using h)).symm
  | some I =>
    simp only [hI] at h
    split at h
    case isTrue hd => exact .inr ⟨I, rfl, hd, exec_decode_result rfl h⟩
    case isFalse => exact .inl (Host.Outcome.next.inj h).symm

theorem DecodeResult.writes {i : Instr} {s t : State} (h : DecodeResult i s t) : t = decodeWritten t s := by
  cases h with
  | wait => rfl
  | move I J pc _ _ _ _ _ =>
    obtain ⟨dep, hd⟩ := registerProducer_shape s (rdIndex i) I.seq
    rw [hd]
    rfl

theorem decodeStage_writes {s t : State} (h : decodeStage s = .next t) : t = decodeWritten t s := by
  obtain rfl | ⟨I, -, -, hr⟩ := decodeStage_result h
  · rfl
  · have hwrites := hr.writes
    exact hwrites

/-! ### Fetch -/

/-- Fetch takes an instruction in, raises, or only counts a stall (R217). -/
theorem fetchStage_result {s t : State} (h : fetchStage s = .next t) :
    (∃ n, t = { enterStage .fetch s with counters := { s.counters with stalls := n } }) ∨
    (∃ c info, t = raiseFault c info (enterStage .fetch s)) ∨
    ∃ i, s.ifId = none ∧ exec i (enterStage .fetch s) = .next t := by
  obtain ⟨-, hx⟩ | ⟨-, -, hx⟩ | ⟨-, -, -, hx⟩ | ⟨i, hI, -, -, -, hx⟩ := fetchStage_cases s
  · exact .inl ⟨_, Host.Outcome.next.inj (h.symm.trans hx)⟩
  · exact .inl ⟨s.counters.stalls, Host.Outcome.next.inj (h.symm.trans hx)⟩
  · have ht := Host.Outcome.next.inj (h.symm.trans hx)
    obtain ⟨-, hf⟩ | ⟨-, hf⟩ := fetchInvalid_cases (enterStage .fetch s)
    · exact .inl ⟨s.counters.stalls, ht.trans hf⟩
    · exact .inr (.inl ⟨_, _, ht.trans hf⟩)
  · exact .inr (.inr ⟨i, hI, hx.symm.trans h⟩)

/-- The writes of fetch. -/
def FetchFrame (s t : State) : Prop := t = fetchWritten t s ∧ KeepsUndrained s t

theorem exec_fetch_frame {i : Instr} {s t : State} (h : s.stage = .fetch) (he : exec i s = .next t) :
    FetchFrame s t := by
  obtain rfl := Host.Outcome.next.inj ((exec_fetch h i).symm.trans he)
  cases isBranch i
  · exact ⟨rfl, id⟩
  · obtain ⟨I, pc, hx, -⟩ := fetchBranch_shape i s
    rw [if_pos rfl, hx]
    exact ⟨rfl, id⟩

theorem fetchStage_frame {s t : State} (h : fetchStage s = .next t) : FetchFrame s t := by
  obtain ⟨n, rfl⟩ | ⟨c, info, rfl⟩ | ⟨i, -, he⟩ := fetchStage_result h
  · exact ⟨rfl, id⟩
  · exact ⟨rfl, keepsUndrained_raiseFault _ _ _ _⟩
  · obtain ⟨hwrites, hkeeps⟩ := exec_fetch_frame rfl he
    exact ⟨hwrites, hkeeps⟩

/-! ### The cycle and the step -/

/-- Every stage after writeback, in a running block, keeps `P`; MEM finds `MEM_WB` empty (R210). -/
structure KeptAfterWriteback (P : State → Prop) : Prop where
  memory : ∀ {s t}, s.status = .running → s.memWb = none → P s → memoryStage s = .next t → P t
  execute : ∀ {s t}, s.status = .running → P s → executeStage s = .next t → P t
  decode : ∀ {s t}, s.status = .running → P s → decodeStage s = .next t → P t
  fetch : ∀ {s t}, s.status = .running → P s → fetchStage s = .next t → P t

theorem andThen_keeps {P : State → Prop} {o : Host.Outcome State Fault Refusal}
    {f : State → Host.Outcome State Fault Refusal} (ho : ∀ s, o = .next s → P s)
    (hf : ∀ {s t}, s.status = .running → P s → f s = .next t → P t) (t : State) (h : andThen o f = .next t) : P t := by
  obtain ⟨s, hs, hr, ht⟩ | ⟨ht, -⟩ := andThen_next h
  · exact hf hr (ho s hs) ht
  · exact ho t ht

/-- A cycle is writeback, the other stages, and the tick unless one of them raised (R200). -/
theorem KeptAfterWriteback.cycle {P : State → Prop} (hP : KeptAfterWriteback P) {s t : State}
    (hw : ∀ w, writebackStage s = .next w → P w) (h : cycle s = .next t) :
    (t.status ≠ .running ∧ P t) ∨ ∃ f, f.status = .running ∧ P f ∧ t = tickOver f := by
  have hmem : ∀ m, andThen (writebackStage s) memoryStage = .next m → P m := by
    intro m hm
    obtain ⟨w, hws, hr, ht⟩ | ⟨hws, -⟩ := andThen_next hm
    · obtain ⟨-, -, hempty, -⟩ := writebackStage_frame hws
      exact hP.memory hr hempty (hw w hws) ht
    · exact hw m hws
  have hend := andThen_keeps (andThen_keeps (andThen_keeps hmem hP.execute) hP.decode) hP.fetch
  obtain ⟨f, hf, hr, ht⟩ | ⟨ht, hr⟩ := andThen_next h
  · exact .inr ⟨f, hr, hend f hf, (Host.Outcome.next.inj ht).symm⟩
  · exact .inl ⟨hr, hend t ht⟩

/-- What every stage keeps, and the tick and draining, every step keeps (R200, R202). -/
theorem step_keeps {P : State → Prop} (hP : KeptAfterWriteback P)
    (hwb : ∀ {s t}, s.status = .running → P s → writebackStage s = .next t → P t) (htick : ∀ {s}, P s → P (tickOver s))
    (hdrain : ∀ {s}, P s → P { s with status := .drained }) {s t : State} (hs : P s) (h : step s = .next t) : P t := by
  obtain ⟨hr, -, hx⟩ | ⟨-, -, hx⟩ | ⟨-, hx⟩ | ⟨c, info, -, hx⟩ := step_cases s <;> rw [hx] at h
  · obtain ⟨-, ht⟩ | ⟨f, -, hf, rfl⟩ := hP.cycle (fun w hw => hwb hr hs hw) h
    · exact ht
    · exact htick hf
  · exact Host.Outcome.next.inj h ▸ hdrain hs
  · exact Host.Outcome.next.inj h ▸ hs
  · cases h

end Sys2Proof.Machine
end

section
/-! PROOFS. The end of a run, the tick and the count of retired records (spec/10_state.md R31, R52, R53, spec/40_pipeline.md R200 to
R203): read off the fields that each stage can write. -/

namespace Sys2Proof.Machine

theorem continues_eq_false {s : State} (h : continues s = false) : PipelineEmpty s ∧ s.miss = none ∧ s.tick ≠ 0 := by
  simp only [continues, Bool.or_eq_false_iff, Option.isSome_eq_false_iff, Option.isNone_iff_eq_none, decide_eq_false_iff_not,
    not_not, beq_eq_false_iff_ne] at h
  obtain ⟨⟨⟨⟨⟨⟨htick, hifId⟩, hidEx⟩, hexMem⟩, hmemWb⟩, hfu⟩, hmiss⟩ := h
  exact ⟨⟨hifId, hidEx, hexMem, hmemWb, hfu⟩, hmiss, htick⟩

/-- No stage after writeback drains the block. -/
theorem undrained_afterWriteback : KeptAfterWriteback fun s => s.status ≠ .drained where
  memory _ _ hs h := (memoryStage_frame h).2 hs
  execute _ hs h := by rw [executeStage_writes h]; exact hs
  decode _ hs h := by rw [decodeStage_writes h]; exact hs
  fetch _ hs h := (fetchStage_frame h).2 hs

theorem cycle_undrained {s t : State} (hs : s.status = .running) (h : cycle s = .next t) : t.status ≠ .drained := by
  have hwb : ∀ w, writebackStage s = .next w → w.status ≠ .drained := fun w hw =>
    (writebackStage_frame hw).2.1 (by simp [hs])
  obtain ⟨-, ht⟩ | ⟨f, -, hf, rfl⟩ := undrained_afterWriteback.cycle hwb h
  · exact ht
  · exact hf

/-- Settles O42: a step drains only where `continues` is false, since no cycle drains. -/
theorem runsEndDrainedOrFaulted : Obligations.RunsEndDrainedOrFaulted := by
  intro s
  refine ⟨fun hr hc => by simp [step, runLoop, hr, hc], fun t hr h hd => ?_, fun hd => by simp [step, runLoop, hd],
    fun code info hf => by simp [step, runLoop, hf]⟩
  obtain ⟨-, -, hx⟩ | ⟨-, hc, hx⟩ | ⟨hn, -⟩ | ⟨_, _, hn, -⟩ := step_cases s
  · exact absurd hd (cycle_undrained hr (hx ▸ h))
  · obtain rfl := Host.Outcome.next.inj (hx.symm.trans h)
    obtain ⟨hempty, hmiss, htick⟩ := continues_eq_false hc
    exact ⟨hempty, hmiss, htick, rfl⟩
  · simp [hr] at hn
  · simp [hr] at hn

/-- `t` is of the same cycle as `s`, and at most one record has retired since. -/
def SameCycle (s t : State) : Prop :=
  t.tick = s.tick ∧ (t.counters.retired = s.counters.retired ∨ t.counters.retired = s.counters.retired + 1)

/-- No stage ticks, and none after writeback retires a record. -/
theorem sameCycle_afterWriteback (s : State) : KeptAfterWriteback (SameCycle s) where
  memory _ _ hs h := by rw [(memoryStage_frame h).1]; exact hs
  execute _ hs h := by rw [executeStage_writes h]; exact hs
  decode _ hs h := by rw [decodeStage_writes h]; exact hs
  fetch _ hs h := by rw [(fetchStage_frame h).1]; exact hs

/-- Settles O44: writeback retires at most one record, and only the end of the cycle ticks. -/
theorem oneCycleOneTick : Obligations.OneCycleOneTick := by
  intro s t hr hc h
  have hcycle : cycle s = .next t := by simpa [step, runLoop, hr, hc] using h
  have hwb : ∀ w, writebackStage s = .next w → SameCycle s w := by
    intro w hw
    obtain ⟨hwrites, -, -, hretired⟩ := writebackStage_frame hw
    exact ⟨(congrArg State.tick hwrites).trans rfl, hretired⟩
  obtain ⟨hn, htick, hretired⟩ | ⟨f, hf, ⟨htick, hretired⟩, rfl⟩ := (sameCycle_afterWriteback s).cycle hwb hcycle
  · exact ⟨fun h => absurd h hn, fun _ => htick, hretired⟩
  · exact ⟨fun _ => congrArg (· + 1) htick, fun hn => absurd hf hn, hretired⟩

end Sys2Proof.Machine
end

section
/-! PROOFS. Register 0, and the configuration with what it fixes of fetch control and the predictor, through every stage
(spec/10_state.md R30, R33, R45, R50, R51). -/

namespace Sys2Proof.Machine

/-! ### What a commit writes (R33, R208, R210) -/

/-- A commit writes `rd`, and never `x0`. -/
theorem commitResult_x {rd r : Reg} (h : r ≠ rd ∨ r = 0) (I : Record) (s : State) :
    (commitResult rd I s).x.get r = s.x.get r := by
  by_cases hrd : rd = 0
  · rw [hrd, commitResult_zero]
  · have hne : rd ≠ r := fun e => h.elim (fun hr => hr e.symm) fun hr => hrd (e.trans hr)
    obtain ⟨dep, hc⟩ := clearProducer_shape (writeReg s rd I.rdVal) rd I.seq
    rw [commitResult_of_ne hrd, hc, writeReg_of_ne hrd]
    exact (vector_get_set _ _ _ _).trans (if_neg hne)

/-- A commit clears the entry of `rd` if it names the record, and no other. -/
theorem commitResult_dep (rd r : Reg) (I : Record) (s : State) :
    (commitResult rd I s).dep.get r =
      if rd = r ∧ rd ≠ 0 ∧ s.dep.get rd = some I.seq then none else s.dep.get r := by
  by_cases hrd : rd = 0
  · rw [hrd, commitResult_zero, if_neg (by simp)]
  · rw [commitResult_of_ne hrd, writeReg_of_ne hrd, clearProducer_dep]
    simp [hrd]

theorem retired_x {i : Instr} {r : Reg} (h : r ≠ rdIndex i ∨ r = 0) (I : Record) (s : State) :
    (retired i I s).x.get r = s.x.get r := commitResult_x h I { s with memWb := none }

theorem retired_dep (i : Instr) (r : Reg) (I : Record) (s : State) :
    (retired i I s).dep.get r =
      if rdIndex i = r ∧ rdIndex i ≠ 0 ∧ s.dep.get (rdIndex i) = some I.seq then none else s.dep.get r :=
  commitResult_dep (rdIndex i) r I { s with memWb := none }

theorem resolveBranch_x (I : Record) (s : State) : (resolveBranch I s).x = s.x := by
  obtain ⟨p, b, ⟨-, h⟩ | ⟨-, h⟩⟩ := resolveBranch_cases I s
  · rw [h]
  · rw [h, flush_x]

/-- Resolution empties the dependency table or leaves it (R211, R212). -/
theorem resolveBranch_dep (I : Record) (s : State) (r : Reg) :
    (resolveBranch I s).dep.get r = none ∨ (resolveBranch I s).dep.get r = s.dep.get r := by
  obtain ⟨p, b, ⟨-, h⟩ | ⟨-, h⟩⟩ := resolveBranch_cases I s <;> rw [h]
  · exact .inr rfl
  · exact .inl (vector_get_replicate none r)

/-! ### Register 0 (R33, R45) -/

theorem zeroHardwired_retired {s : State} (hs : ZeroHardwired s) (i : Instr) (I : Record) :
    ZeroHardwired (retired i I s) := by
  obtain ⟨hx, hdep⟩ := hs
  refine ⟨(retired_x (.inr rfl) I s).trans hx, ?_⟩
  rw [retired_dep, hdep, ite_self]

theorem zeroHardwired_resolveBranch {s : State} (hs : ZeroHardwired s) (I : Record) :
    ZeroHardwired (resolveBranch I s) := by
  obtain ⟨hx, hdep⟩ := hs
  exact ⟨by rw [resolveBranch_x, hx], (resolveBranch_dep I s 0).elim id (·.trans hdep)⟩

theorem zeroHardwired_writeback {s t : State} (hs : ZeroHardwired s) (h : writebackStage s = .next t) :
    ZeroHardwired t := by
  obtain ⟨i, -, hr⟩ := writebackStage_result h
  have henter : ZeroHardwired (enterStage .writeback s) := hs
  cases hr with
  | empty _ => exact henter
  | fault I c _ _ => exact henter
  | retire I _ _ => exact zeroHardwired_retired henter i I
  | resolve I _ _ => exact zeroHardwired_resolveBranch (zeroHardwired_retired henter i I) I

theorem zeroHardwired_decode {s t : State} (hs : ZeroHardwired s) (h : decodeStage s = .next t) : ZeroHardwired t := by
  obtain ⟨hx, hdep⟩ := hs
  refine ⟨by rw [decodeStage_writes h]; exact hx, ?_⟩
  obtain rfl | ⟨I, -, -, hr⟩ := decodeStage_result h
  · exact hdep
  · cases hr with
    | wait => exact hdep
    | move K J pc _ _ _ _ _ =>
      have hzero : ¬(rdIndex I.instr = 0 ∧ rdIndex I.instr ≠ 0) := fun hc => hc.2 hc.1
      exact (registerProducer_dep _ _ _ _).trans ((if_neg hzero).trans hdep)

theorem zeroHardwired_afterWriteback : KeptAfterWriteback ZeroHardwired where
  memory _ _ hs h := by rw [(memoryStage_frame h).1]; exact hs
  execute _ hs h := by rw [executeStage_writes h]; exact hs
  decode _ hs h := zeroHardwired_decode hs h
  fetch _ hs h := by rw [(fetchStage_frame h).1]; exact hs

/-- Settles O46: commits skip `x0`, and its entry is never registered. -/
theorem zeroRegisterStaysZero : Obligations.ZeroRegisterStaysZero := fun _ _ hs h =>
  step_keeps zeroHardwired_afterWriteback (fun _ => zeroHardwired_writeback) id id hs h

/-! ### Configuration, fetch control and predictor (R30, R50, R51) -/

/-- `t` has the configuration and the program of `s`, and is as well controlled. -/
def ControlKept (s t : State) : Prop :=
  t.cfg = s.cfg ∧ t.program = s.program ∧ (FetchControlled s → FetchControlled t) ∧
    (PredictorConfigured s → PredictorConfigured t)

theorem ControlKept.refl (s : State) : ControlKept s s := ⟨rfl, rfl, id, id⟩

theorem ControlKept.trans {s t u : State} (h : ControlKept s t) (h' : ControlKept t u) : ControlKept s u := by
  obtain ⟨hcfg, hprogram, hfetch, hpredictor⟩ := h
  obtain ⟨hcfg', hprogram', hfetch', hpredictor'⟩ := h'
  exact ⟨hcfg'.trans hcfg, hprogram'.trans hprogram, hfetch' ∘ hfetch, hpredictor' ∘ hpredictor⟩

@[simp] theorem predictorKind_updateDirection (p : PredictorState) (pc : Word) (taken : Bool) :
    predictorKind (updateDirection p pc taken) = predictorKind p := by
  cases p with
  | lastOutcome s => cases taken <;> rfl
  | _ => rfl

@[simp] theorem predictorKind_updateTarget (p : PredictorState) (pc target : Word) :
    predictorKind (updateTarget p pc target) = predictorKind p := by
  cases p <;> rfl

/-- Resolution updates the predictor by its own updates, or unblocks fetch (R211). -/
theorem resolvePrediction_controlKept (I : Record) (s : State) : ControlKept s (resolvePrediction I s) := by
  unfold resolvePrediction
  split
  · refine ⟨rfl, rfl, id, fun hs => ?_⟩
    have hkind : predictorKind s.pstate = s.cfg.predictor := hs
    cases ht : I.taken <;> simpa [PredictorConfigured, ht] using hkind
  · exact ⟨rfl, rfl, fun _ _ => rfl, id⟩

theorem resolveBranch_controlKept (I : Record) (s : State) : ControlKept s (resolveBranch I s) := by
  have hcount (u : State) (c : Counters) : ControlKept u { u with counters := c } := ⟨rfl, rfl, id, id⟩
  have hflush (u : State) (pc : Word) (c : Counters) : ControlKept u { flush u with pc := pc, counters := c } :=
    ⟨rfl, rfl, fun _ _ => rfl, id⟩
  have hpredict (c : Counters) := (hcount s c).trans (resolvePrediction_controlKept I _)
  unfold resolveBranch
  split
  · exact (hpredict _).trans (hflush _ _ _)
  · exact (hpredict _).trans (hcount _ _)

theorem retired_controlKept (i : Instr) (I : Record) (s : State) : ControlKept s (retired i I s) := by
  obtain ⟨x, dep, h⟩ := retired_shape i I s
  rw [h]
  exact ⟨rfl, rfl, id, id⟩

theorem writebackStage_controlKept {s t : State} (h : writebackStage s = .next t) : ControlKept s t := by
  obtain ⟨i, -, hr⟩ := writebackStage_result h
  cases hr with
  | empty _ => exact ControlKept.refl s
  | fault I c _ _ => exact ControlKept.refl s
  | retire I _ _ => exact retired_controlKept i I (enterStage .writeback s)
  | resolve I _ _ => exact (retired_controlKept i I (enterStage .writeback s)).trans (resolveBranch_controlKept I _)

/-- Fetch blocks itself only while speculation is disabled (R219). -/
theorem exec_fetch_controlKept {i : Instr} {s t : State} (h : s.stage = .fetch) (he : exec i s = .next t) :
    ControlKept s t := by
  obtain rfl := Host.Outcome.next.inj ((exec_fetch h i).symm.trans he)
  cases isBranch i
  · exact ⟨rfl, rfl, id, id⟩
  · obtain ⟨I, pc, hx, -⟩ := fetchBranch_shape i s
    rw [if_pos rfl, hx]
    refine ⟨rfl, rfl, fun hs hspec => ?_, id⟩
    have hspec : s.cfg.speculation = true := hspec
    simpa [hspec] using hs hspec

theorem fetchStage_controlKept {s t : State} (h : fetchStage s = .next t) : ControlKept s t := by
  obtain ⟨n, rfl⟩ | ⟨c, info, rfl⟩ | ⟨i, -, he⟩ := fetchStage_result h
  · exact ControlKept.refl s
  · exact ControlKept.refl s
  · have hfetch := exec_fetch_controlKept rfl he
    exact hfetch

theorem controlKept_afterWriteback (s : State) : KeptAfterWriteback (ControlKept s) where
  memory _ _ hs h := by rw [(memoryStage_frame h).1]; exact hs
  execute _ hs h := by rw [executeStage_writes h]; exact hs
  decode _ hs h := by rw [decodeStage_writes h]; exact hs
  fetch _ hs h := hs.trans (fetchStage_controlKept h)

/-- Settles O48: only resolution and fetch write what is controlled, and each as the configuration says. -/
theorem controlStaysConfigured : Obligations.ControlStaysConfigured := fun s _ h =>
  step_keeps (controlKept_afterWriteback s) (fun _ hs hw => hs.trans (writebackStage_controlKept hw)) id id
    (ControlKept.refl s) h

end Sys2Proof.Machine
end

section
/-! PROOFS. The canonical form of memory and touched set, and the cache's shape, through the operations of MEM, the one stage that
writes them (spec/10_state.md R47, R49, spec/20_memory.md R109 to R116). -/

namespace Sys2Proof.Machine

/-! ### What an access does to a record and to a block -/

/-- An access keeps the record's identity and its memory mark, and the block's number of words (R110). -/
def KeepsForm (ap : Apply) : Prop :=
  ∀ cfg I b, (ap cfg I b).1.seq = I.seq ∧ (ap cfg I b).1.instr = I.instr ∧
    (ap cfg I b).1.memIssued = I.memIssued ∧ (ap cfg I b).2.data.length = b.data.length

theorem applyLoad_keepsForm : KeepsForm applyLoad := fun _ _ _ => ⟨rfl, rfl, rfl, rfl⟩

theorem applyStore_keepsForm : KeepsForm applyStore := fun _ _ _ => ⟨rfl, rfl, rfl, List.length_set⟩

/-- MEM does nothing, passes its record, or runs the access of a memory instruction (R213). -/
theorem memoryStage_keepsForm {s t : State} (h : memoryStage s = .next t) :
    (s.exMem = none ∧ t = enterStage .memory s) ∨
    (∃ I, s.exMem = some I ∧ isMemory I.instr = false ∧ t = passMemory (enterStage .memory s)) ∨
    ∃ I ap, s.exMem = some I ∧ isMemory I.instr = true ∧ KeepsForm ap ∧ t = accessMemory ap (enterStage .memory s) := by
  obtain ⟨hI, hx⟩ | ⟨I, hI, hm, hx⟩ | ⟨I, ap, hI, hm, hap, hx⟩ := memoryStage_cases s <;>
    obtain rfl := Host.Outcome.next.inj (hx.symm.trans h)
  · exact .inl ⟨hI, rfl⟩
  · exact .inr (.inl ⟨I, hI, hm, rfl⟩)
  · refine .inr (.inr ⟨I, ap, hI, hm, ?_, rfl⟩)
    obtain ⟨_, _, _, -, rfl⟩ | ⟨_, _, _, -, rfl⟩ := hap
    · exact applyLoad_keepsForm
    · exact applyStore_keepsForm

/-! ### The form -/

/-- `t` has the canonical forms and the cache's shape if `s` has. -/
def FormKept (s t : State) : Prop :=
  (Memory.wf s.mem → Memory.wf t.mem) ∧ (TouchedCanonical s → TouchedCanonical t) ∧ (CacheShaped s → CacheShaped t)

theorem FormKept.refl (s : State) : FormKept s s := ⟨id, id, id⟩

theorem FormKept.trans {s t u : State} (h : FormKept s t) (h' : FormKept t u) : FormKept s u := by
  obtain ⟨hmem, htouched, hcache⟩ := h
  obtain ⟨hmem', htouched', hcache'⟩ := h'
  exact ⟨hmem' ∘ hmem, htouched' ∘ htouched, hcache' ∘ hcache⟩

theorem formKept_setBlock (s : State) (a : Nat) (b : Block) (hb : CacheShaped s → b.data.length = blockWords s.cfg) :
    FormKept s (setBlock s a 0 b) := ⟨id, id, fun hs => cacheShaped_setBlock hs a b (hb hs)⟩

/-- A hit writes the block of way 0, the only one that a lookup finds (R110, R114). -/
theorem formKept_cacheHit {ap : Apply} (hap : KeepsForm ap) {I : Record} {s : State} {way : Nat} {b : Block}
    (hl : lookupWay s I.addr.toNat = some way) (hb : blockAt s I.addr.toNat way = some b) :
    FormKept s (cacheHit ap I way b s) := by
  refine ⟨id, id, fun hs => ?_⟩
  obtain ⟨-, -, -, -, hzero, -⟩ | ⟨hnone, -⟩ := lookupWay_cases hs I.addr.toNat
  · obtain rfl := Option.some.inj (hzero.symm.trans hl)
    rw [blockAt_zero] at hb
    exact cacheShaped_setBlock hs _ _ ((hap s.cfg I b).2.2.2.trans (wayZero_bounds hs hb).2)
  · rw [hl] at hnone
    cases hnone

theorem formKept_loadBlock (a : Nat) (pc : Word) (s : State) : FormKept s (loadBlock a pc s) := by
  obtain ⟨-, h⟩ | ⟨-, h⟩ | ⟨-, -, -, -, h⟩ := loadBlock_cases a pc s <;> rw [h]
  · exact FormKept.refl s
  · exact FormKept.refl s
  · exact ⟨id, fun hs => touchRange_sorted hs, id⟩

theorem formKept_cacheMiss (I : Record) (s : State) : FormKept s (cacheMiss I s) :=
  formKept_loadBlock _ I.pc { s with counters := { s.counters with misses := s.counters.misses + 1 }, miss := some I.seq }

theorem formKept_issueAccess {ap : Apply} (hap : KeepsForm ap) (I : Record) (s : State) :
    FormKept s (issueAccess ap I s) := by
  obtain ⟨-, h⟩ | ⟨-, h⟩ := issueAccess_cases ap I s <;> rw [h]
  · exact FormKept.refl s
  · have hmark : FormKept s { s with exMem := some { I with memIssued := true } } := FormKept.refl s
    refine hmark.trans ?_
    obtain ⟨-, hx⟩ | ⟨way, b, -, hl, hb, hx⟩ | ⟨-, -, hx⟩ :=
      cacheAccess_cases ap { I with memIssued := true } { s with exMem := some { I with memIssued := true } } <;> rw [hx]
    · exact FormKept.refl s
    · exact formKept_cacheHit hap hl hb
    · exact formKept_cacheMiss _ _

theorem formKept_evictVictim (a : Nat) (s : State) : FormKept s (evictVictim a s) := by
  obtain h | ⟨v, -, -, -, h⟩ := evictVictim_cases a s <;> rw [h]
  · exact FormKept.refl s
  · exact ⟨fun hs => Memory.writeBlock_wf hs _ _, id, id⟩

theorem formKept_replay {ap : Apply} (hap : KeepsForm ap) (a : Nat) {b : Block} {s : State}
    (hb : b.data.length = blockWords s.cfg) : FormKept s (replay ap a b s) := by
  have hset (I : Record) (n : Nat) : FormKept s (setBlock s a 0 { (ap s.cfg I b).2 with ts := n }) :=
    formKept_setBlock s a _ fun _ => (hap s.cfg I b).2.2.2.trans hb
  unfold replay
  split
  · split
    · exact (hset _ s.tick).trans (FormKept.refl _)
    · exact FormKept.refl s
  · exact FormKept.refl s

theorem formKept_handleResponse {ap : Apply} (hap : KeepsForm ap) (a : Nat) {d : List Word} {s : State}
    (hd : d.length = blockWords s.cfg) : FormKept s (handleResponse ap a d s) := by
  have hcfg : (evictVictim a s).cfg = s.cfg := by rw [(evictVictim_frame a s).1]; rfl
  have hb : (arrivedBlock (evictVictim a s) a d).data.length = blockWords (evictVictim a s).cfg := by rw [hcfg]; exact hd
  have hinstall := (formKept_evictVictim a s).trans (formKept_setBlock _ a _ fun _ => hb)
  exact (hinstall.trans (formKept_replay hap a hb)).trans (FormKept.refl _)

theorem formKept_storeRun {ap : Apply} (hap : KeepsForm ap) (s : State) : FormKept s (storeRun ap s) := by
  obtain ⟨-, h⟩ | ⟨a, t, -, -, h⟩ := storeRun_cases ap s <;> rw [h]
  · exact FormKept.refl s
  · exact formKept_handleResponse (s := { s with req := none }) hap a (Memory.readBlock_length _ _ _)

theorem formKept_passMemory (s : State) : FormKept s (passMemory s) := by
  obtain h | ⟨I, -, -, h⟩ := passMemory_cases s <;> rw [h] <;> exact FormKept.refl s

theorem formKept_accessMemory {ap : Apply} (hap : KeepsForm ap) {s : State} {I : Record} (hI : s.exMem = some I) :
    FormKept s (accessMemory ap s) := by
  rw [accessMemory_some hI]
  have hissue := formKept_issueAccess hap I s
  have hrun := hissue.trans (formKept_storeRun hap _)
  obtain ⟨-, h⟩ | ⟨-, -, h⟩ | ⟨-, -, h⟩ := finishAccess_cases ap (issueAccess ap I s) <;> rw [h]
  · exact hissue
  · exact hrun
  · exact hrun.trans (formKept_passMemory _)

theorem memoryStage_formKept {s t : State} (h : memoryStage s = .next t) : FormKept s t := by
  obtain ⟨-, rfl⟩ | ⟨I, -, -, rfl⟩ | ⟨I, ap, hI, -, hap, rfl⟩ := memoryStage_keepsForm h
  · exact FormKept.refl s
  · exact formKept_passMemory (enterStage .memory s)
  · exact formKept_accessMemory (s := enterStage .memory s) hap hI

theorem formKept_afterWriteback (s : State) : KeptAfterWriteback (FormKept s) where
  memory _ _ hs h := hs.trans (memoryStage_formKept h)
  execute _ hs h := by rw [executeStage_writes h]; exact hs
  decode _ hs h := by rw [decodeStage_writes h]; exact hs
  fetch _ hs h := by rw [(fetchStage_frame h).1]; exact hs

/-- Settles O47: only MEM writes memory, touched set and cache, and each of its operations keeps their form. -/
theorem memoryAndCacheKeepTheirForm : Obligations.MemoryAndCacheKeepTheirForm := fun s _ h =>
  step_keeps (formKept_afterWriteback s) (fun _ hs hw => by rw [(writebackStage_frame hw).1]; exact hs) id id
    (FormKept.refl s) h

end Sys2Proof.Machine
end

section
/-! PROOFS. What `exec` writes at each stage: registers only at writeback, `pc` only at fetch, at the decode of `JAL` and at the
resolution of a branch (spec/10_state.md R33 to R37), and the record that fetch makes (R40, R217). -/

namespace Sys2Proof.Machine

/-- Settles O24: the part of a non-branch at fetch is `fetchRecord`. -/
theorem fetchCreatesTheRecord : Obligations.FetchCreatesTheRecord := by
  rintro i s ⟨-, hstage, -, -, -⟩ hb
  rw [exec_fetch hstage, hb]
  rfl

theorem exec_x_of_not_writeback {i : Instr} {s t : State} (h : s.stage ≠ .writeback) (he : exec i s = .next t) :
    t.x = s.x := by
  cases hstage : s.stage with
  | writeback => exact absurd hstage h
  | memory => rw [(exec_memory_frame hstage he).1]; rfl
  | execute => rw [exec_execute_writes hstage he]; rfl
  | decode => rw [(exec_decode_result hstage he).writes]; rfl
  | fetch => rw [(exec_fetch_frame hstage he).1]; rfl

theorem WritebackResult.x {i : Instr} {s t : State} (h : WritebackResult i s t) {r : Reg} (hr : r ≠ rdIndex i ∨ r = 0) :
    t.x.get r = s.x.get r := by
  cases h with
  | empty _ => rfl
  | fault I c _ _ => rfl
  | retire I _ _ => exact retired_x hr I s
  | resolve I _ _ => rw [resolveBranch_x]; exact retired_x hr I s

/-- Settles O55: no other stage writes `x`, and the commit writes `rd` alone. -/
theorem onlyWritebackWritesRegisters : Obligations.OnlyWritebackWritesRegisters := by
  intro i s t he
  refine ⟨fun h => exec_x_of_not_writeback h he, fun r hr => ?_⟩
  by_cases hstage : s.stage = .writeback
  · exact (exec_writeback_result hstage he).x hr
  · rw [exec_x_of_not_writeback hstage he]

/-! ### The program counter (R36, R37) -/

/-- Fetch advances `pc`, or a branch predicted taken redirects it (R217, R219, R220). -/
theorem exec_fetch_pc {i : Instr} {s t : State} (h : s.stage = .fetch) (he : exec i s = .next t) :
    t.pc = s.pc + 4 ∨ isBranch i = true ∧ s.cfg.speculation = true ∧ some t.pc = predict s.pstate s.pc := by
  obtain rfl := Host.Outcome.next.inj ((exec_fetch h i).symm.trans he)
  cases hb : isBranch i with
  | false => exact .inl rfl
  | true =>
    rw [if_pos rfl, fetchBranch]
    split
    case isFalse => exact .inl rfl
    case isTrue hspec =>
      rw [predictSpeculative]
      split
      case h_1 target hp => exact .inr ⟨rfl, hspec, hp.symm⟩
      case h_2 => exact .inl rfl

theorem DecodeResult.pc {i : Instr} {s t : State} (h : DecodeResult i s t) :
    t.pc = s.pc ∨ ∃ rd imm I, i = .jal rd imm ∧ s.ifId = some I ∧ t.pc = I.pc + byteOffset imm := by
  cases h with
  | wait => exact .inl rfl
  | move I J pc hI _ _ _ hpc => exact hpc.imp id fun ⟨rd, imm, hi, hjump⟩ => ⟨rd, imm, I, hi, hI, hjump⟩

/-- Resolution redirects `pc` exactly when the target was predicted wrong (R211). -/
theorem resolveBranch_pc (I : Record) (s : State) :
    (resolveBranch I s).pc = s.pc ∨ I.predTarget ≠ I.target ∧ (resolveBranch I s).pc = I.target := by
  obtain ⟨p, b, ⟨-, h⟩ | ⟨hne, h⟩⟩ := resolveBranch_cases I s <;> rw [h]
  · exact .inl rfl
  · exact .inr ⟨hne, rfl⟩

theorem retired_pc (i : Instr) (I : Record) (s : State) : (retired i I s).pc = s.pc := by
  obtain ⟨x, dep, h⟩ := retired_shape i I s
  rw [h]

theorem WritebackResult.pc {i : Instr} {s t : State} (h : WritebackResult i s t) :
    t.pc = s.pc ∨ isBranch i = true ∧ ∃ I, s.memWb = some I ∧ I.predTarget ≠ I.target ∧ t.pc = I.target := by
  cases h with
  | empty _ => exact .inl rfl
  | fault I c _ _ => exact .inl rfl
  | retire I _ _ => exact .inl (retired_pc i I s)
  | resolve I hw hb =>
    obtain hpc | ⟨hne, hpc⟩ := resolveBranch_pc I (retired i I s)
    · exact .inl (hpc.trans (retired_pc i I s))
    · exact .inr ⟨hb, I, hw, hne, hpc⟩

/-- Settles O57, stage by stage. -/
theorem onlyThreeStagesWritePc : Obligations.OnlyThreeStagesWritePc := by
  intro i s t he
  cases hstage : s.stage with
  | fetch => exact .inr (.inl ⟨rfl, exec_fetch_pc hstage he⟩)
  | decode => exact (exec_decode_result hstage he).pc.imp id fun h => .inr (.inl ⟨rfl, h⟩)
  | execute => exact .inl (by rw [exec_execute_writes hstage he]; rfl)
  | memory => exact .inl (by rw [(exec_memory_frame hstage he).1]; rfl)
  | writeback =>
    exact (exec_writeback_result hstage he).pc.imp id fun h => .inr (.inr ⟨rfl, h⟩)

end Sys2Proof.Machine
end

section
/-! PROOFS. Program order, the dependency table and the held miss through every stage (spec/10_state.md R45, R46, spec/40_pipeline.md
R223 to R225).

Order and table read of a record in flight only its handle and its `rd`. As a list, oldest first, these marks do not change while MEM and
EX move records on; writeback takes the first away and decode appends one. -/

namespace Sys2Proof.Machine

/-! ### The marks of the records past decode -/

/-- What order and table read of a record: its handle and its destination. -/
def mark (I : Record) : Nat × Reg := (I.seq, rdIndex I.instr)

/-- The marks of the records past decode, oldest first. -/
def marks (s : State) : List (Nat × Reg) :=
  (s.memWb.toList ++ s.exMem.toList ++ (FuState.record? s.fu).toList ++ s.idEx.toList).map mark

/-- The handles in flight, oldest first. -/
def handles (s : State) : List Nat := (marks s).map Prod.fst ++ s.ifId.toList.map Record.seq

/-- The table `dep` names, for each register but `x0`, the youngest mark of a list (R45, R46). -/
def NamesYoungest (dep : Vector (Option Nat) 32) (l : List (Nat × Reg)) : Prop :=
  (∀ i q, dep.get i = some q → i ≠ 0 ∧ (q, i) ∈ l) ∧ ∀ q i, (q, i) ∈ l → i ≠ 0 → ∃ p, dep.get i = some p ∧ q ≤ p

/-- Handles rise and are older than the next (R41, R225). -/
def RiseBelow (l : List Nat) (next : Nat) : Prop := l.Pairwise (· < ·) ∧ ∀ q ∈ l, q < next

/-- Order and table, read off the marks. -/
def MarksOrdered (s : State) : Prop := RiseBelow (handles s) s.nextSeq ∧ NamesYoungest s.dep (marks s)

theorem handles_eq (s : State) : handles s = (recordsInFlight s).map Record.seq := by
  simp only [handles, marks, recordsInFlight, List.map_append, List.map_map]
  rfl

theorem programOrder_iff (s : State) : ProgramOrder s ↔ RiseBelow (handles s) s.nextSeq := by
  rw [handles_eq, ProgramOrder, RiseBelow, List.pairwise_map, List.forall_mem_map]

theorem mem_marks {s : State} {m : Nat × Reg} : m ∈ marks s ↔ ∃ P ∈ producers s, mark P = m := by
  simp only [marks, producers, List.mem_map, List.mem_append]
  constructor <;> rintro ⟨P, hP, hm⟩ <;> exact ⟨P, by tauto, hm⟩

theorem producersLive_iff (s : State) : ProducersLive s ↔ NamesYoungest s.dep (marks s) := by
  simp only [ProducersLive, NamesYoungest, mem_marks, mark, Prod.mk.injEq]
  refine and_congr Iff.rfl ⟨?_, fun h P hP => h _ _ ⟨P, hP, rfl, rfl⟩⟩
  rintro h q i ⟨P, hP, rfl, rfl⟩
  exact h P hP

theorem marksOrdered_iff (s : State) : MarksOrdered s ↔ ProgramOrder s ∧ ProducersLive s := by
  rw [MarksOrdered, programOrder_iff, producersLive_iff]

theorem MarksOrdered.congr {s t : State} (h : MarksOrdered s) (hmarks : marks t = marks s) (hifId : t.ifId = s.ifId)
    (hdep : t.dep = s.dep) (hnext : t.nextSeq = s.nextSeq) : MarksOrdered t := by
  rw [MarksOrdered, handles, hmarks, hifId, hdep, hnext]
  exact h

/-- The entry of the oldest mark is cleared exactly if no younger one has its register (R46, R208). -/
theorem NamesYoungest.retire {dep dep' : Vector (Option Nat) 32} {q : Nat} {rd : Reg} {l : List (Nat × Reg)}
    (h : NamesYoungest dep ((q, rd) :: l)) (hold : ∀ m ∈ l, q < m.1)
    (hdep : ∀ i, dep'.get i = if rd = i ∧ rd ≠ 0 ∧ dep.get rd = some q then none else dep.get i) :
    NamesYoungest dep' l := by
  obtain ⟨hnames, hyoungest⟩ := h
  constructor
  · intro i p hp
    rw [hdep] at hp
    split at hp
    case isTrue => cases hp
    case isFalse hkept =>
      obtain ⟨hi, hmem⟩ := hnames i p hp
      refine ⟨hi, (List.mem_cons.mp hmem).resolve_left fun e => ?_⟩
      obtain ⟨rfl, rfl⟩ := Prod.mk.inj e
      exact hkept ⟨rfl, hi, hp⟩
  · intro p i hmem hi
    obtain ⟨p', hp', hle⟩ := hyoungest p i (List.mem_cons_of_mem _ hmem) hi
    refine ⟨p', ?_, hle⟩
    rw [hdep, if_neg]
    · exact hp'
    · rintro ⟨rfl, -, hq⟩
      obtain rfl := Option.some.inj (hp'.symm.trans hq)
      exact absurd (hold _ hmem) (by omega)

/-- A mark younger than all others becomes the producer of its register (R46, R207). -/
theorem NamesYoungest.register {dep dep' : Vector (Option Nat) 32} {q : Nat} {rd : Reg} {l : List (Nat × Reg)}
    (h : NamesYoungest dep l) (hyoung : ∀ m ∈ l, m.1 < q)
    (hdep : ∀ i, dep'.get i = if rd = i ∧ rd ≠ 0 then some q else dep.get i) : NamesYoungest dep' (l ++ [(q, rd)]) := by
  obtain ⟨hnames, hyoungest⟩ := h
  constructor
  · intro i p hp
    rw [hdep] at hp
    split at hp
    case isTrue hrd =>
      obtain ⟨rfl, hne⟩ := hrd
      cases hp
      exact ⟨hne, by simp⟩
    case isFalse =>
      obtain ⟨hi, hmem⟩ := hnames i p hp
      exact ⟨hi, List.mem_append_left _ hmem⟩
  · intro p i hmem hi
    rw [hdep]
    obtain hmem | hmem := List.mem_append.mp hmem
    · split
      case isTrue => exact ⟨q, rfl, (hyoung _ hmem).le⟩
      case isFalse => exact hyoungest p i hmem hi
    · obtain ⟨rfl, rfl⟩ := Prod.mk.inj (List.mem_singleton.mp hmem)
      exact ⟨p, if_pos ⟨rfl, hi⟩, le_rfl⟩

/-! ### The held miss -/

/-- The records that have not reached `EX_MEM`. -/
def beforeMemory (s : State) : List Record := (FuState.record? s.fu).toList ++ s.idEx.toList ++ s.ifId.toList

theorem MissHeld.unissued {s : State} (h : MissHeld s) : ∀ I ∈ beforeMemory s, I.memIssued = false := h.2.2.2

/-- While `MEM_WB` holds a record or `EX_MEM` holds no issued one, no miss is outstanding (R124, R223). -/
theorem MissHeld.no_miss {s : State} (h : MissHeld s)
    (hs : s.memWb ≠ none ∨ ∀ I, s.exMem = some I → ¬ (I.memIssued = true ∧ isMemory I.instr = true)) :
    s.miss = none ∧ s.req = none := by
  obtain ⟨hheld, hreq, -, -⟩ := h
  have hmiss : s.miss = none := Option.eq_none_iff_forall_ne_some.mpr fun q hq => by
    obtain ⟨I, hI, -, hissued, hmemory, hempty⟩ := hheld q hq
    exact hs.elim (fun hne => hne hempty) fun hn => hn I hI ⟨hissued, hmemory⟩
  exact ⟨hmiss, by simpa [hmiss] using hreq⟩

theorem MissHeld.congr {s t : State} (h : MissHeld s) (hmiss : t.miss = s.miss) (hreq : t.req = s.req)
    (hexMem : t.exMem = s.exMem) (hmemWb : s.memWb = none → t.memWb = none)
    (hyoung : ∀ I ∈ beforeMemory t, I.memIssued = false) : MissHeld t := by
  obtain ⟨hheld, hone, hissued, -⟩ := h
  rw [MissHeld, hmiss, hreq, hexMem]
  refine ⟨fun q hq => ?_, hone, hissued, hyoung⟩
  obtain ⟨I, hI, hseq, hI', hm, hempty⟩ := hheld q hq
  exact ⟨I, hI, hseq, hI', hm, hmemWb hempty⟩

/-- Without a miss, and with no issued record in `EX_MEM`, there is nothing to hold. -/
theorem missHeld_of_no_miss {s : State} (hmiss : s.miss = none) (hreq : s.req = none)
    (hexMem : ∀ I, s.exMem = some I → I.memIssued = false) (hyoung : ∀ I ∈ beforeMemory s, I.memIssued = false) :
    MissHeld s := by
  refine ⟨?_, ?_, fun I hI h => ?_, hyoung⟩
  · simp [hmiss]
  · simp [hmiss, hreq]
  · simp [hexMem I hI] at h

/-- The invariant of a running block, with order and table read off the marks. -/
def Ordered (s : State) : Prop := MarksOrdered s ∧ MissHeld s

theorem pipelineOrdered_iff (s : State) : PipelineOrdered s ↔ (s.status = .running → Ordered s) := by
  simp only [PipelineOrdered, Ordered, marksOrdered_iff, and_assoc]

/-! ### Writeback -/

/-- A pipeline just flushed is in order (R212). -/
theorem ordered_of_empty {s : State} (hempty : PipelineEmpty s) (hdep : ∀ i, s.dep.get i = none)
    (hmiss : s.miss = none) (hreq : s.req = none) : Ordered s := by
  obtain ⟨hifId, hidEx, hexMem, hmemWb, hfu⟩ := hempty
  have hmarks : marks s = [] := by simp [marks, hidEx, hexMem, hmemWb, hfu, FuState.record?]
  have hyoung : beforeMemory s = [] := by simp [beforeMemory, hidEx, hifId, hfu, FuState.record?]
  refine ⟨⟨?_, ?_⟩, missHeld_of_no_miss hmiss hreq (by simp [hexMem]) (by simp [hyoung])⟩
  · simp [RiseBelow, handles, hmarks, hifId]
  · simp [NamesYoungest, hmarks, hdep]

theorem ordered_retired {s : State} {I : Record} (h : Ordered s) (hw : s.memWb = some I) :
    Ordered (retired I.instr I s) := by
  obtain ⟨⟨⟨hrise, hbelow⟩, hnames⟩, hmiss⟩ := h
  obtain ⟨x, dep, hr⟩ := retired_shape I.instr I s
  have hmarks : marks s = mark I :: marks (retired I.instr I s) := by rw [hr]; simp [marks, hw]
  have hhandles : handles s = I.seq :: handles (retired I.instr I s) := by rw [handles, hmarks, hr]; rfl
  rw [hhandles] at hrise hbelow
  rw [hmarks] at hnames
  obtain ⟨hold, hrise⟩ := List.pairwise_cons.mp hrise
  refine ⟨⟨⟨hrise, fun q hq => ?_⟩, hnames.retire (fun m hm => ?_) fun i => retired_dep I.instr i I s⟩, ?_⟩
  · rw [hr]
    exact hbelow q (List.mem_cons_of_mem _ hq)
  · exact hold m.1 (List.mem_append_left _ (List.mem_map_of_mem hm))
  · rw [hr]
    exact hmiss.congr rfl rfl rfl (fun _ => rfl) hmiss.unissued

/-- Resolution leaves the pipeline as it is, or empties it when no miss is outstanding (R211, R212). -/
theorem ordered_resolveBranch {s : State} (h : Ordered s) (hmiss : s.miss = none) (hreq : s.req = none) (I : Record) :
    Ordered (resolveBranch I s) := by
  obtain ⟨p, b, ⟨-, hx⟩ | ⟨-, hx⟩⟩ := resolveBranch_cases I s <;> rw [hx]
  · exact h
  · exact ordered_of_empty ⟨rfl, rfl, rfl, rfl, rfl⟩ (vector_get_replicate none) hmiss hreq

theorem ordered_writeback {s t : State} (hs : Ordered s) (h : writebackStage s = .next t) (ht : t.status = .running) :
    Ordered t := by
  obtain ⟨i, hi, hr⟩ := writebackStage_result h
  have henter : Ordered (enterStage .writeback s) := hs
  cases hr with
  | empty _ => exact henter
  | fault I c _ _ => cases ht
  | retire I hw _ =>
    obtain rfl := hi I hw
    exact ordered_retired henter hw
  | resolve I hw _ =>
    obtain rfl := hi I hw
    obtain ⟨hmiss, hreq⟩ := hs.2.no_miss (.inl (hw ▸ Option.some_ne_none I))
    obtain ⟨x, dep, hr⟩ := retired_shape I.instr I (enterStage .writeback s)
    exact ordered_resolveBranch (ordered_retired henter hw) (by rw [hr]; exact hmiss) (by rw [hr]; exact hreq) I

/-! ### MEM -/

/-- The record whose access is issued, in `EX_MEM`: it misses and its block is requested, or nothing is outstanding (R213, R223). -/
def AccessIssued (J : Record) (s : State) : Prop :=
  s.exMem = some J ∧ s.memWb = none ∧ J.memIssued = true ∧
    (s.miss = some J.seq ∧ s.req.isSome = true ∨ s.miss = none ∧ s.req = none)

/-- `J` is the record `I` further on. -/
def SameRecord (I J : Record) : Prop := J.seq = I.seq ∧ J.instr = I.instr

theorem SameRecord.mark {I J : Record} (h : SameRecord I J) : mark J = mark I := by
  rw [Machine.mark, Machine.mark, h.1, h.2]

/-- Issuing the access of the record in `EX_MEM` raises, or leaves it issued (R109 to R112, R213). -/
theorem issueAccess_issues {ap : Apply} (hap : KeepsForm ap) {I : Record} {s : State} (hs : MissHeld s)
    (hI : s.exMem = some I) (hw : s.memWb = none) (hr : (issueAccess ap I s).status = .running) :
    ∃ J, SameRecord I J ∧ AccessIssued J (issueAccess ap I s) := by
  obtain ⟨hissued, hx⟩ | ⟨hnot, hx⟩ := issueAccess_cases ap I s
  · obtain ⟨-, hone, hmissed, -⟩ := hs
    have hmiss := hmissed I hI hissued
    rw [hx]
    exact ⟨I, ⟨rfl, rfl⟩, hI, hw, hissued, .inl ⟨hmiss, by simp [hone, hmiss]⟩⟩
  · obtain ⟨hmiss, hreq⟩ := hs.no_miss (.inr fun K hK hc => by
      obtain rfl := Option.some.inj (hI.symm.trans hK)
      simp [hnot] at hc)
    rw [hx] at hr ⊢
    obtain ⟨-, hc⟩ | ⟨way, b, -, -, -, hc⟩ | ⟨-, -, hc⟩ :=
      cacheAccess_cases ap { I with memIssued := true } { s with exMem := some { I with memIssued := true } } <;>
        rw [hc] at hr ⊢
    · cases hr
    · obtain ⟨hseq, hinstr, hmark, -⟩ := hap s.cfg { I with memIssued := true } b
      exact ⟨_, ⟨hseq, hinstr⟩, rfl, hw, hmark, .inr ⟨hmiss, hreq⟩⟩
    · unfold cacheMiss at hr ⊢
      obtain ⟨-, hl⟩ | ⟨-, hl⟩ | ⟨-, -, -, -, hl⟩ := loadBlock_cases _ _ _ <;> rw [hl] at hr ⊢
      · cases hr
      · cases hr
      · exact ⟨{ I with memIssued := true }, ⟨rfl, rfl⟩, rfl, hw, rfl, .inl ⟨rfl, rfl⟩⟩

theorem replay_some {ap : Apply} (a : Nat) (b : Block) {J : Record} {s : State} (hJ : s.exMem = some J)
    (hmiss : s.miss = some J.seq) : (replay ap a b s).exMem = some (ap s.cfg J b).1 := by
  simp only [replay, hJ, hmiss, if_pos]

/-- The response replays the access of the record that missed and ends its miss (R114, R115). -/
theorem handleResponse_issued {ap : Apply} (hap : KeepsForm ap) (a : Nat) (d : List Word) {J : Record} {s : State}
    (hJ : s.exMem = some J) (hw : s.memWb = none) (hissued : J.memIssued = true) (hmiss : s.miss = some J.seq)
    (hreq : s.req = none) : ∃ K, SameRecord J K ∧ AccessIssued K (handleResponse ap a d s) := by
  obtain ⟨c, m, hevict⟩ := evictVictim_shape a s
  obtain ⟨e, ca, c', m', hshape⟩ := handleResponse_shape ap a d s
  have hexMem : ∃ b, (handleResponse ap a d s).exMem = some (ap s.cfg J b).1 := by
    unfold handleResponse
    rw [hevict]
    exact ⟨_, replay_some a _ hJ hmiss⟩
  obtain ⟨b, hb⟩ := hexMem
  obtain ⟨hseq, hinstr, hmark, -⟩ := hap s.cfg J b
  refine ⟨_, ⟨hseq, hinstr⟩, hb, ?_, hmark.trans hissued, .inr ⟨?_, ?_⟩⟩ <;> rw [hshape]
  · exact hw
  · exact hreq

/-- The backing store leaves an issued access waiting, or ends its miss (R113). -/
theorem storeRun_issued {ap : Apply} (hap : KeepsForm ap) {J : Record} {s : State} (h : AccessIssued J s) :
    ∃ K, SameRecord J K ∧ AccessIssued K (storeRun ap s) := by
  obtain ⟨-, hx⟩ | ⟨a, t, hreq, -, hx⟩ := storeRun_cases ap s <;> rw [hx]
  · exact ⟨J, ⟨rfl, rfl⟩, h⟩
  · obtain ⟨hJ, hw, hissued, ⟨hmiss, -⟩ | ⟨-, hnone⟩⟩ := h
    · exact handleResponse_issued (s := { s with req := none }) hap a _ hJ hw hissued hmiss rfl
    · rw [hreq] at hnone
      cases hnone

/-- What MEM makes of its record: it waits for its block in `EX_MEM`, or has moved on to `MEM_WB` with nothing outstanding
(R213, R223). -/
def AccessEnds (K : Record) (s : State) : Prop :=
  (s.exMem = some K ∧ s.memWb = none ∧ K.memIssued = true ∧ s.miss = some K.seq ∧ s.req.isSome = true) ∨
    (s.exMem = none ∧ s.memWb = some K ∧ s.miss = none ∧ s.req = none)

theorem accessMemory_ends {ap : Apply} (hap : KeepsForm ap) {I : Record} {s : State} (hs : MissHeld s)
    (hI : s.exMem = some I) (hw : s.memWb = none) (hr : (accessMemory ap s).status = .running) :
    ∃ K, SameRecord I K ∧ AccessEnds K (accessMemory ap s) := by
  rw [accessMemory_some hI] at hr ⊢
  obtain ⟨hn, hx⟩ | ⟨hrun, hmiss, hx⟩ | ⟨hrun, hmiss, hx⟩ := finishAccess_cases ap (issueAccess ap I s) <;> rw [hx] at hr ⊢
  · exact absurd hr hn
  all_goals
    obtain ⟨J, ⟨hseqJ, hinstrJ⟩, hJ⟩ := issueAccess_issues hap hs hI hw hrun
    obtain ⟨K, ⟨hseqK, hinstrK⟩, hK, hwK, hissued, hout⟩ := storeRun_issued hap hJ
    refine ⟨K, ⟨hseqK.trans hseqJ, hinstrK.trans hinstrJ⟩, ?_⟩
  · exact .inl ⟨hK, hwK, hissued, hout.resolve_right fun h => hmiss h.1⟩
  · obtain ⟨hm, -⟩ | ⟨hm, hreq⟩ := hout
    · rw [hmiss] at hm
      cases hm
    · rw [passMemory_some hK hwK]
      exact .inr ⟨rfl, rfl, hm, hreq⟩

/-- MEM keeps the invariant, whether its record waits or moves on. -/
theorem ordered_of_accessEnds {s t : State} {I K : Record} (hs : Ordered s) (hI : s.exMem = some I) (hw : s.memWb = none)
    (hframe : t = memoryWritten t s) (hK : SameRecord I K) (ht : AccessEnds K t)
    (hmemory : isMemory I.instr = true ∨ t.miss = none) : Ordered t := by
  obtain ⟨hmarks, hmiss⟩ := hs
  have hfu : t.fu = s.fu := by rw [hframe]; rfl
  have hidEx : t.idEx = s.idEx := by rw [hframe]; rfl
  have hifId : t.ifId = s.ifId := by rw [hframe]; rfl
  have hdep : t.dep = s.dep := by rw [hframe]; rfl
  have hnext : t.nextSeq = s.nextSeq := by rw [hframe]; rfl
  have hyoung : ∀ J ∈ beforeMemory t, J.memIssued = false := by
    rw [beforeMemory, hfu, hidEx, hifId]
    exact hmiss.unissued
  obtain ⟨hexMem, hmemWb, hissued, hm, hreq⟩ | ⟨hexMem, hmemWb, hm, hreq⟩ := ht
  · refine ⟨hmarks.congr ?_ hifId hdep hnext, ?_, ?_, ?_, hyoung⟩
    · simp [marks, hexMem, hmemWb, hfu, hidEx, hI, hw, hK.mark]
    · intro q hq
      obtain rfl := Option.some.inj (hm.symm.trans hq)
      rw [hm] at hmemory
      exact ⟨K, hexMem, rfl, hissued, hK.2 ▸ hmemory.resolve_right (by simp), hmemWb⟩
    · simp [hm, hreq]
    · intro J hJ _
      obtain rfl := Option.some.inj (hexMem.symm.trans hJ)
      exact hm
  · refine ⟨hmarks.congr ?_ hifId hdep hnext, missHeld_of_no_miss hm hreq (by simp [hexMem]) hyoung⟩
    simp [marks, hexMem, hmemWb, hfu, hidEx, hI, hw, hK.mark]

theorem ordered_memory {s t : State} (hw : s.memWb = none) (hs : Ordered s) (h : memoryStage s = .next t)
    (ht : t.status = .running) : Ordered t := by
  have hframe := (memoryStage_frame h).1
  obtain ⟨-, rfl⟩ | ⟨I, hI, hm, rfl⟩ | ⟨I, ap, hI, hm, hap, rfl⟩ := memoryStage_keepsForm h
  · exact hs
  · obtain ⟨hmiss, hreq⟩ := hs.2.no_miss (.inr fun K hK hc => by
      obtain rfl := Option.some.inj (hI.symm.trans hK)
      simp [hm] at hc)
    have hpass : passMemory (enterStage .memory s) = _ := passMemory_some hI hw
    refine ordered_of_accessEnds hs hI hw hframe ⟨rfl, rfl⟩ (.inr ?_) (.inr ?_) <;> rw [hpass]
    · exact ⟨rfl, rfl, hmiss, hreq⟩
    · exact hmiss
  · obtain ⟨K, hK, hends⟩ := accessMemory_ends (s := enterStage .memory s) hap hs.2 hI hw ht
    exact ordered_of_accessEnds hs hI hw hframe hK hends (.inl hm)

/-! ### EX -/

theorem ordered_complete {s c : State} (hs : Ordered s) (h : completeStage s = .next c) : Ordered c := by
  obtain hx | ⟨I, e, n, hfu, -, hx⟩ := completeStage_cases s <;> obtain rfl := Host.Outcome.next.inj (hx.symm.trans h)
  · exact hs
  · obtain ⟨hmarks, hmiss⟩ := hs
    obtain ⟨hseq, -, hinstr, hissued, -⟩ := computeOf_keeps s.cfg.divOverflow I.instr I
    have hsame : mark (computeOf s.cfg.divOverflow I.instr I) = mark I := SameRecord.mark ⟨hseq, hinstr⟩
    have hyoung := hmiss.unissued
    refine ⟨hmarks.congr ?_ rfl rfl rfl, hmiss.congr rfl rfl rfl id ?_⟩
    · simp [marks, hfu, FuState.record?, hsame]
    · simpa [beforeMemory, hfu, FuState.record?, hissued] using hyoung

/-- A finished record drains into an empty `EX_MEM`, where no miss can be held (R214, R223). -/
theorem ordered_drain {s : State} (hs : Ordered s) : Ordered (drainUnit s) := by
  obtain hx | ⟨I, hfu, hexMem, hx⟩ := drainUnit_cases s <;> rw [hx]
  · exact hs
  · obtain ⟨hmarks, hmiss⟩ := hs
    have hyoung := hmiss.unissued
    obtain ⟨hm, hreq⟩ := hmiss.no_miss (.inr (by simp [hexMem]))
    simp only [beforeMemory, hfu, FuState.record?, Option.toList_some, List.cons_append,
      List.forall_mem_cons] at hyoung
    refine ⟨hmarks.congr ?_ rfl rfl rfl, missHeld_of_no_miss hm hreq ?_ hyoung.2⟩
    · simp [marks, hfu, hexMem, FuState.record?]
    · rintro J ⟨⟩
      exact hyoung.1

theorem ordered_feed {s : State} (hs : Ordered s) : Ordered (feedUnit s) := by
  obtain hx | ⟨I, hfu, hidEx, hx⟩ := feedUnit_cases s <;> rw [hx]
  · exact hs
  · obtain ⟨hmarks, hmiss⟩ := hs
    have hyoung := hmiss.unissued
    refine ⟨hmarks.congr ?_ rfl rfl rfl, hmiss.congr rfl rfl rfl id ?_⟩
    · simp [marks, hfu, hidEx, FuState.record?]
    · simpa [beforeMemory, hfu, hidEx, FuState.record?] using hyoung

theorem ordered_execute {s t : State} (hr : s.status = .running) (hs : Ordered s) (h : executeStage s = .next t) :
    Ordered t := by
  obtain ⟨c, hc, -, hx⟩ := executeStage_running hr
  obtain rfl := Host.Outcome.next.inj (hx.symm.trans h)
  exact ordered_feed (ordered_drain (ordered_complete hs hc))

/-! ### Decode -/

/-- The record decoded is younger than all past decode, and becomes the producer of its `rd` (R46, R207). -/
theorem ordered_decoded {s t : State} {I J : Record} {pc : Word} (hs : Ordered s) (hifId : s.ifId = some I)
    (hidEx : s.idEx = none) (hJ : SameRecord I J) (hissued : J.memIssued = I.memIssued)
    (ht : t = { registerProducer s (rdIndex I.instr) I.seq with idEx := some J, ifId := none, pc := pc }) :
    Ordered t := by
  obtain ⟨⟨hrise, hnames⟩, hmiss⟩ := hs
  have hyoung := hmiss.unissued
  have hdep : ∀ i, t.dep.get i = if rdIndex I.instr = i ∧ rdIndex I.instr ≠ 0 then some I.seq else s.dep.get i := by
    intro i
    rw [ht]
    exact registerProducer_dep s _ i _
  obtain ⟨dep, hp⟩ := registerProducer_shape s (rdIndex I.instr) I.seq
  rw [hp] at ht
  have hmarks : marks t = marks s ++ [mark I] := by rw [ht]; simp [marks, hidEx, hJ.mark]
  have hhandles : handles t = handles s := by rw [handles, hmarks, ht]; simp [handles, hifId, mark]
  refine ⟨⟨by rw [hhandles, ht]; exact hrise, ?_⟩, ?_⟩
  · rw [hmarks]
    refine hnames.register (fun m hm => ?_) hdep
    obtain ⟨hpair, -⟩ := hrise
    rw [handles, hifId] at hpair
    exact (List.pairwise_append.mp hpair).2.2 m.1 (List.mem_map_of_mem hm) I.seq (by simp)
  · rw [ht]
    refine hmiss.congr rfl rfl rfl id ?_
    simpa [beforeMemory, hidEx, hifId, hissued, or_imp, forall_and] using hyoung

theorem ordered_decode {s t : State} (hs : Ordered s) (h : decodeStage s = .next t) : Ordered t := by
  have henter : Ordered (enterStage .decode s) := hs
  obtain rfl | ⟨I, hI, hidEx, hr⟩ := decodeStage_result h
  · exact henter
  · cases hr with
    | wait => exact henter
    | move K J pc hK hseq hinstr hissued _ =>
      obtain rfl := Option.some.inj (hI.symm.trans hK)
      exact ordered_decoded henter hI hidEx ⟨hseq, hinstr⟩ hissued rfl

/-! ### Fetch -/

/-- The record fetched has the next handle (R41, R217). -/
theorem ordered_fetched {s t : State} {I : Record} {pc : Word} {b : Bool} (hs : Ordered s) (hifId : s.ifId = none)
    (hseq : I.seq = s.nextSeq) (hissued : I.memIssued = false)
    (ht : t = { s with ifId := some I, nextSeq := s.nextSeq + 1, pc := pc, fetchBlocked := b }) : Ordered t := by
  obtain ⟨⟨⟨hrise, hbelow⟩, hnames⟩, hmiss⟩ := hs
  have hyoung := hmiss.unissued
  have hmarks : marks t = marks s := by rw [ht]; rfl
  have hhandles : handles t = handles s ++ [s.nextSeq] := by
    rw [handles, hmarks, ht]; simp [handles, hifId, hseq]
  refine ⟨⟨?_, by rw [hmarks, ht]; exact hnames⟩, ?_⟩
  · rw [hhandles, ht]
    refine ⟨List.pairwise_append.mpr ⟨hrise, List.pairwise_singleton _ _, by simpa using hbelow⟩, fun q hq => ?_⟩
    obtain hq | hq := List.mem_append.mp hq
    · exact Nat.lt_succ_of_lt (hbelow q hq)
    · rw [List.mem_singleton.mp hq]
      exact Nat.lt_succ_self _
  · rw [ht]
    refine hmiss.congr rfl rfl rfl id ?_
    simpa [beforeMemory, hifId, hissued, or_imp, forall_and] using hyoung

theorem ordered_fetch {s t : State} (hs : Ordered s) (h : fetchStage s = .next t) (ht : t.status = .running) :
    Ordered t := by
  obtain ⟨n, rfl⟩ | ⟨c, info, rfl⟩ | ⟨i, hifId, he⟩ := fetchStage_result h
  · exact hs
  · cases ht
  · obtain rfl := Host.Outcome.next.inj ((exec_fetch rfl i).symm.trans he)
    have henter : Ordered (enterStage .fetch s) := hs
    cases isBranch i
    · exact ordered_fetched henter hifId (I := newRecord (enterStage .fetch s) i) rfl rfl rfl
    · obtain ⟨I, pc, hb, hseq, -, -, hissued⟩ := fetchBranch_shape i (enterStage .fetch s)
      exact ordered_fetched henter hifId hseq hissued hb

/-! ### The step -/

theorem pipelineOrdered_afterWriteback : KeptAfterWriteback PipelineOrdered where
  memory hr hw hs h := (pipelineOrdered_iff _).mpr fun ht => ordered_memory hw ((pipelineOrdered_iff _).mp hs hr) h ht
  execute hr hs h := (pipelineOrdered_iff _).mpr fun _ => ordered_execute hr ((pipelineOrdered_iff _).mp hs hr) h
  decode hr hs h := (pipelineOrdered_iff _).mpr fun _ => ordered_decode ((pipelineOrdered_iff _).mp hs hr) h
  fetch hr hs h := (pipelineOrdered_iff _).mpr fun ht => ordered_fetch ((pipelineOrdered_iff _).mp hs hr) h ht

/-- Settles O50: each stage that does not raise keeps the invariant. -/
theorem pipelineStaysOrdered : Obligations.PipelineStaysOrdered := fun _ _ hs h =>
  step_keeps pipelineOrdered_afterWriteback
    (fun hr hs hw => (pipelineOrdered_iff _).mpr fun ht => ordered_writeback ((pipelineOrdered_iff _).mp hs hr) hw ht)
    id (fun _ ht => by cases ht) hs h

end Sys2Proof.Machine
end

section
/-! PROOFS. The access of `LD` and `SD` in the MEM stage (spec/20_memory.md R107 to R116, spec/40_pipeline.md R213): an
equation for each case of issuing it and for each answer of the backing store, and from them what the stage leaves on a hit, a
miss, a wait, an arrival and a fault. -/

namespace Sys2Proof.Machine

/-! ### Issuing the access (R107, R109 to R112) -/

/-- `I` with its access issued (R213). -/
def issued (I : Record) : Record := { I with memIssued := true }

theorem issued_of_issued {I : Record} (h : I.memIssued = true) : issued I = I := by
  cases I
  cases h
  rfl

/-- `s` with the access of `I`, the record in `EX_MEM`, marked as issued (R213). -/
def marked (I : Record) (s : State) : State := { s with exMem := some (issued I) }

/-- `s` with the access of `I` issued and its miss counted and recorded (R111). -/
def missed (I : Record) (s : State) : State :=
  { s with
    exMem := some (issued I), miss := some I.seq
    counters := { s.counters with misses := s.counters.misses + 1 } }

/-- The block of `a` lies in the data region (R112). -/
def InRegion (cfg : Config) (a : Nat) : Prop :=
  cfg.codeBytes ≤ baseOf cfg a ∧ baseOf cfg a + cfg.blockBytes ≤ cfg.memBytes

/-- `s` with the access of `I` missed and its block requested (R111, R112). -/
def requested (I : Record) (s : State) : State :=
  { missed I s with
    touched := touchRange (baseOf s.cfg I.addr.toNat) s.cfg.blockBytes s.touched
    req := some (baseOf s.cfg I.addr.toNat, s.tick + s.cfg.memLatency) }

theorem baseOf_mod (cfg : Config) (a : Nat) : baseOf cfg a % cfg.blockBytes = 0 := by
  have h : baseOf cfg a = cfg.blockBytes * (a / cfg.blockBytes) := by
    have := Nat.div_add_mod a cfg.blockBytes
    unfold baseOf offsetOf
    omega
  rw [h, Nat.mul_mod_right]

section
variable {ap : Apply} {I : Record} {s : State}

theorem issueAccess_before (h : I.memIssued = true) : issueAccess ap I s = s := by simp [issueAccess, h]

theorem issueAccess_first (h : I.memIssued = false) :
    issueAccess ap I s = cacheAccess ap (issued I) (marked I s) := by simp [issueAccess, h, issued, marked]

theorem issueAccess_misaligned (h : I.memIssued = false) (ha : I.addr.toNat % 8 ≠ 0) :
    issueAccess ap I s =
      raiseFault .dataMisaligned (.access I.addr.toNat I.pc) (marked I s) := by
  rw [issueAccess_first h]
  exact if_pos ha

theorem issueAccess_hit (h : I.memIssued = false) (ha : I.addr.toNat % 8 = 0) {way : Nat} {b : Block}
    (hl : lookupWay s I.addr.toNat = some way) (hb : blockAt s I.addr.toNat way = some b) :
    issueAccess ap I s = cacheHit ap (issued I) way b s := by
  have hl' : lookupWay (marked I s) (issued I).addr.toNat = some way := hl
  have hb' : blockAt (marked I s) (issued I).addr.toNat way = some b := hb
  have ha' : ¬ (issued I).addr.toNat % 8 ≠ 0 := not_not.mpr ha
  rw [issueAccess_first h]
  simp only [cacheAccess, if_neg ha', hl', hb']
  rfl

/-- A miss is counted and recorded before its block is requested (R111). -/
theorem issueAccess_miss (h : I.memIssued = false) (ha : I.addr.toNat % 8 = 0) (hl : lookupWay s I.addr.toNat = none) :
    issueAccess ap I s = loadBlock (baseOf s.cfg I.addr.toNat) I.pc (missed I s) := by
  have hl' : lookupWay (marked I s) (issued I).addr.toNat = none := hl
  have ha' : ¬ (issued I).addr.toNat % 8 ≠ 0 := not_not.mpr ha
  rw [issueAccess_first h]
  simp only [cacheAccess, if_neg ha', hl']
  rfl

theorem loadBlock_outside (h : ¬ InRegion s.cfg I.addr.toNat) :
    loadBlock (baseOf s.cfg I.addr.toNat) I.pc (missed I s) =
      raiseFault .dataBounds (.access (baseOf s.cfg I.addr.toNat) I.pc) (missed I s) := by
  refine if_pos (.inr ?_)
  rwa [InRegion, not_and_or, not_le, not_le] at h

theorem not_outside (h : InRegion s.cfg I.addr.toNat) :
    ¬ (baseOf s.cfg I.addr.toNat % s.cfg.blockBytes ≠ 0 ∨ baseOf s.cfg I.addr.toNat < s.cfg.codeBytes ∨
      s.cfg.memBytes < baseOf s.cfg I.addr.toNat + s.cfg.blockBytes) := by
  obtain ⟨hlow, hhigh⟩ := h
  have := baseOf_mod s.cfg I.addr.toNat
  omega

theorem loadBlock_busy (h : InRegion s.cfg I.addr.toNat) (hreq : s.req.isSome = true) :
    loadBlock (baseOf s.cfg I.addr.toNat) I.pc (missed I s) =
      raiseFault .storeBusy (.block (baseOf s.cfg I.addr.toNat)) (missed I s) :=
  (if_neg (not_outside h)).trans (if_pos hreq)

theorem loadBlock_requests (h : InRegion s.cfg I.addr.toNat) (hreq : s.req = none) :
    loadBlock (baseOf s.cfg I.addr.toNat) I.pc (missed I s) = requested I s :=
  (if_neg (not_outside h)).trans (if_neg (by simp [missed, hreq]))

end

/-- What issuing the access of `I` can make of a state (R107, R109 to R112, R213). -/
inductive IssueResult (ap : Apply) (I : Record) (s : State) : State → Prop where
  | before (h : I.memIssued = true) : IssueResult ap I s s
  | misaligned (h : I.memIssued = false) (ha : I.addr.toNat % 8 ≠ 0) :
      IssueResult ap I s
        (raiseFault .dataMisaligned (.access I.addr.toNat I.pc) (marked I s))
  | hit (h : I.memIssued = false) (ha : I.addr.toNat % 8 = 0) (way : Nat) (b : Block)
      (hl : lookupWay s I.addr.toNat = some way) (hb : blockAt s I.addr.toNat way = some b) :
      IssueResult ap I s (cacheHit ap (issued I) way b s)
  | outside (h : I.memIssued = false) (ha : I.addr.toNat % 8 = 0) (hout : ¬ InRegion s.cfg I.addr.toNat) :
      IssueResult ap I s (raiseFault .dataBounds (.access (baseOf s.cfg I.addr.toNat) I.pc) (missed I s))
  | busy (h : I.memIssued = false) (ha : I.addr.toNat % 8 = 0) (hreq : s.req.isSome = true) :
      IssueResult ap I s (raiseFault .storeBusy (.block (baseOf s.cfg I.addr.toNat)) (missed I s))
  | request (h : I.memIssued = false) (ha : I.addr.toNat % 8 = 0) (hl : lookupWay s I.addr.toNat = none)
      (hin : InRegion s.cfg I.addr.toNat) (hreq : s.req = none) : IssueResult ap I s (requested I s)

theorem issueAccess_result (ap : Apply) (I : Record) (s : State) : IssueResult ap I s (issueAccess ap I s) := by
  cases h : I.memIssued with
  | true => rw [issueAccess_before h]; exact .before h
  | false =>
    by_cases ha : I.addr.toNat % 8 = 0
    case neg => rw [issueAccess_misaligned h ha]; exact .misaligned h ha
    case pos =>
      obtain ⟨hn, -⟩ | ⟨way, b, -, hl, hb, -⟩ | ⟨-, hl, -⟩ := cacheAccess_cases ap I s
      · exact absurd ha hn
      · rw [issueAccess_hit h ha hl hb]; exact .hit h ha way b hl hb
      · rw [issueAccess_miss h ha hl]
        by_cases hin : InRegion s.cfg I.addr.toNat
        case neg => rw [loadBlock_outside hin]; exact .outside h ha hin
        case pos =>
          cases hreq : s.req with
          | none => rw [loadBlock_requests hin hreq]; exact .request h ha hl hin hreq
          | some r =>
            have hbusy : s.req.isSome = true := by rw [hreq]; rfl
            rw [loadBlock_busy hin hbusy]
            exact .busy h ha hbusy

/-! ### The answer of the backing store (R113 to R116) -/

theorem storeRun_idle {ap : Apply} {s : State} (h : s.req = none) : storeRun ap s = s := by
  unfold storeRun; rw [h]

theorem storeRun_waits {ap : Apply} {s : State} {a t : Nat} (h : s.req = some (a, t)) (ht : s.tick < t) :
    storeRun ap s = s := by
  unfold storeRun; rw [h]
  exact if_neg (Nat.not_le.mpr ht)

theorem storeRun_arrives {ap : Apply} {s : State} {a t : Nat} (h : s.req = some (a, t)) (ht : t ≤ s.tick) :
    storeRun ap s = handleResponse ap a (Memory.readBlock s.mem a (blockWords s.cfg)) { s with req := none } := by
  unfold storeRun; rw [h]
  exact if_pos ht

theorem finishAccess_faulted {ap : Apply} {s : State} (h : s.status ≠ .running) : finishAccess ap s = s := if_neg h

theorem finishAccess_busy {ap : Apply} {s : State} (h : s.status = .running) (hm : (storeRun ap s).miss ≠ none) :
    finishAccess ap s = storeRun ap s := by
  simp [finishAccess, h, cacheBusy, Option.isSome_iff_ne_none, hm]

theorem finishAccess_passes {ap : Apply} {s : State} (h : s.status = .running) (hm : (storeRun ap s).miss = none) :
    finishAccess ap s = passMemory (storeRun ap s) := by
  simp [finishAccess, h, cacheBusy, hm]

/-- Evicting the victim writes the backing store and the count of writebacks alone (R114). -/
theorem evictVictim_writes (a : Nat) (s : State) :
    ∃ m n, evictVictim a s = { s with mem := m, counters := { s.counters with writebacks := n } } := by
  obtain h | ⟨v, -, -, -, h⟩ := evictVictim_cases a s
  · exact ⟨s.mem, s.counters.writebacks, h⟩
  · exact ⟨_, _, h⟩

/-- The eviction does not read the request. -/
theorem evictVictim_ended (a : Nat) (s : State) :
    evictVictim a { s with req := none } = { evictVictim a s with req := none } := by
  have hb : blockAt { s with req := none } a 0 = blockAt s a 0 := rfl
  unfold evictVictim
  rw [hb]
  cases blockAt s a 0 with
  | none => rfl
  | some v => dsimp only; split <;> rfl

theorem setBlock_setBlock (s : State) (a way : Nat) (b c : Block) :
    setBlock (setBlock s a way b) a way c = setBlock s a way c := by
  by_cases hl : setIndexOf s.cfg a < s.cache.length
  · simp [setBlock, cacheSetOf, hl, List.set_set]
  · simp [setBlock, cacheSetOf, List.set_eq_of_length_le (Nat.le_of_not_lt hl)]

/-- The response to the miss of `I`: the victim is evicted, and the block installed with the access done on it (R114,
R115). -/
theorem handleResponse_replays {ap : Apply} {a : Nat} {d : List Word} {I : Record} {s : State} (hI : s.exMem = some I)
    (hm : s.miss = some I.seq) :
    handleResponse ap a d s =
      { setBlock (evictVictim a s) a 0 { (ap s.cfg I (arrivedBlock s a d)).2 with ts := s.tick } with
        exMem := some (ap s.cfg I (arrivedBlock s a d)).1
        miss := none } := by
  obtain ⟨m, n, he⟩ := evictVictim_writes a s
  simp only [handleResponse, he, replay, setBlock_exMem, hI, setBlock_miss, hm, if_true, setBlock_setBlock]
  rfl

/-- A response reads of its address only the set and the tag. -/
theorem handleResponse_congr {ap : Apply} {a a' : Nat} {d : List Word} {s : State}
    (hset : setIndexOf s.cfg a = setIndexOf s.cfg a') (htag : tagOf s.cfg a = tagOf s.cfg a') :
    handleResponse ap a d s = handleResponse ap a' d s := by
  have hput (u : State) (hu : u.cfg = s.cfg) (b : Block) : setBlock u a 0 b = setBlock u a' 0 b := by
    simp only [setBlock, cacheSetOf, hu, hset]
  have hreplay (u : State) (hu : u.cfg = s.cfg) (b : Block) : replay ap a b u = replay ap a' b u := by
    simp only [replay, hput u hu]
  have hevict : evictVictim a s = evictVictim a' s := by simp only [evictVictim, blockAt, cacheSetOf, hset]
  obtain ⟨m, n, he⟩ := evictVictim_writes a' s
  have hcfg : (evictVictim a' s).cfg = s.cfg := by rw [he]
  have hb : arrivedBlock (evictVictim a' s) a d = arrivedBlock (evictVictim a' s) a' d := by
    simp only [arrivedBlock, hcfg, htag]
  simp only [handleResponse, hevict, hb, hput _ hcfg]
  rw [hreplay (setBlock _ _ _ _) hcfg]

/-- The block's base stands for any address in the block. -/
theorem handleResponse_baseOf {ap : Apply} {a : Nat} {d : List Word} {s : State} (hg : GeometryOk s.cfg) :
    handleResponse ap (baseOf s.cfg a) d s = handleResponse ap a d s :=
  have h := setIndexOf_baseOf_add (a := a) hg hg.1
  handleResponse_congr h.1 h.2

/-! ### The stage on a memory instruction (R213) -/

theorem exec_memory_load {s : State} (h : s.stage = .memory) (rd rs1 : Reg) (imm : Int) :
    exec (.ld rd rs1 imm) s = .next (accessMemory applyLoad s) := by
  simp only [exec, execLd, atStage, h]; rfl

theorem exec_memory_store {s : State} (h : s.stage = .memory) (rs1 rs2 : Reg) (imm : Int) :
    exec (.sd rs1 rs2 imm) s = .next (accessMemory applyStore s) := by
  simp only [exec, execSd, atStage, h]; rfl

/-- The stage runs one access, whichever of the two instructions it is. -/
theorem exec_memory_access {i : Instr} {s : State} (h : s.stage = .memory) (hi : isMemory i = true) :
    ∃ ap, exec i s = .next (accessMemory ap s) := by
  obtain ⟨_, _, _, -, hx⟩ | ⟨_, _, _, -, hx⟩ | ⟨hn, -⟩ := exec_memory h i
  · exact ⟨_, hx⟩
  · exact ⟨_, hx⟩
  · simp [hi] at hn

section
variable {ap : Apply} {I : Record} {s : State}

theorem accessMemory_misaligned (hs : AtMemory s I) (h : I.memIssued = false) (ha : I.addr.toNat % 8 ≠ 0) :
    accessMemory ap s =
      raiseFault .dataMisaligned (.access I.addr.toNat I.pc) (marked I s) := by
  obtain ⟨-, -, hI, -⟩ := hs
  rw [accessMemory_some hI, issueAccess_misaligned h ha, finishAccess_faulted Status.noConfusion]

theorem accessMemory_outside (hs : AtMemory s I) (h : I.memIssued = false) (ha : I.addr.toNat % 8 = 0)
    (hl : lookupWay s I.addr.toNat = none) (hout : ¬ InRegion s.cfg I.addr.toNat) :
    accessMemory ap s = raiseFault .dataBounds (.access (baseOf s.cfg I.addr.toNat) I.pc) (missed I s) := by
  obtain ⟨-, -, hI, -⟩ := hs
  rw [accessMemory_some hI, issueAccess_miss h ha hl, loadBlock_outside hout, finishAccess_faulted Status.noConfusion]

theorem accessMemory_hit (hs : AtMemory s I) (h : I.memIssued = false) (hm : s.miss = none) (hreq : s.req = none)
    (ha : I.addr.toNat % 8 = 0) {way : Nat} {b : Block} (hl : lookupWay s I.addr.toNat = some way)
    (hb : blockAt s I.addr.toNat way = some b) :
    accessMemory ap s =
      { setBlock s I.addr.toNat way { (ap s.cfg (issued I) b).2 with ts := s.tick } with
        exMem := none
        memWb := some (ap s.cfg (issued I) b).1
        counters := { s.counters with hits := s.counters.hits + 1 } } := by
  obtain ⟨hr, -, hI, hw⟩ := hs
  have hstore : storeRun ap (cacheHit ap (issued I) way b s) = cacheHit ap (issued I) way b s := storeRun_idle hreq
  have hrun : (cacheHit ap (issued I) way b s).status = .running := hr
  have hpass := passMemory_some (s := cacheHit ap (issued I) way b s) (I := (ap s.cfg (issued I) b).1) rfl hw
  rw [accessMemory_some hI, issueAccess_hit h ha hl hb, finishAccess_passes hrun (by rw [hstore]; exact hm), hstore, hpass]
  rfl

theorem accessMemory_miss (hs : AtMemory s I) (h : I.memIssued = false) (hreq : s.req = none)
    (hlat : 1 ≤ s.cfg.memLatency) (ha : I.addr.toNat % 8 = 0) (hl : lookupWay s I.addr.toNat = none)
    (hin : InRegion s.cfg I.addr.toNat) : accessMemory ap s = requested I s := by
  obtain ⟨hr, -, hI, -⟩ := hs
  have hstore : storeRun ap (requested I s) = requested I s := storeRun_waits rfl (Nat.lt_add_of_pos_right hlat)
  have hrun : (requested I s).status = .running := hr
  rw [accessMemory_some hI, issueAccess_miss h ha hl, loadBlock_requests hin hreq,
    finishAccess_busy hrun (by rw [hstore]; exact Option.some_ne_none _), hstore]

theorem accessMemory_waits (hs : AtMemory s I) (h : I.memIssued = true) (hm : s.miss = some I.seq) {a t : Nat}
    (hreq : s.req = some (a, t)) (ht : s.tick < t) : accessMemory ap s = s := by
  obtain ⟨hr, -, hI, -⟩ := hs
  rw [accessMemory_some hI, issueAccess_before h,
    finishAccess_busy hr (by rw [storeRun_waits hreq ht, hm]; exact Option.some_ne_none _), storeRun_waits hreq ht]

/-- The block of `a` as it arrives from the backing store (R104, R114). -/
def fetchedBlock (s : State) (a : Nat) : Block :=
  arrivedBlock s a (Memory.readBlock s.mem (baseOf s.cfg a) (blockWords s.cfg))

/-- The access of `I` replayed on its block, which has arrived (R113 to R115). -/
theorem storeRun_replays (hI : s.exMem = some I) (hm : s.miss = some I.seq) {t : Nat}
    (hreq : s.req = some (baseOf s.cfg I.addr.toNat, t)) (ht : t ≤ s.tick) (hg : GeometryOk s.cfg) :
    storeRun ap s =
      { setBlock (evictVictim I.addr.toNat s) I.addr.toNat 0
          { (ap s.cfg I (fetchedBlock s I.addr.toNat)).2 with ts := s.tick } with
        exMem := some (ap s.cfg I (fetchedBlock s I.addr.toNat)).1
        miss := none
        req := none } := by
  obtain ⟨m, n, he⟩ := evictVictim_writes I.addr.toNat s
  rw [storeRun_arrives hreq ht]
  refine (handleResponse_baseOf (s := { s with req := none }) hg).trans ?_
  rw [handleResponse_replays (s := { s with req := none }) hI hm, evictVictim_ended, he]
  rfl

theorem accessMemory_arrives (hs : AtMemory s I) (h : I.memIssued = true) (hm : s.miss = some I.seq) {t : Nat}
    (hreq : s.req = some (baseOf s.cfg I.addr.toNat, t)) (ht : t ≤ s.tick) (hg : GeometryOk s.cfg) :
    accessMemory ap s =
      { setBlock (evictVictim I.addr.toNat s) I.addr.toNat 0
          { (ap s.cfg I (fetchedBlock s I.addr.toNat)).2 with ts := s.tick } with
        exMem := none
        memWb := some (ap s.cfg I (fetchedBlock s I.addr.toNat)).1
        miss := none
        req := none } := by
  obtain ⟨hr, -, hI, hw⟩ := hs
  obtain ⟨m, n, he⟩ := evictVictim_writes I.addr.toNat s
  have hstore := storeRun_replays (ap := ap) hI hm hreq ht hg
  rw [accessMemory_some hI, issueAccess_before h, finishAccess_passes hr (by rw [hstore]), hstore,
    passMemory_some (I := (ap s.cfg I (fetchedBlock s I.addr.toNat)).1) rfl (by rw [he]; exact hw)]

end

/-! ### The statements on hits, misses, arrivals and faults -/

/-- Settles O29: the equation of a hit for each of the two accesses. -/
theorem hitsCompleteInOneCycle : Obligations.HitsCompleteInOneCycle := by
  intro rd rs1 rs2 imm s I way b hs h hm hreq ha hl hb
  have hstage := hs.2.1
  rw [exec_memory_load hstage, exec_memory_store hstage, accessMemory_hit hs h hm hreq ha hl hb,
    accessMemory_hit hs h hm hreq ha hl hb]
  exact ⟨rfl, rfl⟩

/-- Settles O30: the alignment check precedes the lookup, and the bounds check follows the count of the miss. -/
theorem badDataAddressesFault : Obligations.BadDataAddressesFault := by
  intro i s I hs hi h
  obtain ⟨ap, hx⟩ := exec_memory_access hs.2.1 hi
  rw [hx]
  refine ⟨fun ha => ?_, fun ha hl hout => ?_⟩
  · rw [accessMemory_misaligned hs h ha]
    rfl
  · have hout : ¬ InRegion s.cfg I.addr.toNat := by rwa [InRegion, not_and_or, not_le, not_le]
    rw [accessMemory_outside hs h ha hl hout]
    rfl

/-- Settles O31: the equations of a miss and of a wait, and the range that the request touches. -/
theorem missRequestsTheBlockAndWaits : Obligations.MissRequestsTheBlockAndWaits := by
  intro i s I hs hi
  obtain ⟨ap, hx⟩ := exec_memory_access hs.2.1 hi
  rw [hx]
  refine ⟨fun h hreq hlat ha hl hlow hhigh => ?_, fun a t h hm hreq ht => by rw [accessMemory_waits hs h hm hreq ht]⟩
  rw [accessMemory_miss hs h hreq hlat ha hl ⟨hlow, hhigh⟩]
  exact ⟨_, rfl, fun a => mem_touchRange.trans or_comm⟩

/-- Settles O32: the equation of an arrival, with the addressed word read out of the block that arrives. -/
theorem arrivalReplaysTheAccess : Obligations.ArrivalReplaysTheAccess := by
  intro rd rs1 rs2 imm s I t hs h hm hreq ht hg _ ha
  obtain ⟨-, hstage, -, -⟩ := id hs
  obtain ⟨hbase, hword⟩ := baseOf_add_word hg ha
  have hread : (fetchedBlock s I.addr.toNat).data.getD (wordIndexOf s.cfg I.addr.toNat) 0 =
      Memory.readWord s.mem I.addr.toNat :=
    (Memory.readBlock_getD _ _ _ hword).trans (by rw [hbase])
  obtain ⟨m, n, he⟩ := evictVictim_writes I.addr.toNat s
  refine ⟨m, n, ?_, ?_⟩
  · rw [exec_memory_load hstage, accessMemory_arrives hs h hm hreq ht hg, he, applyLoad, hread]
    rfl
  · rw [exec_memory_store hstage, accessMemory_arrives hs h hm hreq ht hg, he]
    rfl

/-! ### What the stage counts, and what it writes back (R114, R115) -/

theorem finishAccess_store (ap : Apply) {s : State} (h : s.status = .running) :
    (finishAccess ap s).mem = (storeRun ap s).mem ∧ (finishAccess ap s).counters = (storeRun ap s).counters := by
  obtain ⟨hn, -⟩ | ⟨-, -, hx⟩ | ⟨-, -, hx⟩ := finishAccess_cases ap s
  · exact absurd h hn
  · rw [hx]
    exact ⟨rfl, rfl⟩
  · rw [hx]
    obtain hp | ⟨I, -, -, hp⟩ := passMemory_cases (storeRun ap s) <;> rw [hp] <;> exact ⟨rfl, rfl⟩

/-- A response writes the backing store and counts only in evicting the victim. -/
theorem handleResponse_store (ap : Apply) (a : Nat) (d : List Word) (s : State) :
    (handleResponse ap a d s).mem = (evictVictim a s).mem ∧
      (handleResponse ap a d s).counters = (evictVictim a s).counters := by
  obtain ⟨e, c, h⟩ := replay_shape ap a (arrivedBlock (evictVictim a s) a d)
    (setBlock (evictVictim a s) a 0 (arrivedBlock (evictVictim a s) a d))
  simp only [handleResponse, h]
  exact ⟨rfl, rfl⟩

/-- What the stage leaves of the backing store when a block arrives for a waiting access. -/
theorem accessMemory_store_arrives (ap : Apply) {I : Record} {s : State} (hs : AtMemory s I) (h : I.memIssued = true)
    {a t : Nat} (hreq : s.req = some (a, t)) (ht : t ≤ s.tick) :
    (accessMemory ap s).mem = (evictVictim a s).mem ∧
      (accessMemory ap s).counters = (evictVictim a s).counters := by
  obtain ⟨hr, -, hI, -⟩ := hs
  obtain ⟨hmem, hcounters⟩ := finishAccess_store ap hr
  obtain ⟨hmem', hcounters'⟩ :=
    handleResponse_store ap a (Memory.readBlock s.mem a (blockWords s.cfg)) { s with req := none }
  rw [accessMemory_some hI, issueAccess_before h, hmem, hcounters, storeRun_arrives hreq ht, hmem', hcounters',
    evictVictim_ended]
  exact ⟨rfl, rfl⟩

/-- No block arrives in the cycle that begins in `s` for the access of `I`. -/
def NothingArrives (I : Record) (s : State) : Prop :=
  I.memIssued = true ∧ (∀ a t, s.req = some (a, t) → s.tick < t) ∨
    I.memIssued = false ∧ s.req = none ∧ 1 ≤ s.cfg.memLatency

theorem storeRun_before_arrival {ap : Apply} {s : State} (h : ∀ a t, s.req = some (a, t) → s.tick < t) :
    storeRun ap s = s := by
  cases hreq : s.req with
  | none => exact storeRun_idle hreq
  | some r => exact storeRun_waits hreq (h _ _ hreq)

theorem accessMemory_store_keeps (ap : Apply) {I : Record} {s : State} (hs : AtMemory s I) (h : NothingArrives I s) :
    (accessMemory ap s).mem = s.mem ∧ (accessMemory ap s).counters.writebacks = s.counters.writebacks := by
  obtain ⟨hr, -, hI, -⟩ := hs
  have hfinish {u : State} (hu : u.status = .running) (hwait : ∀ a t, u.req = some (a, t) → u.tick < t) :
      (finishAccess ap u).mem = u.mem ∧ (finishAccess ap u).counters = u.counters := by
    have hx := finishAccess_store ap hu
    rwa [storeRun_before_arrival hwait] at hx
  rw [accessMemory_some hI]
  obtain ⟨hissued, hwait⟩ | ⟨hnot, hreq, hlat⟩ := h
  · obtain ⟨hm, hc⟩ := hfinish hr hwait
    rw [issueAccess_before hissued, hm, hc]
    exact ⟨rfl, rfl⟩
  · have hresult := issueAccess_result ap I s
    generalize issueAccess ap I s = u at hresult ⊢
    cases hresult with
    | before hissued => simp [hnot] at hissued
    | misaligned => rw [finishAccess_faulted Status.noConfusion]; exact ⟨rfl, rfl⟩
    | outside => rw [finishAccess_faulted Status.noConfusion]; exact ⟨rfl, rfl⟩
    | busy => rw [finishAccess_faulted Status.noConfusion]; exact ⟨rfl, rfl⟩
    | hit _ _ way b =>
      have hnone : (cacheHit ap (issued I) way b s).req = none := hreq
      obtain ⟨hm, hc⟩ := hfinish (u := cacheHit ap (issued I) way b s) hr (by simp [hnone])
      rw [hm, hc]
      exact ⟨rfl, rfl⟩
    | request =>
      obtain ⟨hm, hc⟩ := hfinish (u := requested I s) hr fun a t hat => by
        obtain ⟨rfl, rfl⟩ := Prod.mk.inj (Option.some.inj hat)
        exact Nat.lt_add_of_pos_right hlat
      rw [hm, hc]
      exact ⟨rfl, rfl⟩

/-- Settles O33: only an arrival evicts, and a block written leaves every byte outside it alone. -/
theorem evictionStoresTheVictim : Obligations.EvictionStoresTheVictim := by
  intro i s t I hs hi hwf he
  obtain ⟨ap, hx⟩ := exec_memory_access hs.2.1 hi
  obtain rfl := Host.Outcome.next.inj (hx.symm.trans he)
  refine ⟨fun a u v h hreq hu hv hvalid hdirty => ?_, fun hissue hclean => ?_⟩
  · obtain ⟨hmem, hcounters⟩ := accessMemory_store_arrives ap hs h hreq hu
    have hevict : evictVictim a s = { s with
        counters := { s.counters with writebacks := s.counters.writebacks + 1 }
        mem := Memory.writeBlock s.mem (baseOfTag s.cfg v.tag (setIndexOf s.cfg a)) v.data } := by
      simp [evictVictim, hv, hvalid, hdirty]
    rw [hmem, hcounters, hevict]
    refine ⟨rfl, fun j hj => ?_, fun p hp => Memory.read_writeBlock_outside hwf _ hp⟩
    rw [Memory.readWord_writeBlock_inside hwf _ _ hj, List.getD_eq_getElem _ _ hj]
  · by_cases harrives : I.memIssued = true ∧ ∃ a u, s.req = some (a, u) ∧ u ≤ s.tick
    case pos =>
      obtain ⟨h, a, u, hreq, hu⟩ := harrives
      obtain ⟨hmem, hcounters⟩ := accessMemory_store_arrives ap hs h hreq hu
      have hevict : evictVictim a s = s := by
        obtain hsame | ⟨v, hv, hvalid, hdirty, -⟩ := evictVictim_cases a s
        · exact hsame
        · exact absurd ⟨hvalid, hdirty⟩ (hclean a u v hreq hu hv)
      rw [hmem, hcounters, hevict]
      exact ⟨rfl, fun _ => rfl⟩
    case neg =>
      have hnothing : NothingArrives I s := by
        cases h : I.memIssued with
        | true => exact .inl ⟨h, fun a u hreq => Nat.lt_of_not_le fun hu => harrives ⟨h, a, u, hreq, hu⟩⟩
        | false => exact .inr ⟨h, hissue.resolve_left (by simp [h])⟩
      obtain ⟨hmem, hcounters⟩ := accessMemory_store_keeps ap hs hnothing
      exact ⟨hcounters, fun p => by rw [hmem]⟩

/-- `t` has counted the hits and misses that `s` has. -/
def SameAccessCount (s t : State) : Prop := t.counters.hits = s.counters.hits ∧ t.counters.misses = s.counters.misses

theorem storeRun_accessCount (ap : Apply) (s : State) : SameAccessCount s (storeRun ap s) := by
  obtain ⟨-, hx⟩ | ⟨a, t, -, -, hx⟩ := storeRun_cases ap s <;> rw [hx]
  · exact ⟨rfl, rfl⟩
  · obtain ⟨m, n, he⟩ := evictVictim_writes a { s with req := none }
    rw [SameAccessCount, (handleResponse_store ap a _ _).2, he]
    exact ⟨rfl, rfl⟩

/-- After the access nothing counts a hit or a miss, the replay among it (R115). -/
theorem finishAccess_accessCount (ap : Apply) (s : State) : SameAccessCount s (finishAccess ap s) := by
  by_cases h : s.status = .running
  · rw [SameAccessCount, (finishAccess_store ap h).2]
    exact storeRun_accessCount ap s
  · rw [finishAccess_faulted h]
    exact ⟨rfl, rfl⟩

/-- Settles O34: each way of issuing an aligned access counts it once. -/
theorem everyAccessIsCountedOnce : Obligations.EveryAccessIsCountedOnce := by
  intro i s t I hs hi he
  obtain ⟨ap, hx⟩ := exec_memory_access hs.2.1 hi
  obtain rfl := Host.Outcome.next.inj (hx.symm.trans he)
  obtain ⟨hhits, hmisses⟩ := finishAccess_accessCount ap (issueAccess ap I s)
  rw [accessMemory_some hs.2.2.1, hhits, hmisses]
  refine ⟨fun h ha => ?_, fun h => by rw [issueAccess_before h]; exact ⟨rfl, rfl⟩⟩
  have hresult := issueAccess_result ap I s
  generalize issueAccess ap I s = u at hresult ⊢
  cases hresult with
  | before hissued => simp [h] at hissued
  | misaligned _ hn => exact absurd ha hn
  | hit => exact Nat.add_right_comm _ _ _
  | outside => rfl
  | busy => rfl
  | request => rfl

end Sys2Proof.Machine
end

section
/-! PROOFS. The cache and the backing store as one memory (spec/20_memory.md R109 to R119): the coherent image through each
operation of MEM. Everything is said at aligned addresses: a clean block holds what the backing store holds at every address that
falls into it, an eviction and an installation leave the image alone, and an access changes it at its own address. -/

namespace Sys2Proof.Machine

/-! ### Aligned addresses (R104, R108) -/

/-- `a` falls into the valid block `b`, way 0 of its set. -/
def Resident (s : State) (a : Nat) (b : Block) : Prop :=
  wayZero s (setIndexOf s.cfg a) = some b ∧ b.valid = true ∧ b.tag = tagOf s.cfg a

/-- The word of the block `b` at `a`. -/
def wordAt (cfg : Config) (b : Block) (a : Nat) : Word := b.data.getD (wordIndexOf cfg a) 0

theorem Resident.coherent_eq {s : State} (hs : CacheShaped s) {a : Nat} {b : Block} (h : Resident s a b) :
    coherent s a = wordAt s.cfg b a := coherent_of_resident hs h.1 h.2.1 h.2.2

theorem coherent_of_not_resident {s : State} (hs : CacheShaped s) {a : Nat} (h : ∀ b, ¬ Resident s a b) :
    coherent s a = Memory.readWord s.mem a := coherent_of_absent hs fun b hb hv => h b ⟨hb, hv⟩

theorem lookupWay_eq_none_iff {s : State} (hs : CacheShaped s) (a : Nat) :
    lookupWay s a = none ↔ ∀ b, ¬ Resident s a b := by
  obtain ⟨b, hb, hv, ht, hl, -⟩ | ⟨hl, hn⟩ := lookupWay_cases hs a
  · exact iff_of_false (by simp [hl]) fun h => h b ⟨hb, hv, ht⟩
  · exact iff_of_true hl fun b hb => hn b hb.1 hb.2

/-- An aligned address is its block's base and its word in it. -/
theorem baseOfTag_add_word {cfg : Config} (hg : GeometryOk cfg) {a : Nat} (ha : a % 8 = 0) :
    baseOfTag cfg (tagOf cfg a) (setIndexOf cfg a) + 8 * wordIndexOf cfg a = a := by
  rw [baseOfTag_tagOf]
  exact (baseOf_add_word hg ha).1

/-- Word `j` of a block is at an aligned address that falls into that block at `j`. -/
theorem wordAddress {cfg : Config} (hg : GeometryOk cfg) {t k j : Nat} (hk : k < setCount cfg) (hj : j < blockWords cfg) :
    (baseOfTag cfg t k + 8 * j) % 8 = 0 ∧ setIndexOf cfg (baseOfTag cfg t k + 8 * j) = k ∧
      tagOf cfg (baseOfTag cfg t k + 8 * j) = t ∧ wordIndexOf cfg (baseOfTag cfg t k + 8 * j) = j := by
  have hbytes := blockBytes_eq hg
  have hoff : 8 * j < cfg.blockBytes := by omega
  have hdiv : (baseOfTag cfg t k + 8 * j) / cfg.blockBytes = t * setCount cfg + k := by
    rw [baseOfTag, mul_comm, Nat.mul_add_div hg.1, Nat.div_eq_of_lt hoff, Nat.add_zero]
  have hmod : (baseOfTag cfg t k + 8 * j) % cfg.blockBytes = 8 * j := by
    rw [baseOfTag, mul_comm, Nat.mul_add_mod, Nat.mod_eq_of_lt hoff]
  refine ⟨?_, ?_, ?_, ?_⟩
  · rw [baseOfTag, hbytes, show (t * setCount cfg + k) * (8 * blockWords cfg) + 8 * j =
      8 * ((t * setCount cfg + k) * blockWords cfg + j) by ring, Nat.mul_mod_right]
  · rw [setIndexOf, hdiv, Nat.mul_add_mod', Nat.mod_eq_of_lt hk]
  · rw [tagOf, ← Nat.div_div_eq_div_mul, hdiv, mul_comm, Nat.mul_add_div hg.2.2.1, Nat.div_eq_of_lt hk, Nat.add_zero]
  · rw [wordIndexOf, offsetOf, hmod, Nat.mul_div_cancel_left _ (by omega)]

/-- Clean blocks match the backing store, said at addresses (R110, R114). -/
theorem cleanBlocksMatch_iff {s : State} (hg : GeometryOk s.cfg) (hs : CacheShaped s) :
    CleanBlocksMatch s ↔
      ∀ a b, a % 8 = 0 → Resident s a b → b.dirty = false → wordAt s.cfg b a = Memory.readWord s.mem a := by
  constructor
  · rintro h a b ha ⟨hb, hv, ht⟩ hd
    have hx := h _ b hb hv hd _ (baseOf_add_word hg ha).2
    rwa [ht, baseOfTag_add_word hg ha] at hx
  · intro h k b hb hv hd j hj
    obtain ⟨ha, hset, htag, hword⟩ := wordAddress (t := b.tag) hg (wayZero_bounds hs hb).1 hj
    have hx := h _ b ha ⟨by rw [hset]; exact hb, hv, htag.symm⟩ hd
    rwa [wordAt, hword] at hx

/-! ### The invariant and the image -/

/-- What MEM keeps of cache and backing store together (R112, R114, R119). -/
structure CacheCoherent (s : State) : Prop where
  geometry : GeometryOk s.cfg
  shaped : CacheShaped s
  clean : CleanBlocksMatch s
  blocks : BlocksInRegion s
  memory : MemoryInRegion s
  wf : Memory.wf s.mem

/-- The image of `t` is that of `s` (R119). -/
def SameImage (s t : State) : Prop := ∀ a, a % 8 = 0 → coherent t a = coherent s a

theorem SameImage.trans {s t u : State} (h : SameImage s t) (h' : SameImage t u) : SameImage s u :=
  fun a ha => (h' a ha).trans (h a ha)

/-- The invariant and the image read configuration, cache and backing store alone. -/
theorem CacheCoherent.congr {s t : State} (h : CacheCoherent s) (hcfg : t.cfg = s.cfg) (hcache : t.cache = s.cache)
    (hmem : t.mem = s.mem) : CacheCoherent t := by
  obtain ⟨h1, h2, h3, h4, h5, h6⟩ := h
  have hway : wayZero t = wayZero s := by funext k; simp only [wayZero, hcache]
  exact ⟨by rwa [hcfg], by rwa [CacheShaped, hcfg, hcache], by rwa [CleanBlocksMatch, hway, hcfg, hmem],
    by rwa [BlocksInRegion, hway, hcfg], by rwa [MemoryInRegion, hcfg, hmem], by rwa [hmem]⟩

theorem sameImage_of_eq {s t : State} (hcfg : t.cfg = s.cfg) (hcache : t.cache = s.cache) (hmem : t.mem = s.mem) :
    SameImage s t := by
  intro a _
  simp only [coherent, lookupWay, blockAt, cacheSetOf, hcfg, hcache, hmem]

/-- Where neither the set's way 0 nor the word in the backing store changes, the image does not. -/
theorem coherent_congr {s t : State} (hs : CacheShaped s) (ht : CacheShaped t) (hcfg : t.cfg = s.cfg) {a : Nat}
    (hway : wayZero t (setIndexOf s.cfg a) = wayZero s (setIndexOf s.cfg a))
    (hmem : Memory.readWord t.mem a = Memory.readWord s.mem a) : coherent t a = coherent s a := by
  have hres (b : Block) : Resident t a b ↔ Resident s a b := by rw [Resident, Resident, hcfg, hway]
  by_cases hb : ∃ b, Resident s a b
  · obtain ⟨b, hb⟩ := hb
    rw [hb.coherent_eq hs, ((hres b).mpr hb).coherent_eq ht, hcfg]
  · rw [not_exists] at hb
    rw [coherent_of_not_resident hs hb, coherent_of_not_resident ht fun b hr => hb b ((hres b).mp hr), hmem]

/-! ### A block put into way 0 (R110, R114) -/

theorem resident_setBlock {s : State} (hg : GeometryOk s.cfg) (hs : CacheShaped s) (a : Nat) (b : Block) {c : Nat}
    {d : Block} :
    Resident (setBlock s a 0 b) c d ↔
      if setIndexOf s.cfg c = setIndexOf s.cfg a then d = b ∧ b.valid = true ∧ b.tag = tagOf s.cfg c
      else Resident s c d := by
  rw [Resident, setBlock_cfg, wayZero_setBlock hg hs]
  split
  · rw [Option.some_inj]
    constructor <;> rintro ⟨rfl, h⟩ <;> exact ⟨rfl, h⟩
  · rfl

/-- A block put into way 0 keeps the invariant if it is of the spec's form, lies in the region, and matches the backing store
when clean. -/
theorem cacheCoherent_setBlock {s : State} (h : CacheCoherent s) (a : Nat) (b : Block)
    (hlen : b.data.length = blockWords s.cfg)
    (hin : s.cfg.codeBytes ≤ baseOfTag s.cfg b.tag (setIndexOf s.cfg a) ∧
      baseOfTag s.cfg b.tag (setIndexOf s.cfg a) + s.cfg.blockBytes ≤ s.cfg.memBytes)
    (hclean : b.dirty = false → ∀ c, c % 8 = 0 → setIndexOf s.cfg c = setIndexOf s.cfg a → b.tag = tagOf s.cfg c →
      wordAt s.cfg b c = Memory.readWord s.mem c) : CacheCoherent (setBlock s a 0 b) := by
  have hshaped := cacheShaped_setBlock h.shaped a b hlen
  refine ⟨h.geometry, hshaped, ?_, ?_, h.memory, h.wf⟩
  · rw [cleanBlocksMatch_iff (s := setBlock s a 0 b) h.geometry hshaped]
    intro c d hc hres hd
    rw [resident_setBlock h.geometry h.shaped] at hres
    split at hres
    case isTrue hset =>
      obtain ⟨rfl, -, ht⟩ := hres
      exact hclean hd c hc hset ht
    case isFalse => exact (cleanBlocksMatch_iff h.geometry h.shaped).mp h.clean c d hc hres hd
  · intro k d hd hv
    rw [wayZero_setBlock h.geometry h.shaped] at hd
    split at hd
    case isTrue hk =>
      obtain rfl := Option.some.inj hd
      rw [hk]
      exact hin
    case isFalse => exact h.blocks k d hd hv

/-! ### Eviction (R114) -/

/-- The victim's words stand in the backing store after the eviction, whether it was dirty or clean. -/
theorem evictVictim_matches {s : State} (h : CacheCoherent s) {a c : Nat} (hc : c % 8 = 0) {v : Block}
    (hset : setIndexOf s.cfg c = setIndexOf s.cfg a) (hv : Resident s c v) :
    Memory.readWord (evictVictim a s).mem c = wordAt s.cfg v c := by
  have hword := (baseOf_add_word h.geometry hc).2
  have hclean := (cleanBlocksMatch_iff h.geometry h.shaped).mp h.clean c v hc hv
  obtain ⟨hway, hvalid, htag⟩ := hv
  have hat : blockAt s a 0 = some v := by rw [blockAt_zero, ← hset, hway]
  cases hd : v.dirty with
  | false =>
    have hx : evictVictim a s = s := by simp [evictVictim, hat, hd]
    rw [hx, hclean hd]
  | true =>
    have hlen : wordIndexOf s.cfg c < v.data.length := (wayZero_bounds h.shaped hway).2 ▸ hword
    have hx := Memory.readWord_writeBlock_inside h.wf (baseOfTag s.cfg v.tag (setIndexOf s.cfg a)) v.data hlen
    rw [htag, ← hset, baseOfTag_add_word h.geometry hc] at hx
    simp only [evictVictim, hat, hvalid, hd, Bool.and_self, if_true, htag, ← hset, hx]
    exact (List.getD_eq_getElem _ _ hlen).symm

/-- A word outside the victim keeps its value in the backing store. -/
theorem evictVictim_other {s : State} (h : CacheCoherent s) {a c : Nat} (hc : c % 8 = 0)
    (hn : ∀ v, setIndexOf s.cfg c = setIndexOf s.cfg a → ¬ Resident s c v) :
    Memory.readWord (evictVictim a s).mem c = Memory.readWord s.mem c := by
  obtain hx | ⟨v, hv, hvalid, -, hx⟩ := evictVictim_cases a s <;> rw [hx]
  rw [blockAt_zero] at hv
  obtain ⟨hk, hlen⟩ := wayZero_bounds h.shaped hv
  have hne : ¬ (v.tag = tagOf s.cfg c ∧ setIndexOf s.cfg a = setIndexOf s.cfg c) := fun ⟨ht, he⟩ =>
    hn v he.symm ⟨by rw [← he, hv], hvalid, ht⟩
  have hdisjoint := baseOfTag_disjoint h.geometry hk (setIndexOf_lt h.geometry c) hne
  have hbytes := blockBytes_eq h.geometry
  have hat := baseOfTag_add_word h.geometry hc
  have hword := (baseOf_add_word h.geometry hc).2
  exact Memory.readWord_writeBlock_outside h.wf _ (by omega)

/-- An eviction leaves the image alone: the victim still stands in the cache. -/
theorem evictVictim_sameImage {s : State} (h : CacheCoherent s) (a : Nat) : SameImage s (evictVictim a s) := by
  obtain ⟨m, n, he⟩ := evictVictim_writes a s
  have hshaped : CacheShaped (evictVictim a s) := by rw [he]; exact h.shaped
  have hres (c : Nat) (b : Block) : Resident (evictVictim a s) c b ↔ Resident s c b := by rw [he]; rfl
  intro c hc
  by_cases hb : ∃ b, Resident s c b
  · obtain ⟨b, hb⟩ := hb
    rw [hb.coherent_eq h.shaped, ((hres c b).mpr hb).coherent_eq hshaped, he]
  · rw [not_exists] at hb
    rw [coherent_of_not_resident h.shaped hb, coherent_of_not_resident hshaped fun b hr => hb b ((hres c b).mp hr)]
    exact evictVictim_other h hc fun v _ => hb v

theorem evictVictim_coherent {s : State} (h : CacheCoherent s) (a : Nat) : CacheCoherent (evictVictim a s) := by
  obtain ⟨m, n, he⟩ := evictVictim_writes a s
  have hshaped : CacheShaped (evictVictim a s) := by rw [he]; exact h.shaped
  have hgeometry : GeometryOk (evictVictim a s).cfg := by rw [he]; exact h.geometry
  refine ⟨hgeometry, hshaped, ?_, by rw [he]; exact h.blocks, ?_, (formKept_evictVictim a s).1 h.wf⟩
  · rw [cleanBlocksMatch_iff hgeometry hshaped]
    intro c b hc hb hd
    have hcfg : (evictVictim a s).cfg = s.cfg := by rw [he]
    have hb' : Resident s c b := by rw [he] at hb; exact hb
    rw [hcfg]
    by_cases hset : setIndexOf s.cfg c = setIndexOf s.cfg a
    · exact (evictVictim_matches h hc hset hb').symm
    · rw [evictVictim_other h hc fun v hv => absurd hv hset]
      exact (cleanBlocksMatch_iff h.geometry h.shaped).mp h.clean c b hc hb' hd
  · obtain hx | ⟨v, hv, hvalid, -, hx⟩ := evictVictim_cases a s <;> rw [hx]
    · exact h.memory
    · rw [blockAt_zero] at hv
      obtain ⟨hlow, hhigh⟩ := h.blocks _ v hv hvalid
      have hlen := (wayZero_bounds h.shaped hv).2
      have hbytes := blockBytes_eq h.geometry
      exact Memory.address_writeBlock (p := fun a => s.cfg.codeBytes ≤ a ∧ a < s.cfg.memBytes) h.memory
        fun j hj => ⟨by omega, by omega⟩

/-! ### Installation (R114) -/

/-- Where a resident block holds what the backing store holds, the image is the backing store. -/
theorem coherent_eq_memory {s : State} (hs : CacheShaped s) {a : Nat}
    (h : ∀ b, Resident s a b → wordAt s.cfg b a = Memory.readWord s.mem a) : coherent s a = Memory.readWord s.mem a := by
  by_cases hb : ∃ b, Resident s a b
  · obtain ⟨b, hb⟩ := hb
    rw [hb.coherent_eq hs, h b hb]
  · exact coherent_of_not_resident hs (not_exists.mp hb)

/-- A block replaced by one leaves the image alone when both hold what the backing store holds. -/
theorem setBlock_sameImage {s : State} (h : CacheCoherent s) (a : Nat) {b : Block} (hlen : b.data.length = blockWords s.cfg)
    (hold : ∀ c v, c % 8 = 0 → setIndexOf s.cfg c = setIndexOf s.cfg a → Resident s c v →
      wordAt s.cfg v c = Memory.readWord s.mem c)
    (hnew : ∀ c, c % 8 = 0 → setIndexOf s.cfg c = setIndexOf s.cfg a → b.tag = tagOf s.cfg c →
      wordAt s.cfg b c = Memory.readWord s.mem c) : SameImage s (setBlock s a 0 b) := by
  have hshaped := cacheShaped_setBlock h.shaped a b hlen
  intro c hc
  by_cases hset : setIndexOf s.cfg c = setIndexOf s.cfg a
  case neg =>
    refine coherent_congr h.shaped hshaped rfl ?_ rfl
    rw [wayZero_setBlock h.geometry h.shaped, if_neg hset]
  case pos =>
    rw [coherent_eq_memory h.shaped fun v hv => hold c v hc hset hv]
    refine coherent_eq_memory hshaped fun v hv => ?_
    rw [resident_setBlock h.geometry h.shaped, if_pos hset] at hv
    obtain ⟨rfl, -, ht⟩ := hv
    exact hnew c hc hset ht

/-- `s` with the block of `a` in way 0 of its set, the victim evicted (R114). -/
def installed (s : State) (a : Nat) : State := setBlock (evictVictim a s) a 0 (fetchedBlock s a)

theorem fetchedBlock_word {s : State} (hg : GeometryOk s.cfg) {a c : Nat} (hc : c % 8 = 0)
    (hset : setIndexOf s.cfg c = setIndexOf s.cfg a) (htag : tagOf s.cfg a = tagOf s.cfg c) :
    wordAt s.cfg (fetchedBlock s a) c = Memory.readWord s.mem c := by
  refine (Memory.readBlock_getD _ _ _ (baseOf_add_word hg hc).2).trans ?_
  rw [← baseOfTag_tagOf, htag, ← hset, baseOfTag_add_word hg hc]

/-- Installing an absent block of the data region keeps the invariant and leaves the image alone. -/
theorem installed_coherent {s : State} (h : CacheCoherent s) {a : Nat} (habsent : ∀ b, ¬ Resident s a b)
    (hin : InRegion s.cfg a) :
    CacheCoherent (installed s a) ∧ SameImage s (installed s a) ∧ Resident (installed s a) a (fetchedBlock s a) := by
  have hevict := evictVictim_coherent h a
  have himage := evictVictim_sameImage h a
  obtain ⟨m, n, he⟩ := evictVictim_writes a s
  have hcfg : (evictVictim a s).cfg = s.cfg := by rw [he]
  have hlen : (fetchedBlock s a).data.length = blockWords (evictVictim a s).cfg := by
    rw [hcfg]
    exact Memory.readBlock_length _ _ _
  have hnew : ∀ c, c % 8 = 0 → setIndexOf (evictVictim a s).cfg c = setIndexOf (evictVictim a s).cfg a →
      (fetchedBlock s a).tag = tagOf (evictVictim a s).cfg c →
      wordAt (evictVictim a s).cfg (fetchedBlock s a) c = Memory.readWord (evictVictim a s).mem c := by
    rw [hcfg]
    intro c hc hset htag
    rw [fetchedBlock_word h.geometry hc hset htag]
    refine (evictVictim_other h hc fun v _ hv => habsent v ?_).symm
    exact ⟨hset ▸ hv.1, hv.2.1, hv.2.2.trans htag.symm⟩
  refine ⟨cacheCoherent_setBlock hevict a _ hlen ?_ fun _ => hnew,
    himage.trans (setBlock_sameImage hevict a hlen ?_ hnew), ?_⟩
  · rw [hcfg]
    exact (baseOfTag_tagOf s.cfg a).symm ▸ hin
  · intro c v hc hset hv
    have hv' : Resident s c v := by rw [he] at hv; exact hv
    rw [hcfg] at hset ⊢
    exact (evictVictim_matches h hc hset hv').symm
  · rw [installed, resident_setBlock hevict.geometry hevict.shaped, if_pos rfl, hcfg]
    exact ⟨rfl, rfl, rfl⟩

/-! ### The access itself (R110) -/

/-- What an access makes of its record and of the word it addresses, whose old value is `w` (R110). -/
structure WordAccess where
  record : Word → Record → Record
  word : Word → Record → Word

/-- `LD` takes the word and leaves it (R110). -/
def loadAccess : WordAccess where
  record w I := { I with rdVal := w, ready := true }
  word w _ := w

/-- `SD` replaces the word by its data (R110). -/
def storeAccess : WordAccess where
  record _ I := I
  word _ I := I.rs2Val

/-- `ap` does the access `A` on the addressed word of a block, and a block it leaves clean it leaves as it was. -/
structure Performs (ap : Apply) (A : WordAccess) : Prop where
  record : ∀ cfg I b, (ap cfg I b).1 = A.record (wordAt cfg b I.addr.toNat) I
  form : ∀ cfg I b, (ap cfg I b).2.valid = b.valid ∧ (ap cfg I b).2.tag = b.tag ∧
    (ap cfg I b).2.data.length = b.data.length
  clean : ∀ cfg I b, (ap cfg I b).2.dirty = false → (ap cfg I b).2 = b
  word : ∀ cfg I b, wordIndexOf cfg I.addr.toNat < b.data.length → ∀ c,
    wordAt cfg (ap cfg I b).2 c =
      if wordIndexOf cfg c = wordIndexOf cfg I.addr.toNat then A.word (wordAt cfg b I.addr.toNat) I else wordAt cfg b c

theorem applyLoad_performs : Performs applyLoad loadAccess where
  record _ _ _ := rfl
  form _ _ _ := ⟨rfl, rfl, rfl⟩
  clean _ _ _ _ := rfl
  word cfg I b _ c := by
    show wordAt cfg b c = if _ then wordAt cfg b I.addr.toNat else wordAt cfg b c
    split
    case isTrue h => rw [wordAt, wordAt, h]
    case isFalse => rfl

theorem applyStore_performs : Performs applyStore storeAccess where
  record _ _ _ := rfl
  form _ _ _ := ⟨rfl, rfl, List.length_set⟩
  clean _ _ _ h := by cases h
  word cfg I b hlt c := by
    simp only [wordAt, applyStore, storeAccess, List.getD_eq_getElem?_getD, List.getElem?_set]
    by_cases h : wordIndexOf cfg I.addr.toNat = wordIndexOf cfg c
    · rw [if_pos h, if_pos h.symm, if_pos hlt, Option.getD_some]
    · rw [if_neg h, if_neg (Ne.symm h)]

/-- `t` has the image of `s` but for the access `A` of `J`, which is done. -/
def ImageAfter (A : WordAccess) (J : Record) (s t : State) : Prop :=
  ∀ c, c % 8 = 0 →
    coherent t c = if c = J.addr.toNat then A.word (coherent s J.addr.toNat) J else coherent s c

theorem SameImage.imageAfter {A : WordAccess} {J : Record} {s t u : State} (h : SameImage s t) (hJ : J.addr.toNat % 8 = 0)
    (h' : ImageAfter A J t u) : ImageAfter A J s u := by
  intro c hc
  rw [h' c hc, h c hc, h _ hJ]

theorem ImageAfter.then_same {A : WordAccess} {J : Record} {s t u : State} (h : ImageAfter A J s t)
    (h' : SameImage t u) : ImageAfter A J s u := fun c hc => (h' c hc).trans (h c hc)

/-- Aligned addresses of one set, one tag and one word are one. -/
theorem aligned_ext {cfg : Config} (hg : GeometryOk cfg) {a c : Nat} (ha : a % 8 = 0) (hc : c % 8 = 0)
    (hset : setIndexOf cfg c = setIndexOf cfg a) (htag : tagOf cfg c = tagOf cfg a)
    (hword : wordIndexOf cfg c = wordIndexOf cfg a) : c = a := by
  rw [← baseOfTag_add_word hg hc, hset, htag, hword, baseOfTag_add_word hg ha]

/-- A resident block replaced by one that differs from it in the word of `a` alone changes the image at `a` alone. -/
theorem coherent_setBlock {s : State} (h : CacheCoherent s) {a : Nat} (ha : a % 8 = 0) {b b' : Block} {v : Word}
    (hb : Resident s a b) (hvalid : b'.valid = b.valid) (htag : b'.tag = b.tag)
    (hlen : b'.data.length = blockWords s.cfg)
    (hword : ∀ c, wordAt s.cfg b' c = if wordIndexOf s.cfg c = wordIndexOf s.cfg a then v else wordAt s.cfg b c) {c : Nat}
    (hc : c % 8 = 0) : coherent (setBlock s a 0 b') c = if c = a then v else coherent s c := by
  have hshaped := cacheShaped_setBlock h.shaped a b' hlen
  obtain ⟨hway, hbv, hbt⟩ := hb
  by_cases hset : setIndexOf s.cfg c = setIndexOf s.cfg a
  case neg =>
    rw [if_neg fun e => hset (by rw [e])]
    refine coherent_congr h.shaped hshaped rfl ?_ rfl
    rw [wayZero_setBlock h.geometry h.shaped, if_neg hset]
  case pos =>
    have hres (d : Block) := resident_setBlock h.geometry h.shaped a b' (c := c) (d := d)
    simp only [if_pos hset] at hres
    by_cases ht : b.tag = tagOf s.cfg c
    case pos =>
      have hbc : Resident s c b := ⟨hset ▸ hway, hbv, ht⟩
      have hiff : wordIndexOf s.cfg c = wordIndexOf s.cfg a ↔ c = a :=
        ⟨aligned_ext h.geometry ha hc hset (ht.symm.trans hbt), fun e => by rw [e]⟩
      rw [((hres b').mpr ⟨rfl, hvalid.trans hbv, htag.trans ht⟩).coherent_eq hshaped, hbc.coherent_eq h.shaped,
        setBlock_cfg, hword]
      simp only [hiff]
    case neg =>
      have habsent : ∀ d, ¬ Resident s c d := fun d hd => by
        obtain rfl := Option.some.inj (hway.symm.trans (hset ▸ hd.1))
        exact ht hd.2.2
      rw [if_neg fun e : c = a => ht (e ▸ hbt), coherent_of_not_resident h.shaped habsent]
      exact coherent_of_not_resident hshaped fun d hd => ht (htag.symm.trans ((hres d).mp hd).2.2)

/-- An access on the resident block of its address keeps the invariant and changes the image at that address alone. -/
theorem access_coherent {ap : Apply} {A : WordAccess} (hA : Performs ap A) {s : State} (h : CacheCoherent s) {J : Record}
    (hJ : J.addr.toNat % 8 = 0) {b : Block} (hb : Resident s J.addr.toNat b) (n : Nat) :
    (ap s.cfg J b).1 = A.record (coherent s J.addr.toNat) J ∧
      CacheCoherent (setBlock s J.addr.toNat 0 { (ap s.cfg J b).2 with ts := n }) ∧
      ImageAfter A J s (setBlock s J.addr.toNat 0 { (ap s.cfg J b).2 with ts := n }) := by
  obtain ⟨hvalid, htag, hlength⟩ := hA.form s.cfg J b
  have hlen : (ap s.cfg J b).2.data.length = blockWords s.cfg := hlength.trans (wayZero_bounds h.shaped hb.1).2
  have hlt : wordIndexOf s.cfg J.addr.toNat < b.data.length := by
    rw [← hlength, hlen]
    exact (baseOf_add_word h.geometry hJ).2
  have hword := hA.word s.cfg J b hlt
  rw [← hb.coherent_eq h.shaped] at hword
  refine ⟨by rw [hA.record, hb.coherent_eq h.shaped], cacheCoherent_setBlock h _ _ hlen ?_ ?_, fun c hc =>
    coherent_setBlock (b' := { (ap s.cfg J b).2 with ts := n }) h hJ hb hvalid htag hlen hword hc⟩
  · have hin := h.blocks _ b hb.1 hb.2.1
    rwa [← htag] at hin
  · intro hd c hc hset ht
    have hsame := hA.clean s.cfg J b hd
    have hbt : b.tag = tagOf s.cfg c := htag.symm.trans ht
    rw [hsame] at hd
    refine (congrArg (wordAt s.cfg · c) hsame).trans ?_
    exact (cleanBlocksMatch_iff h.geometry h.shaped).mp h.clean c b hc ⟨hset ▸ hb.1, hb.2.1, hbt⟩ hd

/-! ### The stage (R213) -/

/-- The access of `J`, issued, waits in `EX_MEM` for its block, which is absent, and the image is that of `s` (R111, R112). -/
structure AccessPending (J : Record) (s u : State) : Prop where
  running : u.status = .running
  exMem : u.exMem = some J
  memWb : u.memWb = none
  issued : J.memIssued = true
  miss : u.miss = some J.seq
  req : ∃ t, u.req = some (baseOf u.cfg J.addr.toNat, t)
  aligned : J.addr.toNat % 8 = 0
  region : InRegion u.cfg J.addr.toNat
  absent : lookupWay u J.addr.toNat = none
  coherent : CacheCoherent u
  image : SameImage s u

/-- The access `A` of `J` is done, on the image of `s`, and nothing is outstanding (R110, R115). -/
structure AccessDone (A : WordAccess) (J : Record) (s u : State) : Prop where
  running : u.status = .running
  exMem : u.exMem = some (A.record (coherent s J.addr.toNat) J)
  memWb : u.memWb = none
  miss : u.miss = none
  req : u.req = none
  aligned : J.addr.toNat % 8 = 0
  coherent : CacheCoherent u
  image : ImageAfter A J s u

/-- A pending access is what `RequestMatches` asks for. -/
theorem AccessPending.requestMatches {J : Record} {s u : State} (h : AccessPending J s u) (hJ : isMemory J.instr = true) :
    RequestMatches u := by
  intro a t hat
  obtain ⟨t', hreq⟩ := h.req
  obtain ⟨rfl, rfl⟩ := Prod.mk.inj (Option.some.inj (hreq.symm.trans hat))
  exact ⟨h.region.1, h.region.2, J, h.exMem, hJ, h.miss, h.issued, h.aligned, rfl, h.absent⟩

/-- A record whose access was issued in an earlier cycle has it pending (R223). -/
theorem accessPending_of_issued {s : State} {I : Record} (hr : s.status = .running) (h : CacheCoherent s)
    (hreq : RequestMatches s) (hm : MissHeld s) (hI : s.exMem = some I) (hw : s.memWb = none) (hissued : I.memIssued = true) :
    AccessPending I s s := by
  obtain ⟨-, hone, hmissed, -⟩ := hm
  have hmiss := hmissed I hI hissued
  rw [hmiss] at hone
  obtain ⟨⟨a, t⟩, hat⟩ := Option.isSome_iff_exists.mp hone
  obtain ⟨hlow, hhigh, K, hK, -, -, -, ha, rfl, habsent⟩ := hreq a t hat
  obtain rfl := Option.some.inj (hI.symm.trans hK)
  exact ⟨hr, hI, hw, hissued, hmiss, ⟨t, hat⟩, ha, ⟨hlow, hhigh⟩, habsent, h, fun _ _ => rfl⟩

/-- A hit does the access on the resident block (R110). -/
theorem accessDone_of_hit {ap : Apply} {A : WordAccess} (hA : Performs ap A) {s : State} {J : Record}
    (hr : s.status = .running) (h : CacheCoherent s) (hw : s.memWb = none) (hmiss : s.miss = none) (hreq : s.req = none)
    (hJ : J.addr.toNat % 8 = 0) {way : Nat} {b : Block}
    (hl : lookupWay s J.addr.toNat = some way) (hb : blockAt s J.addr.toNat way = some b) :
    AccessDone A J s (cacheHit ap J way b s) := by
  obtain ⟨c, hc, hv, ht, hl', hb'⟩ | ⟨hn, -⟩ := lookupWay_cases h.shaped J.addr.toNat
  · obtain rfl := Option.some.inj (hl'.symm.trans hl)
    obtain rfl := Option.some.inj (hb'.symm.trans hb)
    obtain ⟨hrecord, hcoherent, himage⟩ := access_coherent hA h hJ ⟨hc, hv, ht⟩ s.tick
    exact ⟨hr, congrArg some hrecord, hw, hmiss, hreq, hJ, hcoherent.congr rfl rfl rfl,
      himage.then_same (sameImage_of_eq rfl rfl rfl)⟩
  · rw [hn] at hl
    cases hl

/-- While `EX_MEM` holds no issued memory record, nothing is outstanding (R223). -/
theorem MissHeld.no_miss_at {s : State} (h : MissHeld s) {I : Record} (hI : s.exMem = some I)
    (hn : I.memIssued = false ∨ isMemory I.instr = false) : s.miss = none ∧ s.req = none := by
  refine h.no_miss (.inr fun K hK hc => ?_)
  obtain rfl := Option.some.inj (hI.symm.trans hK)
  simp [hc] at hn

/-- Issuing the access raises a fault on the same image, leaves it pending, or does it (R109 to R112). -/
theorem issueAccess_coherent {ap : Apply} {A : WordAccess} (hA : Performs ap A) {s : State} {I : Record}
    (hr : s.status = .running) (h : CacheCoherent s) (hreq : RequestMatches s) (hm : MissHeld s) (hI : s.exMem = some I)
    (hw : s.memWb = none) :
    ((issueAccess ap I s).status ≠ .running ∧ (issueAccess ap I s).memWb = none ∧ SameImage s (issueAccess ap I s)) ∨
      AccessPending (issued I) s (issueAccess ap I s) ∨ AccessDone A (issued I) s (issueAccess ap I s) := by
  have hresult := issueAccess_result ap I s
  generalize issueAccess ap I s = u at hresult ⊢
  cases hresult with
  | before hissued =>
    rw [issued_of_issued hissued]
    exact .inr (.inl (accessPending_of_issued hr h hreq hm hI hw hissued))
  | misaligned => exact .inl ⟨Status.noConfusion, hw, sameImage_of_eq rfl rfl rfl⟩
  | outside => exact .inl ⟨Status.noConfusion, hw, sameImage_of_eq rfl rfl rfl⟩
  | busy => exact .inl ⟨Status.noConfusion, hw, sameImage_of_eq rfl rfl rfl⟩
  | hit hnot ha way b hl hb =>
    obtain ⟨hmiss, hnone⟩ := hm.no_miss_at hI (.inl hnot)
    exact .inr (.inr (accessDone_of_hit (J := issued I) hA hr h hw hmiss hnone ha hl hb))
  | request _ ha hl hin =>
    exact .inr (.inl ⟨hr, rfl, hw, rfl, rfl, ⟨_, rfl⟩, ha, hin, hl, h.congr rfl rfl rfl, sameImage_of_eq rfl rfl rfl⟩)

theorem installed_cfg_tick (s : State) (a : Nat) : (installed s a).cfg = s.cfg ∧ (installed s a).tick = s.tick := by
  obtain ⟨m, n, he⟩ := evictVictim_writes a s
  rw [installed, he]
  exact ⟨rfl, rfl⟩

/-- The backing store leaves a pending access waiting, or installs its block and does it there (R113 to R115). -/
theorem storeRun_coherent {ap : Apply} {A : WordAccess} (hA : Performs ap A) {J : Record} {s u : State}
    (h : AccessPending J s u) : AccessPending J s (storeRun ap u) ∨ AccessDone A J s (storeRun ap u) := by
  obtain ⟨t, hreq⟩ := h.req
  by_cases ht : u.tick < t
  · rw [storeRun_waits hreq ht]
    exact .inl h
  · have habsent := (lookupWay_eq_none_iff h.coherent.shaped _).mp h.absent
    obtain ⟨hinstalled, himage, hres⟩ := installed_coherent h.coherent habsent h.region
    obtain ⟨hcfg, htick⟩ := installed_cfg_tick u J.addr.toNat
    obtain ⟨hrecord, hcoherent, hafter⟩ := access_coherent hA hinstalled h.aligned hres u.tick
    obtain ⟨m, n, he⟩ := evictVictim_writes J.addr.toNat u
    have hall := h.image.trans himage
    rw [storeRun_replays h.exMem h.miss hreq (Nat.le_of_not_lt ht) h.coherent.geometry]
    rw [hcfg, installed, setBlock_setBlock] at hcoherent hafter
    rw [hcfg, hall _ h.aligned] at hrecord
    refine .inr ⟨?_, congrArg some hrecord, ?_, rfl, rfl, h.aligned, hcoherent.congr rfl rfl rfl, ?_⟩
    · rw [he]; exact h.running
    · rw [he]; exact h.memWb
    · exact (hall.imageAfter h.aligned hafter).then_same (sameImage_of_eq rfl rfl rfl)

/-- What MEM makes of a memory instruction: a fault or a wait on the same image, or the access done and the record in `MEM_WB`
(R110 to R116, R213). -/
inductive AccessOutcome (A : WordAccess) (J : Record) (s t : State) : Prop where
  | faulted (hr : t.status ≠ .running) (hw : t.memWb = none) (himage : SameImage s t)
  | waits (h : AccessPending J s t)
  | done (hw : t.memWb = some (A.record (coherent s J.addr.toNat) J)) (hreq : t.req = none)
      (hJ : J.addr.toNat % 8 = 0) (hcoherent : CacheCoherent t) (himage : ImageAfter A J s t)

theorem accessOutcome_of_done {A : WordAccess} {J : Record} {s u : State} (h : AccessDone A J s u) :
    AccessOutcome A J s (passMemory u) := by
  rw [passMemory_some h.exMem h.memWb]
  exact .done rfl h.req h.aligned (h.coherent.congr rfl rfl rfl) (h.image.then_same (sameImage_of_eq rfl rfl rfl))

/-- After a pending or finished access the record waits, or is passed on once the cache is idle (R116). -/
theorem finishAccess_coherent {ap : Apply} {A : WordAccess} (hA : Performs ap A) {J : Record} {s u : State}
    (h : AccessPending J s u ∨ AccessDone A J s u) : AccessOutcome A J s (finishAccess ap u) := by
  have hrun : u.status = .running := h.elim AccessPending.running AccessDone.running
  have hstore : AccessPending J s (storeRun ap u) ∨ AccessDone A J s (storeRun ap u) := by
    obtain h | h := h
    · exact storeRun_coherent hA h
    · rw [storeRun_idle h.req]
      exact .inr h
  obtain h | h := hstore
  · rw [finishAccess_busy hrun (by rw [h.miss]; exact Option.some_ne_none _)]
    exact .waits h
  · rw [finishAccess_passes hrun h.miss]
    exact accessOutcome_of_done h

theorem accessMemory_outcome {ap : Apply} {A : WordAccess} (hA : Performs ap A) {s : State} {I : Record}
    (hr : s.status = .running) (h : CacheCoherent s) (hreq : RequestMatches s) (hm : MissHeld s) (hI : s.exMem = some I)
    (hw : s.memWb = none) : AccessOutcome A (issued I) s (accessMemory ap s) := by
  rw [accessMemory_some hI]
  obtain ⟨hr', hw', himage⟩ | hissue := issueAccess_coherent hA hr h hreq hm hI hw
  · rw [finishAccess_faulted hr']
    exact .faulted hr' hw' himage
  · exact finishAccess_coherent hA hissue

/-- The image that MEM leaves: the same, or changed by the access alone. -/
theorem AccessOutcome.image {A : WordAccess} {J : Record} {s t : State} (h : AccessOutcome A J s t) :
    (t.memWb = none ∧ SameImage s t) ∨
      (t.memWb = some (A.record (coherent s J.addr.toNat) J) ∧ J.addr.toNat % 8 = 0 ∧ ImageAfter A J s t) := by
  cases h with
  | faulted _ hw himage => exact .inl ⟨hw, himage⟩
  | waits h => exact .inl ⟨h.memWb, h.image⟩
  | done hw _ hJ _ himage => exact .inr ⟨hw, hJ, himage⟩

/-- Settles O35: the image that MEM leaves, for a load and for a store. -/
theorem loadsAndStoresActOnTheCoherentImage : Obligations.LoadsAndStoresActOnTheCoherentImage := by
  rintro i s t I ⟨hr, hstage, hI, hw⟩ - hi hordered hcoherent hwf he
  obtain ⟨-, -, hm⟩ := hordered hr
  obtain ⟨hgeometry, hshaped, hclean, hblocks, hreq, hmemory⟩ := hcoherent hr
  have h : CacheCoherent s := ⟨hgeometry, hshaped, hclean, hblocks, hmemory, hwf⟩
  obtain ⟨rd, rs1, imm, rfl, hx⟩ | ⟨rs1, rs2, imm, rfl, hx⟩ | ⟨hn, -⟩ := exec_memory hstage i
  case inr.inr => simp [hi] at hn
  all_goals obtain rfl := Host.Outcome.next.inj (hx.symm.trans he)
  · obtain ⟨hw', himage⟩ | ⟨hw', -, himage⟩ := (accessMemory_outcome applyLoad_performs hr h hreq hm hI hw).image
    · exact ⟨by simp [hw'], by simp, fun a ha _ _ _ => himage a ha⟩
    · refine ⟨fun J _ _ _ _ hJ => Option.some.inj (hJ.symm.trans hw'), by simp, fun a ha _ _ _ => ?_⟩
      rw [himage a ha]
      split
      case isTrue heq => exact congrArg (coherent s) heq.symm
      case isFalse => rfl
  · obtain ⟨hw', himage⟩ | ⟨hw', hJ, himage⟩ := (accessMemory_outcome applyStore_performs hr h hreq hm hI hw).image
    · exact ⟨by simp, by simp [hw'], fun a ha _ _ _ => himage a ha⟩
    · refine ⟨by simp, fun _ _ _ _ _ => (himage _ hJ).trans (if_pos rfl), fun a ha _ _ hne => ?_⟩
      exact (himage a ha).trans (if_neg (hne ⟨rs1, rs2, imm, rfl⟩ (by simp [hw'])))

end Sys2Proof.Machine
end

section
/-! PROOFS. The memory system through a step (spec/20_memory.md R100 to R119, spec/60_exceptions.md R510): only MEM reaches it,
MEM keeps it coherent, and no request is made while one is outstanding. -/

namespace Sys2Proof.Machine

/-! ### What other stages leave of the memory system (R100, R102) -/

/-- `t` has the configuration, cache, backing store and requests of `s`. -/
structure SameMemory (s t : State) : Prop where
  cfg : t.cfg = s.cfg
  cache : t.cache = s.cache
  miss : t.miss = s.miss
  mem : t.mem = s.mem
  req : t.req = s.req
  touched : t.touched = s.touched

theorem sameMemory_writeback {s t : State} (h : t = writebackWritten t s) : SameMemory s t := by
  rw [h]
  exact ⟨rfl, rfl, rfl, rfl, rfl, rfl⟩

theorem sameMemory_execute {s t : State} (h : t = executeWritten t s) : SameMemory s t := by
  rw [h]
  exact ⟨rfl, rfl, rfl, rfl, rfl, rfl⟩

theorem sameMemory_decode {s t : State} (h : t = decodeWritten t s) : SameMemory s t := by
  rw [h]
  exact ⟨rfl, rfl, rfl, rfl, rfl, rfl⟩

theorem sameMemory_fetch {s t : State} (h : t = fetchWritten t s) : SameMemory s t := by
  rw [h]
  exact ⟨rfl, rfl, rfl, rfl, rfl, rfl⟩

theorem sameMemory_pass (s : State) : SameMemory s (passMemory s) := by
  obtain h | ⟨I, -, -, h⟩ := passMemory_cases s <;> rw [h] <;> exact ⟨rfl, rfl, rfl, rfl, rfl, rfl⟩

/-- Settles O56: the writes of each stage, and of MEM on an instruction that only passes. -/
theorem onlyLoadsAndStoresReachData : Obligations.OnlyLoadsAndStoresReachData := by
  intro i s t he h
  have hsame : SameMemory s t := by
    cases hstage : s.stage with
    | fetch => exact sameMemory_fetch (exec_fetch_frame hstage he).1
    | decode => exact sameMemory_decode (exec_decode_result hstage he).writes
    | execute => exact sameMemory_execute (exec_execute_writes hstage he)
    | writeback => exact sameMemory_writeback (exec_writeback_result hstage he).frame.1
    | memory =>
      have hi := h.resolve_right (not_not.mpr hstage)
      obtain ⟨_, _, _, rfl, -⟩ | ⟨_, _, _, rfl, -⟩ | ⟨-, hx⟩ := exec_memory hstage i
      · cases hi
      · cases hi
      · obtain rfl := Host.Outcome.next.inj (hx.symm.trans he)
        exact sameMemory_pass s
  exact ⟨hsame.cache, hsame.miss, hsame.req, hsame.touched, fun a => by rw [hsame.mem]⟩

/-! ### Coherence through the stages (R112, R114, R119) -/

/-- The memory system of a running block, with its request (R109 to R119). -/
def MemorySound (s : State) : Prop := CacheCoherent s ∧ RequestMatches s

theorem memorySound_iff {s : State} (hwf : Memory.wf s.mem) :
    MemoryCoherent s ↔ (s.status = .running → MemorySound s) := by
  refine forall_congr' fun _ => ⟨?_, ?_⟩
  · rintro ⟨hgeometry, hshaped, hclean, hblocks, hreq, hmemory⟩
    exact ⟨⟨hgeometry, hshaped, hclean, hblocks, hmemory, hwf⟩, hreq⟩
  · rintro ⟨h, hreq⟩
    exact ⟨h.geometry, h.shaped, h.clean, h.blocks, hreq, h.memory⟩

theorem requestMatches_of_none {s : State} (h : s.req = none) : RequestMatches s := by
  intro a t hat
  rw [h] at hat
  cases hat

/-- A stage that leaves the memory system and the record that waits keeps it sound. -/
theorem MemorySound.congr {s t : State} (h : MemorySound s) (hsame : SameMemory s t)
    (hexMem : ∀ I, s.req ≠ none → s.exMem = some I → t.exMem = some I) : MemorySound t := by
  obtain ⟨hcoherent, hreq⟩ := h
  refine ⟨hcoherent.congr hsame.cfg hsame.cache hsame.mem, fun a u hat => ?_⟩
  rw [hsame.req] at hat
  obtain ⟨hlow, hhigh, I, hI, hm, hmiss, hissued, ha, hbase, hl⟩ := hreq a u hat
  rw [hsame.cfg, hsame.miss]
  refine ⟨hlow, hhigh, I, hexMem I (by simp [hat]) hI, hm, hmiss, hissued, ha, hbase, ?_⟩
  rwa [lookupWay, cacheSetOf, hsame.cfg, hsame.cache]

/-- Writeback takes a record away only while nothing is requested (R124). -/
theorem memorySound_writeback {s t : State} (hm : MissHeld s) (hs : MemorySound s) (h : writebackStage s = .next t) :
    MemorySound t := by
  refine hs.congr (sameMemory_writeback (writebackStage_frame h).1) fun I hreq hI => ?_
  obtain ⟨-, hx⟩ | ⟨J, hw, -⟩ := writebackStage_cases s
  · obtain rfl := Host.Outcome.next.inj (hx.symm.trans h)
    exact hI
  · exact absurd (hm.no_miss (.inl (hw ▸ Option.some_ne_none J))).2 hreq

theorem AccessOutcome.memorySound {A : WordAccess} {J : Record} {s t : State} (h : AccessOutcome A J s t)
    (hJ : isMemory J.instr = true) (ht : t.status = .running) : MemorySound t := by
  cases h with
  | faulted hr => exact absurd ht hr
  | waits h => exact ⟨h.coherent, h.requestMatches hJ⟩
  | done _ hreq _ hcoherent => exact ⟨hcoherent, requestMatches_of_none hreq⟩

theorem memorySound_memory {s t : State} (hr : s.status = .running) (hw : s.memWb = none) (hm : MissHeld s)
    (hs : MemorySound s) (h : memoryStage s = .next t) (ht : t.status = .running) : MemorySound t := by
  have henter : MemorySound (enterStage .memory s) := hs.congr ⟨rfl, rfl, rfl, rfl, rfl, rfl⟩ fun _ _ hI => hI
  obtain ⟨-, hx⟩ | ⟨I, hI, hn, hx⟩ | ⟨I, ap, hI, hi, hap, hx⟩ := memoryStage_cases s <;>
    obtain rfl := Host.Outcome.next.inj (hx.symm.trans h)
  · exact henter
  · obtain ⟨-, hreq⟩ := hm.no_miss_at hI (.inr hn)
    exact henter.congr (sameMemory_pass _) fun _ hne _ => absurd hreq hne
  · have hperforms : ∃ A, Performs ap A := by
      obtain ⟨_, _, _, -, rfl⟩ | ⟨_, _, _, -, rfl⟩ := hap
      · exact ⟨_, applyLoad_performs⟩
      · exact ⟨_, applyStore_performs⟩
    obtain ⟨A, hA⟩ := hperforms
    exact (accessMemory_outcome (s := enterStage .memory s) hA hr henter.1 henter.2 hm hI hw).memorySound hi ht

/-- EX leaves an occupied `EX_MEM` alone (R214). -/
theorem executeStage_exMem {s t : State} (hr : s.status = .running) (h : executeStage s = .next t) {I : Record}
    (hI : s.exMem = some I) : t.exMem = some I := by
  obtain ⟨c, hc, -, hx⟩ := executeStage_running hr
  obtain rfl := Host.Outcome.next.inj (hx.symm.trans h)
  have hcI : c.exMem = some I := by
    obtain hx | ⟨J, e, n, -, -, hx⟩ := completeStage_cases s <;>
      obtain rfl := Host.Outcome.next.inj (hx.symm.trans hc) <;> exact hI
  have hdrain : drainUnit c = c := (drainUnit_cases c).resolve_right (by simp [hcI])
  rw [hdrain]
  obtain hx | ⟨J, -, -, hx⟩ := feedUnit_cases c <;> rw [hx] <;> exact hcI

/-- Pipeline and memory system of a running block. -/
def Sound (s : State) : Prop := PipelineOrdered s ∧ (s.status = .running → MemorySound s)

theorem sound_afterWriteback : KeptAfterWriteback Sound where
  memory hr hw hs h :=
    have hm : MissHeld _ := (hs.1 hr).2.2
    ⟨pipelineOrdered_afterWriteback.memory hr hw hs.1 h, memorySound_memory hr hw hm (hs.2 hr) h⟩
  execute hr hs h :=
    ⟨pipelineOrdered_afterWriteback.execute hr hs.1 h, fun _ =>
      (hs.2 hr).congr (sameMemory_execute (executeStage_writes h)) fun _ _ hI => executeStage_exMem hr h hI⟩
  decode hr hs h :=
    ⟨pipelineOrdered_afterWriteback.decode hr hs.1 h, fun _ =>
      (hs.2 hr).congr (sameMemory_decode (decodeStage_writes h)) fun _ _ hI => by rw [decodeStage_writes h]; exact hI⟩
  fetch hr hs h :=
    ⟨pipelineOrdered_afterWriteback.fetch hr hs.1 h, fun _ =>
      (hs.2 hr).congr (sameMemory_fetch (fetchStage_frame h).1) fun _ _ hI => by rw [(fetchStage_frame h).1]; exact hI⟩

theorem pipelineOrdered_writeback {s t : State} (hr : s.status = .running) (hs : PipelineOrdered s)
    (h : writebackStage s = .next t) : PipelineOrdered t :=
  (pipelineOrdered_iff t).mpr fun ht => ordered_writeback ((pipelineOrdered_iff s).mp hs hr) h ht

theorem sound_writeback {s t : State} (hr : s.status = .running) (hs : Sound s) (h : writebackStage s = .next t) :
    Sound t :=
  ⟨pipelineOrdered_writeback hr hs.1 h, fun _ => memorySound_writeback (hs.1 hr).2.2 (hs.2 hr) h⟩

/-- Settles O51: MEM keeps the memory system coherent, and the other stages leave it and the record that waits alone. -/
theorem memorySystemStaysCoherent : Obligations.MemorySystemStaysCoherent := by
  intro s t hordered hwf hcoherent h
  have htick {u : State} (hu : Sound u) : Sound (tickOver u) :=
    ⟨hu.1, fun hr => (hu.2 hr).congr ⟨rfl, rfl, rfl, rfl, rfl, rfl⟩ fun _ _ hI => hI⟩
  have hdrain {u : State} (_ : Sound u) : Sound { u with status := .drained } := by
    constructor <;> intro hr <;> cases hr
  have hsound : Sound s := ⟨hordered, (memorySound_iff hwf).mp hcoherent⟩
  have ht : Sound t := step_keeps sound_afterWriteback sound_writeback htick hdrain hsound h
  exact (memorySound_iff ((memoryAndCacheKeepTheirForm s t h).1 hwf)).mpr ht.2

/-! ### `E_STORE_BUSY` (R116, R510) -/

/-- The block has not stopped with `E_STORE_BUSY`. -/
def NotStoreBusy (s : State) : Prop := ∀ info, s.status ≠ .faulted .storeBusy info

theorem notStoreBusy_of_status {s t : State} (hs : NotStoreBusy s) (h : t.status = s.status) : NotStoreBusy t := by
  rwa [NotStoreBusy, h]

theorem notStoreBusy_raiseFault {c : FaultCode} (hc : c ≠ .storeBusy) (info : FaultInfo) (s : State) :
    NotStoreBusy (raiseFault c info s) := fun _ h => hc (Status.faulted.inj h).1

theorem passMemory_status (s : State) : (passMemory s).status = s.status := by
  obtain h | ⟨I, -, -, h⟩ := passMemory_cases s <;> rw [h]

theorem finishAccess_status (ap : Apply) (s : State) : (finishAccess ap s).status = s.status := by
  have hstore : (storeRun ap s).status = s.status := by
    obtain ⟨-, h⟩ | ⟨a, t, -, -, h⟩ := storeRun_cases ap s <;> rw [h]
    obtain ⟨e, ca, c, m, h'⟩ := handleResponse_shape ap a (Memory.readBlock s.mem a (blockWords s.cfg))
      { s with req := none }
    rw [h']
  obtain ⟨-, h⟩ | ⟨-, -, h⟩ | ⟨-, -, h⟩ := finishAccess_cases ap s <;> rw [h]
  · exact hstore
  · rw [passMemory_status, hstore]

/-- An access is issued only while nothing is requested, so it finds the backing store free (R223). -/
theorem notStoreBusy_memory {s t : State} (hs : NotStoreBusy s) (hm : MissHeld s) (h : memoryStage s = .next t) :
    NotStoreBusy t := by
  obtain ⟨-, rfl⟩ | ⟨I, -, -, rfl⟩ | ⟨I, ap, hI, -, -, rfl⟩ := memoryStage_keepsForm h
  · exact hs
  · exact notStoreBusy_of_status hs (passMemory_status _)
  · rw [accessMemory_some (s := enterStage .memory s) hI]
    refine notStoreBusy_of_status ?_ (finishAccess_status _ _)
    have hresult := issueAccess_result ap I (enterStage .memory s)
    generalize issueAccess ap I (enterStage .memory s) = u at hresult ⊢
    cases hresult with
    | before => exact hs
    | hit => exact hs
    | request => exact hs
    | misaligned => exact notStoreBusy_raiseFault (by decide) _ _
    | outside => exact notStoreBusy_raiseFault (by decide) _ _
    | busy hnot _ hreq =>
      obtain ⟨-, hnone⟩ := hm.no_miss_at hI (.inl hnot)
      rw [enterStage_req, hnone] at hreq
      cases hreq

theorem notStoreBusy_writeback {s t : State} (hs : NotStoreBusy s) (hp : PendingFaultsAreDivisions s)
    (h : writebackStage s = .next t) : NotStoreBusy t := by
  obtain ⟨i, -, hr⟩ := writebackStage_result h
  cases hr with
  | empty => exact hs
  | fault I c hw hc =>
    have hI : I ∈ recordsInFlight s := by simp [recordsInFlight, show s.memWb = some I from hw]
    obtain ⟨rfl, -⟩ := hp I hI c hc
    exact notStoreBusy_raiseFault (by decide) _ _
  | retire I =>
    obtain ⟨-, hstatus, -⟩ := retired_writes i I (enterStage .writeback s)
    exact notStoreBusy_of_status hs hstatus
  | resolve I =>
    obtain ⟨-, hstatus, -⟩ := retired_writes i I (enterStage .writeback s)
    obtain ⟨-, hstatus', -⟩ := resolveBranch_writes I (retired i I (enterStage .writeback s))
    exact notStoreBusy_of_status hs (hstatus'.trans hstatus)

theorem notStoreBusy_fetch {s t : State} (hs : NotStoreBusy s) (h : fetchStage s = .next t) : NotStoreBusy t := by
  obtain ⟨-, hx⟩ | ⟨-, -, hx⟩ | ⟨-, -, -, hx⟩ | ⟨i, -, -, -, -, hx⟩ := fetchStage_cases s <;> rw [hx] at h
  · obtain rfl := Host.Outcome.next.inj h
    exact hs
  · obtain rfl := Host.Outcome.next.inj h
    exact hs
  · obtain rfl := Host.Outcome.next.inj h
    obtain ⟨-, hx⟩ | ⟨-, hx⟩ := fetchInvalid_cases (enterStage .fetch s) <;> rw [hx]
    · exact hs
    · exact notStoreBusy_raiseFault (by split <;> decide) _ _
  · obtain rfl := Host.Outcome.next.inj ((exec_fetch rfl i).symm.trans h)
    refine notStoreBusy_of_status hs ?_
    split
    · obtain ⟨I, pc, hb, -⟩ := fetchBranch_shape i (enterStage .fetch s)
      rw [hb]
      rfl
    · rfl

theorem storeFree_afterWriteback : KeptAfterWriteback fun s => PipelineOrdered s ∧ NotStoreBusy s where
  memory hr hw hs h :=
    ⟨pipelineOrdered_afterWriteback.memory hr hw hs.1 h, notStoreBusy_memory hs.2 (hs.1 hr).2.2 h⟩
  execute hr hs h :=
    ⟨pipelineOrdered_afterWriteback.execute hr hs.1 h, by rw [executeStage_writes h]; exact hs.2⟩
  decode hr hs h :=
    ⟨pipelineOrdered_afterWriteback.decode hr hs.1 h, by rw [decodeStage_writes h]; exact hs.2⟩
  fetch hr hs h := ⟨pipelineOrdered_afterWriteback.fetch hr hs.1 h, notStoreBusy_fetch hs.2 h⟩

/-- Settles O52: MEM alone could raise it, and it finds nothing requested where it issues an access. -/
theorem storeBusyIsUnreachable : Obligations.StoreBusyIsUnreachable := by
  intro s t info hr hordered hp h
  have hs : NotStoreBusy s := fun _ hf => by
    rw [hr] at hf
    cases hf
  obtain ⟨-, -, hx⟩ | ⟨-, -, hx⟩ | ⟨hn, -⟩ | ⟨_, _, hn, -⟩ := step_cases s
  · obtain ⟨-, -, ht⟩ | ⟨f, -, ⟨-, hf⟩, rfl⟩ := storeFree_afterWriteback.cycle
      (fun w hw => ⟨pipelineOrdered_writeback hr hordered hw, notStoreBusy_writeback hs hp hw⟩) (hx ▸ h)
    · exact ht info
    · exact hf info
  · obtain rfl := Host.Outcome.next.inj (hx.symm.trans h)
    exact Status.noConfusion
  · simp [hr] at hn
  · simp [hr] at hn

end Sys2Proof.Machine
end

section
/-! PROOFS. The report of a run (spec/20_memory.md R119, spec/40_pipeline.md R203, spec/60_exceptions.md R520). -/

namespace Sys2Proof.Machine

theorem report_drained {s : State} (h : s.status = .drained) :
    report s = some
      { cycles := s.tick, registers := s.x, memory := memoryImage s, touched := s.touched, touchedWords := touchedWords s
        counters := s.counters, cyclesPerInstruction := cyclesPerInstruction s, missRate := missRate s
        predictionAccuracy := predictionAccuracy s } := by
  simp only [report, h]

theorem report_undrained {s : State} (h : s.status ≠ .drained) : report s = none := by
  cases hs : s.status with
  | drained => exact absurd hs h
  | running => simp only [report, hs]
  | faulted c info => simp only [report, hs]

/-! ### Ratios (R520) -/

theorem ratio_eq_none {n d : Nat} : ratio n d = none ↔ d = 0 := by simp [ratio]

theorem ratio_mul {n d : Nat} {c : Rat} (h : ratio n d = some c) : c * d = n := by
  unfold ratio at h
  split at h
  case isTrue => cases h
  case isFalse hd =>
    obtain rfl := Option.some.inj h
    exact div_mul_cancel₀ _ (Nat.cast_ne_zero.mpr hd)

/-! ### The touched words (R119) -/

theorem mem_touchedWords {s : State} {a : Nat} {v : Word} :
    (a, v) ∈ touchedWords s ↔ a ∈ s.touched ∧ a % 8 = 0 ∧ v = coherent s a := by
  simp only [touchedWords, List.mem_map, List.mem_filter, beq_iff_eq, Prod.mk.injEq]
  constructor
  · rintro ⟨_, ⟨htouched, ha⟩, rfl, rfl⟩
    exact ⟨htouched, ha, rfl⟩
  · rintro ⟨htouched, ha, rfl⟩
    exact ⟨a, ⟨htouched, ha⟩, rfl, rfl⟩

/-- Settles O60: the report's fields, and the ratios through `ratio`. -/
theorem reportOfADrainedRun : Obligations.ReportOfADrainedRun := by
  intro s
  refine ⟨fun h => ⟨_, report_drained h, rfl, rfl, rfl, mem_memoryImage s, memoryImage_sorted s, rfl,
    fun _ _ => mem_touchedWords, ratio_eq_none, ratio_eq_none.trans Nat.add_eq_zero_iff, ratio_eq_none,
    fun _ => ratio_mul, fun _ => ratio_mul, fun _ => ratio_mul⟩, report_undrained⟩

end Sys2Proof.Machine
end

section
/-! PROOFS. A record alone in the pipeline, cycle by cycle (spec/40_pipeline.md R200 to R217), and the run of a program of one
load on a cold cache (spec/20_memory.md R111, R113, spec/70_reset_and_hazards.md R612, R614). -/

namespace Sys2Proof.Machine

/-! ### Stages without a record -/

/-- `pc` stands where fetch finds no instruction, past the end of the program (R217, R218). -/
def PastProgram (s : State) : Prop := fetchable s.pc = true ∧ readProgram s.program s.pc = none

section
variable {s : State}

theorem writebackStage_idle (h : s.memWb = none) : writebackStage s = .next (enterStage .writeback s) := by
  simp only [writebackStage, h]

theorem memoryStage_idle (h : s.exMem = none) : memoryStage s = .next (enterStage .memory s) := by
  simp only [memoryStage, h]

theorem feedUnit_empty (h : s.idEx = none) : feedUnit s = s := by
  unfold feedUnit
  rw [h]
  cases s.fu <;> rfl

/-- EX with no record due: the finished record drains, and the next one is fed (R204, R214). -/
theorem executeStage_not_due (hr : s.status = .running) (h : ∀ I e, s.fu = .busy I e → s.tick < e) :
    executeStage s = .next (feedUnit (drainUnit (enterStage .execute s))) := by
  have hcomplete : completeStage s = .next (enterStage .execute s) := by
    obtain hx | ⟨I, e, -, hfu, he, -⟩ := completeStage_cases s
    · exact hx
    · exact absurd (h I e hfu) (Nat.not_lt.mpr he)
  rw [executeStage, hcomplete, andThen_running (by exact hr)]

theorem executeStage_empty (hr : s.status = .running) (hfu : s.fu = .idle) (hidEx : s.idEx = none) :
    executeStage s = .next (enterStage .execute s) := by
  have hdrain : drainUnit (enterStage .execute s) = enterStage .execute s := by
    simp only [drainUnit, enterStage_fu, hfu]
  rw [executeStage_not_due hr (by simp [hfu]), hdrain, feedUnit_empty (s := enterStage .execute s) hidEx]

/-- The unit's record is due and drains into an empty `EX_MEM` (R204, R205, R214). -/
theorem executeStage_due (hr : s.status = .running) {I : Record} {e : Nat} (hI : s.fu = .busy I e) (he : e ≤ s.tick)
    (hdiv : isDivision I.instr = false) (hidEx : s.idEx = none) (hexMem : s.exMem = none) :
    executeStage s = .next { enterStage .execute s with
      fu := .idle, exMem := some (computeOf s.cfg.divOverflow I.instr I) } := by
  have hcomplete : completeStage s = .next { enterStage .execute s with
      fu := .done (computeOf s.cfg.divOverflow I.instr I) } := by
    simp only [completeStage, hI, if_pos he]
    rw [exec_execute rfl, hdiv, if_neg Bool.false_ne_true, completeRecord_busy (s := enterStage .execute s) hI]
    rfl
  rw [executeStage, hcomplete, andThen_running (by exact hr)]
  simp only [drainUnit, enterStage_exMem, hexMem, if_true]
  exact congrArg _ (feedUnit_empty hidEx)

theorem decodeStage_idle (h : s.ifId = none) : decodeStage s = .next (enterStage .decode s) := by
  simp only [decodeStage, h]

theorem fetchStage_past (h : s.ifId = none) (hp : PastProgram s) : fetchStage s = .next (enterStage .fetch s) := by
  obtain ⟨hf, hr⟩ := hp
  cases hb : s.fetchBlocked <;> simp [fetchStage, h, hb, hf, hr]

end

/-- A cycle whose stages all run is their chain and the tick (R200). -/
theorem step_of_stages {s w m e d f : State} (hr : s.status = .running) (hc : continues s = true)
    (hw : writebackStage s = .next w) (hwr : w.status = .running) (hm : memoryStage w = .next m)
    (hmr : m.status = .running) (he : executeStage m = .next e) (her : e.status = .running)
    (hd : decodeStage e = .next d) (hdr : d.status = .running) (hf : fetchStage d = .next f)
    (hfr : f.status = .running) : step s = .next (tickOver f) := by
  simp only [step, runLoop, hr, hc, if_true, cycle, backStages, hw, andThen_running hwr, hm, andThen_running hmr, he,
    andThen_running her, hd, andThen_running hdr, hf, andThen_running hfr]

/-- A commit writes the result to `rd` unless that is `x0` (R33, R210). -/
theorem retired_x_eq (i : Instr) (I : Record) (s : State) :
    (retired i I s).x = if rdIndex i = 0 then s.x else s.x.set (rdIndex i) I.rdVal := by
  by_cases h : rdIndex i = 0
  · simp [retired, retireRecord, h]
  · obtain ⟨dep, hd⟩ := clearProducer_shape (writeReg { s with memWb := none } (rdIndex i) I.rdVal) (rdIndex i) I.seq
    have hx : (commitResult (rdIndex i) I { s with memWb := none }).x = s.x.set (rdIndex i) I.rdVal := by
      rw [commitResult_of_ne h, hd, writeReg_of_ne h]
    rw [if_neg h]
    exact hx

/-! ### The cycles of a record alone -/

section
variable {s : State} {I : Record}

theorem step_alone_fetch {i : Instr} (hr : s.status = .running) (htick : s.tick = 0) (hempty : PipelineEmpty s)
    (hblocked : s.fetchBlocked = false) (hf : fetchable s.pc = true) (hi : readProgram s.program s.pc = some i)
    (hb : isBranch i = false) : step s = .next (tickOver (fetchRecord i (enterStage .fetch s))) := by
  obtain ⟨hifId, hidEx, hexMem, hmemWb, hfu⟩ := hempty
  have hfetch : fetchStage (enterStage .decode s) = .next (fetchRecord i (enterStage .fetch s)) := by
    have hx : exec i (enterStage .fetch s) = _ := exec_fetch rfl i
    rw [hb] at hx
    obtain ⟨hn, -⟩ | ⟨-, hn, -⟩ | ⟨-, -, hn, -⟩ | ⟨j, -, -, -, hj, hfetch⟩ :=
      fetchStage_cases (enterStage .decode s)
    · simp [hifId] at hn
    · simp [hblocked, hi] at hn
    · simp [hf] at hn
    · obtain rfl := Option.some.inj (hi.symm.trans hj)
      exact hfetch.trans hx
  have hexec := executeStage_empty (s := enterStage .memory s) hr hfu hidEx
  exact step_of_stages hr (by simp [continues, htick]) (writebackStage_idle hmemWb) hr (memoryStage_idle hexMem) hr hexec hr
    (decodeStage_idle hifId) hr hfetch hr

theorem step_alone_decode (hr : s.status = .running) (hI : s.ifId = some I) (hempty : PipelineEmpty { s with ifId := none })
    (hpast : PastProgram s) (hjal : ∀ rd imm, I.instr ≠ .jal rd imm) {v : Word × Word}
    (hv : depCheck s (rs1Index I.instr) (rs2Index I.instr) = some v) :
    ∃ dep, step s = .next { s with
      ifId := none, idEx := some (withOperands I v), dep := dep, stage := .fetch, tick := s.tick + 1 } := by
  obtain ⟨-, hidEx, hexMem, hmemWb, hfu⟩ := hempty
  obtain ⟨dep, hdep⟩ := registerProducer_shape (enterStage .decode s) (rdIndex I.instr) I.seq
  have hexec := executeStage_empty (s := enterStage .memory s) hr hfu hidEx
  have hdecode : decodeStage (enterStage .execute s) = .next { enterStage .decode s with
      dep := dep, idEx := some (withOperands I v), ifId := none } := by
    have hstage : decodeStage (enterStage .execute s) = exec I.instr (enterStage .decode s) := by
      simp only [decodeStage, enterStage_ifId, hI, enterStage_idEx, show s.idEx = none from hidEx, if_true]
      rfl
    obtain ⟨rd, imm, hi, -⟩ | ⟨-, hx⟩ := exec_decode (s := enterStage .decode s) rfl I.instr
    · exact absurd hi (hjal rd imm)
    · obtain ⟨hn, -⟩ | ⟨v', hv', hmove⟩ := decodeRecord_cases (s := enterStage .decode s) (rd := rdIndex I.instr)
        (rs1 := rs1Index I.instr) (rs2 := rs2Index I.instr) hI
      · cases hv.symm.trans hn
      · obtain rfl := Option.some.inj (hv.symm.trans hv')
        rw [hstage, hx, hmove, hdep]
  exact ⟨dep, step_of_stages hr (by simp [continues, hI]) (writebackStage_idle hmemWb) hr (memoryStage_idle hexMem) hr hexec
    hr hdecode hr (fetchStage_past rfl hpast) hr⟩

theorem step_alone_feed (hr : s.status = .running) (hI : s.idEx = some I) (hempty : PipelineEmpty { s with idEx := none })
    (hpast : PastProgram s) :
    step s = .next { s with
      idEx := none, fu := .busy I (s.tick + max 1 I.latency), stage := .fetch, tick := s.tick + 1 } := by
  obtain ⟨hifId, -, hexMem, hmemWb, hfu⟩ := hempty
  have hexec : executeStage (enterStage .memory s) = .next { enterStage .execute s with
      idEx := none, fu := .busy I (s.tick + max 1 I.latency) } := by
    have hfu' : s.fu = .idle := hfu
    rw [executeStage_not_due (s := enterStage .memory s) hr (by simp [hfu'])]
    simp only [drainUnit, feedUnit, enterStage_fu, hfu', enterStage_idEx, hI]
    rfl
  exact step_of_stages hr (by simp [continues, hI]) (writebackStage_idle hmemWb) hr (memoryStage_idle hexMem) hr hexec
    hr (decodeStage_idle hifId) hr (fetchStage_past hifId hpast) hr

/-- The unit works on, until the tick at which the record leaves it (R204). -/
theorem step_alone_busy (hr : s.status = .running) {e : Nat} (hI : s.fu = .busy I e) (he : s.tick < e)
    (hempty : PipelineEmpty { s with fu := .idle }) (hpast : PastProgram s) :
    step s = .next { s with stage := .fetch, tick := s.tick + 1 } := by
  obtain ⟨hifId, hidEx, hexMem, hmemWb, -⟩ := hempty
  have hexec : executeStage (enterStage .memory s) = .next (enterStage .execute s) := by
    rw [executeStage_not_due (s := enterStage .memory s) hr (by simp [hI, he])]
    simp only [drainUnit, enterStage_fu, hI]
    exact congrArg _ (feedUnit_empty (s := enterStage .execute s) hidEx)
  exact step_of_stages hr (by simp [continues, hI]) (writebackStage_idle hmemWb) hr (memoryStage_idle hexMem) hr hexec
    hr (decodeStage_idle hifId) hr (fetchStage_past hifId hpast) hr

/-- The record completes and drains into `EX_MEM` in one cycle (R204, R205, R214). -/
theorem step_alone_complete (hr : s.status = .running) {e : Nat} (hI : s.fu = .busy I e) (he : e ≤ s.tick)
    (hdiv : isDivision I.instr = false) (hempty : PipelineEmpty { s with fu := .idle }) (hpast : PastProgram s) :
    step s = .next { s with
      fu := .idle, exMem := some (computeOf s.cfg.divOverflow I.instr I), stage := .fetch, tick := s.tick + 1 } := by
  obtain ⟨hifId, hidEx, hexMem, hmemWb, -⟩ := hempty
  have hexec := executeStage_due (s := enterStage .memory s) hr hI he hdiv hidEx hexMem
  exact step_of_stages hr (by simp [continues, hI]) (writebackStage_idle hmemWb) hr (memoryStage_idle hexMem) hr hexec
    hr (decodeStage_idle hifId) hr (fetchStage_past hifId hpast) hr

/-- MEM on the record, and nothing else (R213). -/
theorem step_alone_memory (hr : s.status = .running) (hI : s.exMem = some I)
    (hempty : PipelineEmpty { s with exMem := none }) (hpast : PastProgram s) {m : State}
    (hm : exec I.instr (enterStage .memory s) = .next m) (hmr : m.status = .running) :
    step s = .next { m with stage := .fetch, tick := s.tick + 1 } := by
  obtain ⟨hifId, hidEx, -, hmemWb, hfu⟩ := hempty
  have hframe : m = memoryWritten m s := by
    have hx := (exec_memory_frame rfl hm).1
    exact hx
  have hstage : memoryStage (enterStage .writeback s) = .next m := by
    simp only [memoryStage, enterStage_exMem, hI]
    exact hm
  have hfu' : m.fu = .idle := by rw [hframe]; exact hfu
  have hidEx' : m.idEx = none := by rw [hframe]; exact hidEx
  have hifId' : m.ifId = none := by rw [hframe]; exact hifId
  have hpast' : PastProgram m := by rw [hframe]; exact hpast
  have htick : m.tick = s.tick := by rw [hframe]; rfl
  have hexec := executeStage_empty hmr hfu' hidEx'
  rw [step_of_stages hr (by simp [continues, hI]) (writebackStage_idle hmemWb) hr hstage hmr hexec hmr
    (decodeStage_idle hifId') hmr (fetchStage_past hifId' hpast') hmr, ← htick]
  rfl

/-- A cycle whose writeback leaves the pipeline empty ends there. -/
theorem step_of_writeback {w : State} (hr : s.status = .running) (hc : continues s = true)
    (hw : writebackStage s = .next w) (hwr : w.status = .running) (hempty : PipelineEmpty w) (hpast : PastProgram w) :
    step s = .next { w with stage := .fetch, tick := w.tick + 1 } := by
  obtain ⟨hifId, hidEx, hexMem, -, hfu⟩ := hempty
  exact step_of_stages hr hc hw hwr (memoryStage_idle hexMem) hwr
    (executeStage_empty (s := enterStage .memory w) hwr hfu hidEx) hwr (decodeStage_idle hifId) hwr
    (fetchStage_past hifId hpast) hwr

/-- The record commits and is counted (R208, R210). -/
theorem step_alone_retire (hr : s.status = .running) (hI : s.memWb = some I)
    (hempty : PipelineEmpty { s with memWb := none }) (hpast : PastProgram s) (hp : I.pendingFault = none)
    (hb : isBranch I.instr = false) :
    ∃ dep, step s = .next { s with
      memWb := none
      x := if rdIndex I.instr = 0 then s.x else s.x.set (rdIndex I.instr) I.rdVal
      dep := dep
      counters := { s.counters with retired := s.counters.retired + 1 }
      stage := .fetch, tick := s.tick + 1 } := by
  obtain ⟨hifId, hidEx, hexMem, -, hfu⟩ := hempty
  have hstage : writebackStage s = .next (retired I.instr I (enterStage .writeback s)) := by
    obtain ⟨hn, -⟩ | ⟨J, hJ, hx⟩ := writebackStage_cases s
    · simp [hI] at hn
    · obtain rfl := Option.some.inj (hI.symm.trans hJ)
      rw [hx, hb]
      obtain ⟨c, hc, -⟩ | ⟨-, hr⟩ := writebackRecord_cases (s := enterStage .writeback s) (rd := rdIndex I.instr)
        (after := noResolve) hI
      · simp [hp] at hc
      · exact congrArg _ hr
  obtain ⟨x, dep, hshape⟩ := retired_shape I.instr I (enterStage .writeback s)
  have hx : x = if rdIndex I.instr = 0 then s.x else s.x.set (rdIndex I.instr) I.rdVal := by
    have hx := retired_x_eq I.instr I (enterStage .writeback s)
    rwa [hshape] at hx
  have hempty' : PipelineEmpty (retired I.instr I (enterStage .writeback s)) := by
    rw [hshape]
    exact ⟨hifId, hidEx, hexMem, rfl, hfu⟩
  have hstep := step_of_writeback hr (by simp [continues, hI]) hstage (by rw [hshape]; exact hr) hempty'
    (by rw [hshape]; exact hpast)
  rw [hshape] at hstep
  rw [← hx]
  exact ⟨dep, hstep⟩

end

/-! ### Runs -/

theorem steps_succ {s t : State} (h : step s = .next t) (n : Nat) : steps (n + 1) s = steps n t := by
  simp only [steps, h]

/-- Steps that go along a sequence of states. -/
theorem steps_along {f : Nat → State} {n : Nat} (h : ∀ j, j < n → step (f j) = .next (f (j + 1))) (m : Nat) :
    steps (n + m) (f 0) = steps m (f n) := by
  induction n generalizing f with
  | zero => rw [Nat.zero_add]
  | succ n ih =>
    rw [show n + 1 + m = n + m + 1 by omega, steps_succ (h 0 (Nat.succ_pos n))]
    exact ih (f := fun j => f (j + 1)) fun j hj => h (j + 1) (Nat.succ_lt_succ hj)

theorem operand_of_no_producer {s : State} {i : Reg} (h : s.dep.get i = none) : operand s i = some (readReg s i) := by
  obtain ⟨rfl, hx⟩ | ⟨-, -, hx⟩ | ⟨q, P, -, hq, -⟩ | ⟨q, -, hq, -⟩ := operand_cases s i
  · exact hx
  · exact hx
  · simp [h] at hq
  · simp [h] at hq

/-- The launch of a program of one instruction, as far as its run depends on it (R600). -/
structure LaunchedWith (i : Instr) (s : State) : Prop where
  running : s.status = .running
  tick : s.tick = 0
  pc : s.pc = 4
  unblocked : s.fetchBlocked = false
  empty : PipelineEmpty s
  free : ∀ r, s.dep.get r = none
  program : s.program = [i]

/-- `s` at tick `k`, past its only instruction, with every latch empty. -/
def emptyAt (s : State) (k : Nat) (dep : Vector (Option Nat) 32) : State :=
  { s with
    stage := .fetch, tick := k, pc := 8, nextSeq := s.nextSeq + 1, dep := dep
    ifId := none, idEx := none, exMem := none, memWb := none, fu := .idle }

theorem emptyAt_empty (s : State) (k : Nat) (dep : Vector (Option Nat) 32) : PipelineEmpty (emptyAt s k dep) :=
  ⟨rfl, rfl, rfl, rfl, rfl⟩

theorem LaunchedWith.past {i : Instr} {s : State} (h : LaunchedWith i s) (k : Nat) (dep : Vector (Option Nat) 32) :
    PastProgram (emptyAt s k dep) := by
  have hp : (emptyAt s k dep).program = [i] := h.program
  have hpc : (emptyAt s k dep).pc = 8 := rfl
  rw [PastProgram, hp, hpc]
  exact ⟨by decide, rfl⟩

/-- The record of a lone instruction as it reaches MEM (R205, R215, R217). -/
def completed (i : Instr) (s : State) : Record :=
  computeOf s.cfg.divOverflow i (withOperands (newRecord s i) (readReg s (rs1Index i), readReg s (rs2Index i)))

/-- The lone instruction in the functional unit, `j` cycles after it was accepted (R204). -/
def inUnit (s : State) (dep : Vector (Option Nat) 32) (i : Instr) (j : Nat) : State :=
  { emptyAt s (3 + j) dep with
    fu := .busy (withOperands (newRecord s i) (readReg s (rs1Index i), readReg s (rs2Index i)))
      (2 + max 1 (latencyOf s.cfg (opOf i))) }

/-- The lone instruction computed and in `EX_MEM`. -/
def inMemory (s : State) (dep : Vector (Option Nat) 32) (i : Instr) : State :=
  { emptyAt s (3 + max 1 (latencyOf s.cfg (opOf i))) dep with exMem := some (completed i s) }

/-- A lone instruction is fetched, decoded, computed and drained into `EX_MEM` (R614). -/
theorem steps_to_memory {i : Instr} {s : State} (h : LaunchedWith i s) (hb : isBranch i = false)
    (hjal : ∀ rd imm, i ≠ .jal rd imm) (hdiv : isDivision i = false) :
    ∃ dep, ∀ n, steps (3 + max 1 (latencyOf s.cfg (opOf i)) + n) s =
      steps n (inMemory s dep i) := by
  obtain ⟨hr, htick, hpc, hblocked, hempty, hfree, hprogram⟩ := id h
  have hfetch : step s = .next { emptyAt s 1 s.dep with ifId := some (newRecord s i) } := by
    rw [step_alone_fetch hr htick hempty hblocked (by rw [hpc]; decide) (by rw [hpc, hprogram]; rfl) hb]
    obtain ⟨-, hidEx, hexMem, hmemWb, hfu⟩ := hempty
    simp only [tickOver, fetchRecord, enterStage, emptyAt, newRecord, htick, hpc, hidEx, hexMem, hmemWb, hfu]
    rfl
  have hv : depCheck { emptyAt s 1 s.dep with ifId := some (newRecord s i) } (rs1Index i) (rs2Index i) =
      some (readReg s (rs1Index i), readReg s (rs2Index i)) :=
    depCheck_some.mpr ⟨operand_of_no_producer (hfree _), operand_of_no_producer (hfree _)⟩
  obtain ⟨dep, hdecode⟩ := step_alone_decode (s := { emptyAt s 1 s.dep with ifId := some (newRecord s i) }) hr rfl
    (emptyAt_empty s 1 s.dep) (h.past 1 s.dep) hjal hv
  have hfeed := step_alone_feed (s := { emptyAt s 2 dep with
    idEx := some (withOperands (newRecord s i) (readReg s (rs1Index i), readReg s (rs2Index i))) }) hr rfl
    (emptyAt_empty s 2 dep) (h.past 2 dep)
  have hwait : ∀ j, j < max 1 (latencyOf s.cfg (opOf i)) - 1 → step (inUnit s dep i j) = .next (inUnit s dep i (j + 1)) :=
    fun j hj => step_alone_busy (s := inUnit s dep i j) hr rfl (by simp only [inUnit, emptyAt]; omega)
      (emptyAt_empty s (3 + j) dep) (h.past (3 + j) dep)
  have hcomplete := step_alone_complete (s := inUnit s dep i (max 1 (latencyOf s.cfg (opOf i)) - 1)) hr rfl
    (by simp only [inUnit, emptyAt]; omega) hdiv (emptyAt_empty s (3 + (max 1 (latencyOf s.cfg (opOf i)) - 1)) dep)
    (h.past (3 + (max 1 (latencyOf s.cfg (opOf i)) - 1)) dep)
  refine ⟨dep, fun n => ?_⟩
  rw [show 3 + max 1 (latencyOf s.cfg (opOf i)) + n =
    max 1 (latencyOf s.cfg (opOf i)) - 1 + (n + 1) + 1 + 1 + 1 by omega]
  refine (steps_succ hfetch _).trans ((steps_succ hdecode _).trans ((steps_succ hfeed _).trans ?_))
  refine (steps_along hwait (n + 1)).trans ((steps_succ hcomplete n).trans ?_)
  have htick : 3 + max 1 (latencyOf s.cfg (opOf i)) =
      (inUnit s dep i (max 1 (latencyOf s.cfg (opOf i)) - 1)).tick + 1 := by simp only [inUnit, emptyAt]; omega
  rw [inMemory, htick]
  rfl

/-! ### A lone load on a cold cache (R111, R113) -/

/-- No block is valid. -/
def ColdCache (s : State) : Prop := ∀ ways ∈ s.cache, ∀ b ∈ ways, b.valid = false

theorem ColdCache.not_valid {s : State} (h : ColdCache s) {k : Nat} {b : Block} (hb : wayZero s k = some b) :
    b.valid = false := by
  unfold wayZero at hb
  cases hways : s.cache[k]? with
  | none => simp [hways] at hb
  | some ways =>
    rw [hways, Option.getD_some] at hb
    exact h ways (List.mem_of_getElem? hways) b (List.mem_of_getElem? hb)

theorem ColdCache.lookupWay_eq {s : State} (h : ColdCache s) (hs : CacheShaped s) (a : Nat) : lookupWay s a = none :=
  (lookupWay_eq_none_iff hs a).mpr fun b hb => absurd hb.2.1 (by simp [h.not_valid hb.1])

theorem ColdCache.evictVictim_eq {s : State} (h : ColdCache s) (a : Nat) : evictVictim a s = s := by
  obtain hx | ⟨v, hv, hvalid, -⟩ := evictVictim_cases a s
  · exact hx
  · rw [blockAt_zero] at hv
    simp [h.not_valid hv] at hvalid

/-- The load `J` stands alone in `EX_MEM`, of an address in the data region, on a cold cache with nothing outstanding. -/
structure ColdLoad (J : Record) (u : State) : Prop where
  running : u.status = .running
  exMem : u.exMem = some J
  load : ∃ rd rs1 imm, J.instr = .ld rd rs1 imm
  unissued : J.memIssued = false
  alone : PipelineEmpty { u with exMem := none }
  past : PastProgram u
  noRequest : u.req = none
  cold : ColdCache u
  shaped : CacheShaped u
  geometry : GeometryOk u.cfg
  latency : 1 ≤ u.cfg.memLatency
  aligned : J.addr.toNat % 8 = 0
  region : InRegion u.cfg J.addr.toNat

/-- `u` with the access of `J` missed, `j` cycles later (R111). -/
def waitingAt (J : Record) (u : State) (j : Nat) : State := { requested J u with stage := .fetch, tick := u.tick + j }

/-- `u` with the load `J` served from the backing store, in the cycle after the arrival (R113 to R115). -/
def served (J : Record) (u : State) : State :=
  { waitingAt J u (u.cfg.memLatency + 1) with
    cache := (setBlock u J.addr.toNat 0 (fetchedBlock { u with tick := u.tick + u.cfg.memLatency } J.addr.toNat)).cache
    exMem := none
    memWb := some { J with memIssued := true, rdVal := Memory.readWord u.mem J.addr.toNat, ready := true }
    miss := none
    req := none }

section
variable {J : Record} {u : State}

theorem ColdLoad.exec_eq (h : ColdLoad J u) {s : State} (hs : s.stage = .memory) :
    exec J.instr s = .next (accessMemory applyLoad s) := by
  obtain ⟨rd, rs1, imm, hi⟩ := h.load
  rw [hi, exec_memory_load hs]

theorem ColdLoad.step_misses (h : ColdLoad J u) : step u = .next (waitingAt J u 1) := by
  obtain ⟨-, -, -, hmemWb, -⟩ := id h.alone
  refine step_alone_memory h.running h.exMem h.alone h.past (m := requested J (enterStage .memory u)) ?_ h.running
  rw [h.exec_eq rfl]
  exact congrArg _ (accessMemory_miss (s := enterStage .memory u) ⟨h.running, rfl, h.exMem, hmemWb⟩ h.unissued h.noRequest
    h.latency h.aligned (h.cold.lookupWay_eq h.shaped _) h.region)

theorem ColdLoad.waits_atMemory (h : ColdLoad J u) (j : Nat) :
    AtMemory (enterStage .memory (waitingAt J u j)) (issued J) := by
  obtain ⟨-, -, -, hmemWb, -⟩ := id h.alone
  exact ⟨h.running, rfl, rfl, hmemWb⟩

/-- A cycle of the wait is MEM on the record that waits. -/
theorem ColdLoad.step_waiting (h : ColdLoad J u) (j : Nat) {m : State}
    (hm : accessMemory applyLoad (enterStage .memory (waitingAt J u j)) = m) (hmr : m.status = .running) :
    step (waitingAt J u j) = .next { m with stage := .fetch, tick := u.tick + j + 1 } := by
  obtain ⟨hifId, hidEx, -, hmemWb, hfu⟩ := id h.alone
  exact step_alone_memory (s := waitingAt J u j) (I := issued J) h.running rfl ⟨hifId, hidEx, rfl, hmemWb, hfu⟩ h.past
    ((h.exec_eq rfl).trans (congrArg _ hm)) hmr

theorem ColdLoad.step_waits (h : ColdLoad J u) {j : Nat} (hj : j < u.cfg.memLatency) :
    step (waitingAt J u j) = .next (waitingAt J u (j + 1)) :=
  h.step_waiting j (m := enterStage .memory (waitingAt J u j))
    (accessMemory_waits (h.waits_atMemory j) rfl rfl (t := u.tick + u.cfg.memLatency) rfl
      (Nat.add_lt_add_left hj u.tick)) h.running

theorem ColdLoad.step_arrives (h : ColdLoad J u) : step (waitingAt J u u.cfg.memLatency) = .next (served J u) := by
  have hword : wordAt u.cfg (fetchedBlock { u with tick := u.tick + u.cfg.memLatency } J.addr.toNat) J.addr.toNat =
      Memory.readWord u.mem J.addr.toNat :=
    fetchedBlock_word (s := { u with tick := u.tick + u.cfg.memLatency }) h.geometry h.aligned rfl rfl
  have harrives := accessMemory_arrives (ap := applyLoad) (h.waits_atMemory u.cfg.memLatency) rfl rfl
    (t := u.tick + u.cfg.memLatency) rfl (Nat.le_refl _) h.geometry
  rw [ColdCache.evictVictim_eq (s := enterStage .memory (waitingAt J u u.cfg.memLatency)) h.cold] at harrives
  rw [h.step_waiting _ harrives h.running, served, ← hword]
  rfl

/-- A cold load waits `MEM_LATENCY` cycles after its miss and carries the backing store's word to `MEM_WB` (R612). -/
theorem ColdLoad.steps_eq (h : ColdLoad J u) (n : Nat) :
    steps (u.cfg.memLatency + 1 + n) u = steps n (served J u) := by
  obtain ⟨k, hk⟩ : ∃ k, u.cfg.memLatency = k + 1 := ⟨_, (Nat.sub_add_cancel h.latency).symm⟩
  have hwait := steps_along (f := fun j => waitingAt J u (j + 1)) (n := k)
    (fun j hj => h.step_waits (by omega)) (n + 1)
  have harrives := h.step_arrives
  rw [hk] at harrives
  rw [show u.cfg.memLatency + 1 + n = k + (n + 1) + 1 by omega]
  exact (steps_succ h.step_misses _).trans (hwait.trans (steps_succ harrives n))

end

/-- A lone load of the data region on a cold cache, as it reaches MEM. -/
theorem coldLoad_inMemory {s : State} {rd rs1 : Reg} {imm : Int} (h : LaunchedWith (.ld rd rs1 imm) s)
    (dep : Vector (Option Nat) 32) (hreq : s.req = none) (hcold : ColdCache s) (hshaped : CacheShaped s)
    (hg : GeometryOk s.cfg) (hlat : 1 ≤ s.cfg.memLatency) (ha : (completed (.ld rd rs1 imm) s).addr.toNat % 8 = 0)
    (hin : InRegion s.cfg (completed (.ld rd rs1 imm) s).addr.toNat) :
    ColdLoad (completed (.ld rd rs1 imm) s) (inMemory s dep (.ld rd rs1 imm)) where
  running := h.running
  exMem := rfl
  load := ⟨rd, rs1, imm, rfl⟩
  unissued := rfl
  alone := ⟨rfl, rfl, rfl, rfl, rfl⟩
  past := h.past 0 dep
  noRequest := hreq
  cold := hcold
  shaped := hshaped
  geometry := hg
  latency := hlat
  aligned := ha
  region := hin

/-- Settles O59: the load reaches MEM, is served, and retires; then nothing is left to do. -/
theorem loneLoadRetires : Obligations.LoneLoadRetires := by
  intro s rd rs1 imm a ha haligned hlow hhigh hg hshaped hlat hcold hr htick hpc hblocked hempty hfree hmiss hreq hprogram
  have h : LaunchedWith (.ld rd rs1 imm) s := ⟨hr, htick, hpc, hblocked, hempty, hfree, hprogram⟩
  have haddr : (completed (.ld rd rs1 imm) s).addr.toNat = a := ha
  subst haddr
  obtain ⟨dep, hmemory⟩ := steps_to_memory h rfl (by simp) rfl
  have hload := coldLoad_inMemory h dep hreq hcold hshaped hg hlat haligned ⟨hlow, hhigh⟩
  obtain ⟨dep', hretire⟩ := step_alone_retire
    (s := served (completed (.ld rd rs1 imm) s) (inMemory s dep (.ld rd rs1 imm))) hr rfl ⟨rfl, rfl, rfl, rfl, rfl⟩
    (h.past 0 dep) rfl rfl
  have hrun := (hmemory (s.cfg.memLatency + 1 + 1)).trans ((hload.steps_eq 1).trans (steps_succ hretire 0))
  have hcount : 5 + max 1 (latencyOf s.cfg .ld) + s.cfg.memLatency =
      3 + max 1 (latencyOf s.cfg .ld) + (s.cfg.memLatency + 1 + 1) := by omega
  refine ⟨_, (congrArg (steps · s) hcount).trans hrun, hr, ?_, rfl, rfl, rfl, rfl, ?_⟩
  · show 3 + max 1 (latencyOf s.cfg .ld) + (s.cfg.memLatency + 1) + 1 = _
    omega
  · exact (runsEndDrainedOrFaulted _).1 hr rfl

end Sys2Proof.Machine
end

section
/-! PROOFS. The decoder layer and its encoder (spec/30_encoding.md R161, R170 to R173): the fields of an encoded word, the word
rebuilt from its fields, the rows of the opcode map, then programs given as words. -/

namespace Sys2Proof

/-! ### Register fields and immediates (R170, R171) -/

@[simp] theorem regOfField_regField (r : Reg) : regOfField (regField r) = r := by
  simp [regOfField, regField]

@[simp] theorem regField_regOfField (f : BitVec 5) : regField (regOfField f) = f := by
  simp [regOfField, regField]

theorem toInt_ofInt_of_inRange12 {imm : Int} (h : InRange12 imm) : (BitVec.ofInt 12 imm).toInt = imm :=
  BitVec.toInt_ofInt_eq_self (by decide) h.1 (by have := h.2; omega)

theorem toInt_ofInt_of_inRange20 {imm : Int} (h : InRange20 imm) : (BitVec.ofInt 20 imm).toInt = imm :=
  BitVec.toInt_ofInt_eq_self (by decide) h.1 (by have := h.2; omega)

theorem toNat_ofNat_of_inRangeShift {shamt : Nat} (h : InRangeShift shamt) : (BitVec.ofNat 6 shamt).toNat = shamt :=
  Nat.mod_eq_of_lt (Nat.lt_add_one_of_le h)

theorem inRange12_toInt (m : BitVec 12) : InRange12 m.toInt :=
  ⟨m.le_toInt, Int.le_of_lt_add_one m.toInt_lt⟩

theorem inRange20_toInt (m : BitVec 20) : InRange20 m.toInt :=
  ⟨m.le_toInt, Int.le_of_lt_add_one m.toInt_lt⟩

theorem inRangeShift_shamtOf (w : InstrWord) : InRangeShift (shamtOf w) :=
  Nat.le_of_lt_add_one (w.extractLsb' 20 6).isLt

/-! ### The fields of an encoded word, format by format (R170)

Each field stands in one part of the concatenation that the encoder builds. The widths of the parts stay written as sums, the
form in which the library's lemmas meet them. -/

section
variable (rd rs1 rs2 : Reg) (funct3 : BitVec 3) (imm : Int)

theorem encodeR_fields (funct7 : BitVec 7) :
    opcodeField (encodeR funct7 funct3 rd rs1 rs2) = 0b0110011#7 ∧
      funct3Field (encodeR funct7 funct3 rd rs1 rs2) = funct3 ∧
      funct7Field (encodeR funct7 funct3 rd rs1 rs2) = funct7 ∧ rdOf (encodeR funct7 funct3 rd rs1 rs2) = rd ∧
      rs1Of (encodeR funct7 funct3 rd rs1 rs2) = rs1 ∧ rs2Of (encodeR funct7 funct3 rd rs1 rs2) = rs2 := by
  simp (disch := omega) [encodeR, opcodeField, funct3Field, funct7Field, rdOf, rdField, rs1Of, rs1Field, rs2Of, rs2Field,
    BitVec.extractLsb'_append_eq_of_le, BitVec.extractLsb'_append_eq_of_add_le, -Nat.reduceAdd]

theorem encodeI_fields (opcode : BitVec 7) :
    opcodeField (encodeI opcode funct3 rd rs1 imm) = opcode ∧ funct3Field (encodeI opcode funct3 rd rs1 imm) = funct3 ∧
      rdOf (encodeI opcode funct3 rd rs1 imm) = rd ∧ rs1Of (encodeI opcode funct3 rd rs1 imm) = rs1 ∧
      immI (encodeI opcode funct3 rd rs1 imm) = (BitVec.ofInt 12 imm).toInt := by
  simp (disch := omega) [encodeI, opcodeField, funct3Field, rdOf, rdField, rs1Of, rs1Field, immI,
    BitVec.extractLsb'_append_eq_of_le, BitVec.extractLsb'_append_eq_of_add_le, -Nat.reduceAdd]

theorem encodeIsh_fields (funct6 : BitVec 6) (shamt : Nat) :
    opcodeField (encodeIsh funct6 funct3 rd rs1 shamt) = 0b0010011#7 ∧
      funct3Field (encodeIsh funct6 funct3 rd rs1 shamt) = funct3 ∧
      funct6Field (encodeIsh funct6 funct3 rd rs1 shamt) = funct6 ∧ rdOf (encodeIsh funct6 funct3 rd rs1 shamt) = rd ∧
      rs1Of (encodeIsh funct6 funct3 rd rs1 shamt) = rs1 ∧
      shamtOf (encodeIsh funct6 funct3 rd rs1 shamt) = (BitVec.ofNat 6 shamt).toNat := by
  simp (disch := omega) [encodeIsh, opcodeField, funct3Field, funct6Field, rdOf, rdField, rs1Of, rs1Field, shamtOf,
    BitVec.extractLsb'_append_eq_of_le, BitVec.extractLsb'_append_eq_of_add_le, -Nat.reduceAdd]

theorem encodeS_fields :
    opcodeField (encodeS rs1 rs2 imm) = 0b0100011#7 ∧ funct3Field (encodeS rs1 rs2 imm) = 0b011#3 ∧
      rs1Of (encodeS rs1 rs2 imm) = rs1 ∧ rs2Of (encodeS rs1 rs2 imm) = rs2 ∧
      immS (encodeS rs1 rs2 imm) = (BitVec.ofInt 12 imm).toInt := by
  simp (disch := omega) [encodeS, opcodeField, funct3Field, rs1Of, rs1Field, rs2Of, rs2Field, immS,
    BitVec.extractLsb'_append_eq_of_le, BitVec.extractLsb'_append_eq_of_add_le,
    BitVec.extractLsb'_append_extractLsb'_eq_extractLsb', -BitVec.toInt_ofInt, -Nat.reduceAdd]

theorem encodeB_fields :
    opcodeField (encodeB funct3 rs1 rs2 imm) = 0b1100011#7 ∧ funct3Field (encodeB funct3 rs1 rs2 imm) = funct3 ∧
      rs1Of (encodeB funct3 rs1 rs2 imm) = rs1 ∧ rs2Of (encodeB funct3 rs1 rs2 imm) = rs2 ∧
      immB (encodeB funct3 rs1 rs2 imm) = (BitVec.ofInt 12 imm).toInt := by
  simp (disch := omega) [encodeB, opcodeField, funct3Field, rs1Of, rs1Field, rs2Of, rs2Field, immB,
    BitVec.extractLsb'_append_eq_of_le, BitVec.extractLsb'_append_eq_of_add_le,
    BitVec.extractLsb'_append_extractLsb'_eq_extractLsb', -BitVec.toInt_ofInt, -Nat.reduceAdd]

theorem encodeU_fields :
    opcodeField (encodeU rd imm) = 0b0110111#7 ∧ rdOf (encodeU rd imm) = rd ∧
      immU (encodeU rd imm) = (BitVec.ofInt 20 imm).toInt := by
  simp (disch := omega) [encodeU, opcodeField, rdOf, rdField, immU,
    BitVec.extractLsb'_append_eq_of_le, BitVec.extractLsb'_append_eq_of_add_le, -Nat.reduceAdd]

theorem encodeJ_fields :
    opcodeField (encodeJ rd imm) = 0b1101111#7 ∧ rdOf (encodeJ rd imm) = rd ∧
      immJ (encodeJ rd imm) = (BitVec.ofInt 20 imm).toInt := by
  simp (disch := omega) [encodeJ, opcodeField, rdOf, rdField, immJ,
    BitVec.extractLsb'_append_eq_of_le, BitVec.extractLsb'_append_eq_of_add_le,
    BitVec.extractLsb'_append_extractLsb'_eq_extractLsb', -BitVec.toInt_ofInt, -Nat.reduceAdd]

end

/-! ### A word rebuilt from its fields, format by format (R170) -/

section
variable {w : InstrWord} {funct3 : BitVec 3}

theorem encodeR_of_fields {funct7 : BitVec 7} (hop : opcodeField w = 0b0110011#7) (h3 : funct3Field w = funct3)
    (h7 : funct7Field w = funct7) : encodeR funct7 funct3 (rdOf w) (rs1Of w) (rs2Of w) = w := by
  subst h3 h7
  rw [encodeR, ← hop]
  simp (disch := omega) [opcodeField, funct3Field, funct7Field, rdOf, rdField, rs1Of, rs1Field, rs2Of, rs2Field,
    BitVec.extractLsb'_append_extractLsb'_eq_extractLsb', -Nat.reduceAdd]

theorem encodeI_of_fields {opcode : BitVec 7} (hop : opcodeField w = opcode) (h3 : funct3Field w = funct3) :
    encodeI opcode funct3 (rdOf w) (rs1Of w) (immI w) = w := by
  subst hop h3
  simp (disch := omega) [encodeI, opcodeField, funct3Field, rdOf, rdField, rs1Of, rs1Field, immI,
    BitVec.extractLsb'_append_extractLsb'_eq_extractLsb', -BitVec.toInt_extractLsb', -Nat.reduceAdd]

theorem encodeIsh_of_fields {funct6 : BitVec 6} (hop : opcodeField w = 0b0010011#7) (h3 : funct3Field w = funct3)
    (h6 : funct6Field w = funct6) : encodeIsh funct6 funct3 (rdOf w) (rs1Of w) (shamtOf w) = w := by
  subst h3 h6
  rw [encodeIsh, ← hop]
  simp (disch := omega) [opcodeField, funct3Field, funct6Field, rdOf, rdField, rs1Of, rs1Field, shamtOf,
    BitVec.extractLsb'_append_extractLsb'_eq_extractLsb', -BitVec.extractLsb'_toNat, -Nat.reduceAdd]

theorem encodeS_of_fields (hop : opcodeField w = 0b0100011#7) (h3 : funct3Field w = 0b011#3) :
    encodeS (rs1Of w) (rs2Of w) (immS w) = w := by
  rw [encodeS, ← hop, ← h3]
  simp (disch := omega) [opcodeField, funct3Field, rs1Of, rs1Field, rs2Of, rs2Field, immS,
    BitVec.extractLsb'_append_eq_of_le, BitVec.extractLsb'_append_eq_of_add_le,
    BitVec.extractLsb'_append_extractLsb'_eq_extractLsb', -Nat.reduceAdd]

theorem encodeB_of_fields (hop : opcodeField w = 0b1100011#7) (h3 : funct3Field w = funct3) :
    encodeB funct3 (rs1Of w) (rs2Of w) (immB w) = w := by
  subst h3
  rw [encodeB, ← hop]
  simp (disch := omega) [opcodeField, funct3Field, rs1Of, rs1Field, rs2Of, rs2Field, immB,
    BitVec.extractLsb'_append_eq_of_le, BitVec.extractLsb'_append_eq_of_add_le,
    BitVec.extractLsb'_append_extractLsb'_eq_extractLsb', -Nat.reduceAdd]

theorem encodeU_of_fields (hop : opcodeField w = 0b0110111#7) : encodeU (rdOf w) (immU w) = w := by
  rw [encodeU, ← hop]
  simp (disch := omega) [opcodeField, rdOf, rdField, immU,
    BitVec.extractLsb'_append_extractLsb'_eq_extractLsb', -BitVec.toInt_extractLsb', -Nat.reduceAdd]

theorem encodeJ_of_fields (hop : opcodeField w = 0b1101111#7) : encodeJ (rdOf w) (immJ w) = w := by
  rw [encodeJ, ← hop]
  simp (disch := omega) [opcodeField, rdOf, rdField, immJ,
    BitVec.extractLsb'_append_eq_of_le, BitVec.extractLsb'_append_eq_of_add_le,
    BitVec.extractLsb'_append_extractLsb'_eq_extractLsb', -Nat.reduceAdd]

end

/-! ### Decode after encode, and encode after decode (R161, R170 to R172) -/

theorem decodeWord_eq_ok {w : InstrWord} {i : Instr} : decodeWord w = .ok i ↔ decodeRow w = some i := by
  unfold decodeWord
  cases decodeRow w <;> simp

theorem decodeWord_eq_error {w : InstrWord} (h : decodeRow w = none) : decodeWord w = .error (.encoding w) := by
  simp only [decodeWord, h]

theorem decodeRow_encode {i : Instr} (h : i.WellFormed) : decodeRow (encode i) = some i := by
  cases i with
  | add | sub | and | or | xor | sll | srl | sra | mul | div | divu | rem | remu =>
    simp [encode, decodeRow, decodeR, encodeR_fields]
  | addi | andi | ori | xori | ld =>
    simp [encode, decodeRow, decodeI, encodeI_fields, toInt_ofInt_of_inRange12 (of_decide_eq_true h), -BitVec.toInt_ofInt]
  | slli | srli | srai =>
    simp [encode, decodeRow, decodeI, encodeIsh_fields, toNat_ofNat_of_inRangeShift (of_decide_eq_true h),
      -BitVec.toNat_ofNat]
  | sd =>
    simp [encode, decodeRow, encodeS_fields, toInt_ofInt_of_inRange12 (of_decide_eq_true h), -BitVec.toInt_ofInt]
  | beq | bne | blt | bge =>
    simp [encode, decodeRow, decodeB, encodeB_fields, toInt_ofInt_of_inRange12 (of_decide_eq_true h), -BitVec.toInt_ofInt]
  | lui => simp [encode, decodeRow, encodeU_fields, toInt_ofInt_of_inRange20 (of_decide_eq_true h), -BitVec.toInt_ofInt]
  | jal => simp [encode, decodeRow, encodeJ_fields, toInt_ofInt_of_inRange20 (of_decide_eq_true h), -BitVec.toInt_ofInt]

/-- `i` is what the word `w` spells, nothing of `w` lost. -/
def Spells (w : InstrWord) (i : Instr) : Prop := i.WellFormed ∧ encode i = w

section
variable {w : InstrWord} {i : Instr}

theorem spells_of_decodeR (hop : opcodeField w = 0b0110011#7) (h : decodeR w = some i) : Spells w i := by
  simp only [decodeR] at h
  split_ifs at h
  all_goals
    obtain rfl := Option.some.inj h
    exact ⟨rfl, encodeR_of_fields hop ‹_› ‹_›⟩

theorem spells_of_decodeI (hop : opcodeField w = 0b0010011#7) (h : decodeI w = some i) : Spells w i := by
  simp only [decodeI] at h
  split_ifs at h with haddi hxori hori handi hleft hslli hright hsrli hsrai
  all_goals obtain rfl := Option.some.inj h
  · exact ⟨decide_eq_true (inRange12_toInt _), encodeI_of_fields hop haddi⟩
  · exact ⟨decide_eq_true (inRange12_toInt _), encodeI_of_fields hop hxori⟩
  · exact ⟨decide_eq_true (inRange12_toInt _), encodeI_of_fields hop hori⟩
  · exact ⟨decide_eq_true (inRange12_toInt _), encodeI_of_fields hop handi⟩
  · exact ⟨decide_eq_true (inRangeShift_shamtOf w), encodeIsh_of_fields hop hleft hslli⟩
  · exact ⟨decide_eq_true (inRangeShift_shamtOf w), encodeIsh_of_fields hop hright hsrli⟩
  · exact ⟨decide_eq_true (inRangeShift_shamtOf w), encodeIsh_of_fields hop hright hsrai⟩

theorem spells_of_decodeB (hop : opcodeField w = 0b1100011#7) (h : decodeB w = some i) : Spells w i := by
  simp only [decodeB] at h
  split_ifs at h
  all_goals
    obtain rfl := Option.some.inj h
    exact ⟨decide_eq_true (inRange12_toInt _), encodeB_of_fields hop ‹_›⟩

theorem spells_of_decodeRow (h : decodeRow w = some i) : Spells w i := by
  simp only [decodeRow] at h
  split_ifs at h with hR hI hLoad hload hStore hstore hB hU hJ
  · exact spells_of_decodeR hR h
  · exact spells_of_decodeI hI h
  · obtain rfl := Option.some.inj h
    exact ⟨decide_eq_true (inRange12_toInt _), encodeI_of_fields hLoad hload⟩
  · obtain rfl := Option.some.inj h
    exact ⟨decide_eq_true (inRange12_toInt _), encodeS_of_fields hStore hstore⟩
  · exact spells_of_decodeB hB h
  · obtain rfl := Option.some.inj h
    exact ⟨decide_eq_true (inRange20_toInt _), encodeU_of_fields hU⟩
  · obtain rfl := Option.some.inj h
    exact ⟨decide_eq_true (inRange20_toInt _), encodeJ_of_fields hJ⟩

end

/-- Settles O1: the fields of an encoded word are the operands, so each format's decoder finds them. -/
theorem decodeOfEncodeIsIdentity : Obligations.DecodeOfEncodeIsIdentity :=
  fun _ h => decodeWord_eq_ok.mpr (decodeRow_encode h)

/-- Settles O2: the fields that a decoder reads, with those it tests, are the whole word. -/
theorem encodeOfDecodeIsIdentity : Obligations.EncodeOfDecodeIsIdentity :=
  fun _ _ h => spells_of_decodeRow (decodeWord_eq_ok.mp h)

/-- Settles O5: each word evaluated. -/
theorem spelledWordsDecode : Obligations.SpelledWordsDecode := by
  unfold Obligations.SpelledWordsDecode
  decide

end Sys2Proof
end

section
/-! PROOFS. The rows of the opcode map against the decoder (spec/30_encoding.md R172), and programs given as words that hold one
outside the map (spec/30_encoding.md R173). -/

namespace Sys2Proof.Machine

/-! ### The row of an opcode (R172) -/

/-- The row of an opcode, at its place in R163. -/
def rowOf (op : Op) : OpcodeRow := opcodeRows[opNumber op]'(opNumber op).isLt

theorem mem_opcodeRows_iff {r : OpcodeRow} : r ∈ opcodeRows ↔ ∃ op, r = rowOf op := by
  constructor
  · have hrows : ∀ q ∈ opcodeRows, q = rowOf q.op := by decide
    exact fun h => ⟨r.op, hrows r h⟩
  · rintro ⟨op, rfl⟩
    exact List.getElem_mem _

@[simp] theorem rowOf_op (op : Op) : (rowOf op).op = op := by
  cases op <;> rfl

theorem opcodeRows_op_pairwise_ne : opcodeRows.Pairwise fun r q => r.op ≠ q.op := by decide

/-- `w` matches the row of `op` (R172). -/
def MatchesRow (w : InstrWord) (op : Op) : Prop := w &&& (rowOf op).mask = (rowOf op).pattern

/-! ### A match fixes the masked fields -/

section
variable {w m p : InstrWord} (h : w &&& m = p)
include h

theorem extractLsb'_of_and_eq {start len : Nat} (hm : m.extractLsb' start len = BitVec.allOnes len) :
    w.extractLsb' start len = p.extractLsb' start len := by
  rw [← h, BitVec.extractLsb'_and, hm, BitVec.and_allOnes]

theorem opcodeField_of_and_eq (hm : opcodeField m = BitVec.allOnes 7) : opcodeField w = opcodeField p :=
  extractLsb'_of_and_eq h hm

theorem funct3Field_of_and_eq (hm : funct3Field m = BitVec.allOnes 3) : funct3Field w = funct3Field p :=
  extractLsb'_of_and_eq h hm

theorem funct7Field_of_and_eq (hm : funct7Field m = BitVec.allOnes 7) : funct7Field w = funct7Field p :=
  extractLsb'_of_and_eq h hm

theorem funct6Field_of_and_eq (hm : funct6Field m = BitVec.allOnes 6) : funct6Field w = funct6Field p :=
  extractLsb'_of_and_eq h hm

end

/-- A word that matches an opcode's row decodes to an instruction of that opcode. -/
theorem decodeRow_of_matchesRow {w : InstrWord} {op : Op} (h : MatchesRow w op) : (decodeRow w).map opOf = some op := by
  have hop : opcodeField w = opcodeField (rowOf op).pattern := opcodeField_of_and_eq h (by cases op <;> decide)
  cases op with
  | lui | jal =>
    rw [decodeRow, hop]
    rfl
  | add | sub | and | or | xor | sll | srl | sra | mul | div | divu | rem | remu =>
    rw [decodeRow, decodeR, hop, funct3Field_of_and_eq h (by decide), funct7Field_of_and_eq h (by decide)]
    rfl
  | addi | andi | ori | xori =>
    rw [decodeRow, decodeI, hop, funct3Field_of_and_eq h (by decide)]
    rfl
  | slli | srli | srai =>
    rw [decodeRow, decodeI, hop, funct3Field_of_and_eq h (by decide), funct6Field_of_and_eq h (by decide)]
    rfl
  | ld | sd =>
    rw [decodeRow, hop, funct3Field_of_and_eq h (by decide)]
    rfl
  | beq | bne | blt | bge =>
    rw [decodeRow, decodeB, hop, funct3Field_of_and_eq h (by decide)]
    rfl

/-! ### Words that agree on the masked fields match the same rows -/

/-- The mask of the field of `len` bits from bit `start`. -/
def fieldMask (start len : Nat) : InstrWord := (BitVec.allOnes len).setWidth 32 <<< start

section
variable {w p : InstrWord}

theorem and_fieldMask_congr {start len : Nat} (h : w.extractLsb' start len = p.extractLsb' start len) :
    w &&& fieldMask start len = p &&& fieldMask start len := by
  ext i hi
  by_cases hin : start ≤ i ∧ i - start < len
  · have hbit := congrArg (BitVec.getLsbD · (i - start)) h
    simp only [BitVec.getLsbD_extractLsb', hin.2, decide_true, Bool.true_and, Nat.add_sub_cancel' hin.1,
      BitVec.getLsbD_eq_getElem hi] at hbit
    rw [BitVec.getElem_and, BitVec.getElem_and, hbit]
  · have hclear : (fieldMask start len)[i] = false := by
      simpa [fieldMask] using hin
    rw [BitVec.getElem_and, BitVec.getElem_and, hclear, Bool.and_false, Bool.and_false]

theorem and_or_congr {a b : InstrWord} (ha : w &&& a = p &&& a) (hb : w &&& b = p &&& b) :
    w &&& (a ||| b) = p &&& (a ||| b) := by
  rw [BitVec.and_or_distrib_left, ha, hb, BitVec.and_or_distrib_left]

theorem and_opcodeMask_congr (hop : opcodeField w = opcodeField p) : w &&& 0x0000007f#32 = p &&& 0x0000007f#32 :=
  and_fieldMask_congr hop

theorem and_funct3Mask_congr (hop : opcodeField w = opcodeField p) (h3 : funct3Field w = funct3Field p) :
    w &&& 0x0000707f#32 = p &&& 0x0000707f#32 :=
  and_or_congr (and_opcodeMask_congr hop) (and_fieldMask_congr h3)

theorem and_funct7Mask_congr (hop : opcodeField w = opcodeField p) (h3 : funct3Field w = funct3Field p)
    (h7 : funct7Field w = funct7Field p) : w &&& 0xfe00707f#32 = p &&& 0xfe00707f#32 :=
  and_or_congr (and_funct3Mask_congr hop h3) (and_fieldMask_congr h7)

theorem and_funct6Mask_congr (hop : opcodeField w = opcodeField p) (h3 : funct3Field w = funct3Field p)
    (h6 : funct6Field w = funct6Field p) : w &&& 0xfc00707f#32 = p &&& 0xfc00707f#32 :=
  and_or_congr (and_funct3Mask_congr hop h3) (and_fieldMask_congr h6)

end

/-- The pattern of a row is the word of its opcode with every operand 0, and it matches itself. -/
theorem matchesRow_iff {w : InstrWord} {op : Op} :
    MatchesRow w op ↔ w &&& (rowOf op).mask = encode (instrOfFields op 0 0 0 0) &&& (rowOf op).mask := by
  rw [show encode (instrOfFields op 0 0 0 0) &&& (rowOf op).mask = (rowOf op).pattern by cases op <;> decide]
  rfl

/-- An encoded word matches its opcode's row, whatever its operands. -/
theorem matchesRow_encode (i : Instr) : MatchesRow (encode i) (opOf i) := by
  rw [matchesRow_iff]
  cases i with
  | add | sub | and | or | xor | sll | srl | sra | mul | div | divu | rem | remu =>
    apply and_funct7Mask_congr <;> simp only [opOf, instrOfFields, encode, encodeR_fields]
  | slli | srli | srai => apply and_funct6Mask_congr <;> simp only [opOf, instrOfFields, encode, encodeIsh_fields]
  | addi | andi | ori | xori | ld =>
    apply and_funct3Mask_congr <;> simp only [opOf, instrOfFields, encode, encodeI_fields]
  | sd => apply and_funct3Mask_congr <;> simp only [opOf, instrOfFields, encode, encodeS_fields]
  | beq | bne | blt | bge =>
    apply and_funct3Mask_congr <;> simp only [opOf, instrOfFields, encode, encodeB_fields]
  | lui =>
    apply and_opcodeMask_congr
    simp only [opOf, instrOfFields, encode, encodeU_fields]
  | jal =>
    apply and_opcodeMask_congr
    simp only [opOf, instrOfFields, encode, encodeJ_fields]

/-! ### The opcode map and the decoder (R172, R173) -/

theorem matchesRow_iff_decodeRow {w : InstrWord} {op : Op} :
    MatchesRow w op ↔ ∃ i, decodeRow w = some i ∧ opOf i = op := by
  constructor
  · exact fun h => Option.map_eq_some_iff.mp (decodeRow_of_matchesRow h)
  · rintro ⟨i, hi, rfl⟩
    obtain ⟨-, rfl⟩ := spells_of_decodeRow hi
    exact matchesRow_encode i

/-- A word matches at most one row: its opcode is that of the one instruction it decodes to. -/
theorem MatchesRow.op_unique {w : InstrWord} {op op' : Op} (h : MatchesRow w op) (h' : MatchesRow w op') : op = op' :=
  Option.some.inj ((decodeRow_of_matchesRow h).symm.trans (decodeRow_of_matchesRow h'))

/-- `w` is a word of the opcode map (R172). -/
def InOpcodeMap (w : InstrWord) : Prop := ∃ r ∈ opcodeRows, w &&& r.mask = r.pattern

theorem inOpcodeMap_iff {w : InstrWord} : InOpcodeMap w ↔ ∃ i, decodeWord w = .ok i := by
  constructor
  · rintro ⟨r, hr, h⟩
    obtain ⟨op, rfl⟩ := mem_opcodeRows_iff.mp hr
    obtain ⟨i, hi, -⟩ := matchesRow_iff_decodeRow.mp h
    exact ⟨i, decodeWord_eq_ok.mpr hi⟩
  · rintro ⟨i, hi⟩
    exact ⟨rowOf (opOf i), mem_opcodeRows_iff.mpr ⟨_, rfl⟩,
      matchesRow_iff_decodeRow.mpr ⟨i, decodeWord_eq_ok.mp hi, rfl⟩⟩

theorem decodeWord_of_not_inOpcodeMap {w : InstrWord} (h : ¬ InOpcodeMap w) : decodeWord w = .error (.encoding w) := by
  cases hw : decodeRow w with
  | none => exact decodeWord_eq_error hw
  | some i => exact absurd (inOpcodeMap_iff.mpr ⟨i, decodeWord_eq_ok.mpr hw⟩) h

/-- Settles O3: a word that matches a row decodes to the row's opcode, so two rows that one word matches are one row; and an
encoded word matches its opcode's row. -/
theorem decoderReadsTheOpcodeMap : Obligations.DecoderReadsTheOpcodeMap := by
  refine ⟨rfl, opcodeRows_op_pairwise_ne.imp_of_mem fun {r q} hr hq hne w hboth => ?_, fun w r hr => ?_⟩
  · obtain ⟨op, rfl⟩ := mem_opcodeRows_iff.mp hr
    obtain ⟨op', rfl⟩ := mem_opcodeRows_iff.mp hq
    exact hne (by simpa using MatchesRow.op_unique hboth.1 hboth.2)
  · obtain ⟨op, rfl⟩ := mem_opcodeRows_iff.mp hr
    simp only [decodeWord_eq_ok, rowOf_op]
    exact matchesRow_iff_decodeRow

/-! ### A program of words (R173, R512) -/

/-- The decoder layer on a program, a word outside the map being the launch's refusal (R173). -/
def readWords (words : List InstrWord) : Except LaunchError (List RawRecord) :=
  (decodeProgram words).mapError fun w => .refused (.encoding w)

theorem readWords_readsInOrder :
    ReadsInOrder (fun _ (_ : Unit) rest => readWords rest) (fun _ w => InOpcodeMap w)
      fun w => .refused (.encoding w) where
  nil _ _ := ⟨[], rfl⟩
  valid _ _ w rest hw := by
    obtain ⟨i, hi⟩ := inOpcodeMap_iff.mp hw
    refine ⟨(), (rawOfInstr i :: ·), ?_⟩
    simp only [readWords, decodeProgram, hi]
    cases decodeProgram rest <;> rfl
  invalid _ _ w rest hw := by
    simp only [readWords, decodeProgram, decodeWord_of_not_inOpcodeMap hw]
    rfl

section
variable {words : List InstrWord} {regInit : List (Int × Option Int)} {memInit : List (Int × Int)} {cfg : Config}

theorem launchWords_of_error {e : LaunchError} (h : readWords words = .error e) :
    launchWords cfg words regInit memInit = e.outcome := by
  cases hp : decodeProgram words with
  | ok p => simp [readWords, hp, Except.mapError] at h
  | error w =>
    obtain rfl : .refused (.encoding w) = e := by simpa [readWords, hp, Except.mapError] using h
    simp only [launchWords, hp, LaunchError.outcome]

/-- A word outside the map, wherever it stands in the program, keeps the launch from a state. -/
theorem launchWords_ne_next {w : InstrWord} (hmem : w ∈ words) (hw : ¬ InOpcodeMap w) (s : State) :
    launchWords cfg words regInit memInit ≠ .next s := by
  have hok : ¬ ∃ p, readWords words = .ok p := by
    rw [readWords_readsInOrder.ok_iff [] (), eachValidAfter_const]
    exact fun hall => hw (hall w hmem)
  cases h : readWords words with
  | ok p => exact absurd ⟨p, h⟩ hok
  | error e =>
    rw [launchWords_of_error h]
    cases e <;> nofun

theorem launchWords_first_refused {before after : List InstrWord} {w : InstrWord} (hbefore : ∀ v ∈ before, InOpcodeMap v)
    (hw : ¬ InOpcodeMap w) :
    launchWords cfg (before ++ w :: after) regInit memInit = .refused (.encoding w) :=
  launchWords_of_error
    (readWords_readsInOrder.first_error () after (eachValidAfter_const (done := []).mpr hbefore) hw)

end

/-- Settles O4: the decoder layer reads the words in order before any check of the launch. -/
theorem wordsOutsideTheMapAreRefused : Obligations.WordsOutsideTheMapAreRefused := by
  intro w hno
  have hw : ¬ InOpcodeMap w := fun ⟨r, hr, h⟩ => hno r hr h
  exact ⟨decodeWord_of_not_inOpcodeMap hw, fun cfg before after regInit memInit =>
    ⟨launchWords_ne_next (by simp) hw, fun hbefore _ => launchWords_first_refused hbefore hw⟩⟩

end Sys2Proof.Machine
end

section
/-! PROOFS. What each stage does with the record in its place, the fetch stage where it takes no instruction in, and the step of
a block whose fetch is free (spec/40_pipeline.md R200, R204, R210 to R218, spec/60_exceptions.md R507, R508). -/

namespace Sys2Proof.Machine

/-! ### Each stage as `exec` of its record (R204, R210, R213, R215) -/

section
variable {s : State} {I : Record}

theorem writebackStage_some (h : s.memWb = some I) : writebackStage s = exec I.instr (enterStage .writeback s) := by
  simp only [writebackStage, h]

theorem memoryStage_some (h : s.exMem = some I) : memoryStage s = exec I.instr (enterStage .memory s) := by
  simp only [memoryStage, h]

theorem completeStage_due {exit : Nat} (h : s.fu = .busy I exit) (hdue : exit ≤ s.tick) :
    completeStage s = exec I.instr (enterStage .execute s) := by
  simp only [completeStage, h, if_pos hdue]

theorem decodeStage_some (h : s.ifId = some I) (hidEx : s.idEx = none) :
    decodeStage s = exec I.instr (enterStage .decode s) := by
  simp only [decodeStage, h, if_pos hidEx]

end

/-- Settles O40, stage by stage. -/
theorem stagesRunTheirRecord : Obligations.StagesRunTheirRecord := fun _ _ =>
  ⟨writebackStage_some, memoryStage_some, fun _ => completeStage_due, decodeStage_some⟩

/-! ### The functional unit's drain and feed (R204, R214) -/

section
variable {s : State} {I : Record}

theorem drainUnit_free (h : s.fu = .done I) (hfree : s.exMem = none) :
    drainUnit s = { s with exMem := some I, fu := .idle } := by
  simp only [drainUnit, h, if_pos hfree]

/-- A result that is not finished, or whose latch is taken, stays. -/
theorem drainUnit_waits (h : (∀ I, s.fu ≠ .done I) ∨ s.exMem ≠ none) : drainUnit s = s :=
  (drainUnit_cases s).resolve_right fun ⟨I, hdone, hfree, _⟩ => h.elim (fun hn => hn I hdone) fun hn => hn hfree

theorem feedUnit_idle (h : s.fu = .idle) :
    feedUnit s = { s with
      fu := s.idEx.elim .idle fun J => .busy J (s.tick + max 1 J.latency)
      idEx := none } := by
  cases hidEx : s.idEx with
  | none =>
    rw [feedUnit_empty hidEx, Option.elim_none, ← h, ← hidEx]
  | some J =>
    simp only [feedUnit, h, hidEx]
    rfl

theorem feedUnit_occupied (h : s.fu ≠ .idle) : feedUnit s = s :=
  (feedUnit_cases s).resolve_right fun ⟨_, hidle, _⟩ => h hidle

end

/-- Settles O41: no record is due, so EX is the drain followed by the feed. -/
theorem functionalUnitDrainsThenFeeds : Obligations.FunctionalUnitDrainsThenFeeds := by
  intro s hr hdue
  rw [executeStage_not_due hr hdue]
  refine ⟨fun I hdone hfree => ?_, fun hidle => ?_, fun hwait => ?_⟩
  · rw [drainUnit_free (s := enterStage .execute s) hdone hfree, feedUnit_idle rfl]
    rfl
  · rw [drainUnit_waits (s := enterStage .execute s) (.inl (by simp [hidle])),
      feedUnit_idle (s := enterStage .execute s) hidle]
    rfl
  · have hstays : drainUnit (enterStage .execute s) = enterStage .execute s ∧ s.fu ≠ .idle := by
      obtain ⟨I, exit, hbusy⟩ | ⟨⟨I, hdone⟩, htaken⟩ := hwait
      · exact ⟨drainUnit_waits (.inl (by simp [hbusy])), by simp [hbusy]⟩
      · exact ⟨drainUnit_waits (.inr htaken), by simp [hdone]⟩
    obtain ⟨hdrain, hoccupied⟩ := hstays
    rw [hdrain, feedUnit_occupied (s := enterStage .execute s) hoccupied]
    rfl

/-! ### The instruction source (R217, R218) -/

theorem fetchable_iff (pc : Word) : fetchable pc = true ↔ pc.toNat ≠ 0 ∧ pc.toNat % 4 = 0 := by
  simp [fetchable]

theorem readProgram_of_fetchable {pc : Word} (h : fetchable pc = true) (program : List Instr) :
    readProgram program pc = program[pc.toNat / 4 - 1]? := if_pos h

theorem fetchable_of_readProgram {program : List Instr} {pc : Word} {i : Instr} (h : readProgram program pc = some i) :
    fetchable pc = true := by
  unfold readProgram at h
  split at h
  case isTrue hf => exact hf
  case isFalse => cases h

theorem readProgram_past {program : List Instr} {pc : Word} (hf : fetchable pc = true)
    (hpast : 4 * (program.length + 1) ≤ pc.toNat) : readProgram program pc = none := by
  rw [readProgram_of_fetchable hf]
  exact List.getElem?_eq_none (by omega)

/-- Settles O23: an address of a record is fetchable, and so is every multiple of 4 past the last. -/
theorem instructionSource : Obligations.InstructionSource := by
  intro program pc haligned
  refine ⟨fun h => ?_, fun hpast => readProgram_past ((fetchable_iff pc).mpr ⟨by omega, haligned⟩) hpast⟩
  obtain ⟨hlow, hhigh⟩ := h
  rw [readProgram_of_fetchable ((fetchable_iff pc).mpr ⟨by omega, haligned⟩)]
  exact List.getElem?_eq_getElem (by omega)

/-! ### Fetch without an instruction (R217, R507, R508) -/

section
variable {s : State}

theorem fetchStage_stalled {I : Record} (h : s.ifId = some I) :
    fetchStage s =
      .next { enterStage .fetch s with counters := { s.counters with stalls := s.counters.stalls + 1 } } := by
  simp [fetchStage, h]

theorem fetchStage_blocked (h : s.ifId = none) (hb : s.fetchBlocked = true) :
    fetchStage s = .next (enterStage .fetch s) := by
  simp [fetchStage, h, hb]

theorem fetchStage_invalid (h : s.ifId = none) (hb : s.fetchBlocked = false) (hf : fetchable s.pc = false) :
    fetchStage s = .next (fetchInvalid (enterStage .fetch s)) := by
  simp [fetchStage, h, hb, hf]

theorem fetchStage_takes (h : s.ifId = none) (hb : s.fetchBlocked = false) {i : Instr}
    (hi : readProgram s.program s.pc = some i) : fetchStage s = exec i (enterStage .fetch s) := by
  simp [fetchStage, h, hb, fetchable_of_readProgram hi, hi]

/-- With `IF_ID` free, no record is older than the next fetch exactly when the pipeline is empty. -/
theorem noOlderRecord_iff (h : s.ifId = none) : noOlderRecord s = true ↔ PipelineEmpty s := by
  simp only [noOlderRecord, PipelineEmpty, h, Bool.and_eq_true, Option.isNone_iff_eq_none, decide_eq_true_eq, true_and]
  tauto

theorem fetchInvalid_held (h : s.ifId = none) (hheld : ¬ PipelineEmpty s) : fetchInvalid s = s :=
  if_neg (mt (noOlderRecord_iff h).mp hheld)

theorem fetchInvalid_faults (hempty : PipelineEmpty s) :
    fetchInvalid s = raiseFault (if s.pc = 0 then .fetchPcZero else .fetchMisaligned) (.atPc s.pc) s :=
  if_pos ((noOlderRecord_iff hempty.1).mpr hempty)

theorem not_fetchable (h : s.pc = 0 ∨ s.pc.toNat % 4 ≠ 0) : fetchable s.pc = false := by
  obtain h | h := h <;> simp [fetchable, h]

end

/-- Settles O27: one lemma about the stage for each way not to fetch. -/
theorem fetchWaitsOrFaults : Obligations.FetchWaitsOrFaults := by
  intro s
  refine ⟨fun I => fetchStage_stalled, fetchStage_blocked, fun h hb => ⟨fun haligned hpast => ?_, fun hpc hheld => ?_,
    fun hpc hempty => ?_, fun hpc hempty => ?_⟩⟩
  · have hf : fetchable s.pc = true := (fetchable_iff _).mpr ⟨by omega, haligned⟩
    exact fetchStage_past h ⟨hf, readProgram_past hf hpast⟩
  · rw [fetchStage_invalid h hb (not_fetchable hpc), fetchInvalid_held (s := enterStage .fetch s) h hheld]
    rfl
  · rw [fetchStage_invalid h hb (not_fetchable (.inl hpc)), fetchInvalid_faults (s := enterStage .fetch s) hempty,
      enterStage_pc, if_pos hpc]
    exact congrArg (fun p => Host.Outcome.next (raiseFault .fetchPcZero (.atPc p) (enterStage .fetch s))) hpc
  · have hne : s.pc ≠ 0 := fun h0 => hpc (by rw [h0]; rfl)
    rw [fetchStage_invalid h hb (not_fetchable (.inr hpc)), fetchInvalid_faults (s := enterStage .fetch s) hempty,
      enterStage_pc, if_neg hne]
    rfl

/-! ### The step where fetch is free (R200, R217) -/

/-- The part of an instruction at fetch neither raises nor ticks. -/
theorem exec_fetch_runs {s : State} (h : s.stage = .fetch) (i : Instr) :
    ∃ f, exec i s = .next f ∧ f.status = s.status ∧ f.tick = s.tick := by
  refine ⟨_, exec_fetch h i, ?_⟩
  cases isBranch i
  · exact ⟨rfl, rfl⟩
  · obtain ⟨I, pc, hb, -⟩ := fetchBranch_shape i s
    rw [if_pos rfl, hb]
    exact ⟨rfl, rfl⟩

/-- A step is the stages before fetch, the fetch, and the tick. -/
theorem step_of_fetch {s d f : State} (hr : s.status = .running) (hc : continues s = true) (hd : backStages s = .next d)
    (hdr : d.status = .running) (hf : fetchStage d = .next f) (hfr : f.status = .running) :
    step s = .next (tickOver f) := by
  simp only [step, runLoop, hr, hc, if_true, cycle, hd, andThen_running hdr, hf, andThen_running hfr]

/-- Settles O38: the fetch stage hands the instruction at `pc` to `exec`, whose part there does not raise. -/
theorem stepRunsTheInstructionAtPc : Obligations.StepRunsTheInstructionAtPc := by
  intro s d i hr hc hd hdr hifId hblocked hi
  obtain ⟨f, hf, hstatus, -⟩ := exec_fetch_runs (s := enterStage .fetch d) rfl i
  have hfr : f.status = .running := hstatus.trans hdr
  exact ⟨f, hf, hfr, step_of_fetch hr hc hd hdr ((fetchStage_takes hifId hblocked hi).trans hf) hfr⟩

/-! ### The placed instruction (R218) -/

theorem placeRecord_getElem? (p : List Instr) (k : Nat) (i : Instr) : (placeRecord p k i)[k]? = some i := by
  induction k generalizing p with
  | zero => cases p <;> rfl
  | succ k ih => cases p <;> simp [placeRecord, ih]

theorem withFetchWord_eq {s : State} {nbits w : Nat} {i : Instr} (h : decodeTableWord nbits w = some i)
    (hf : fetchable s.pc = true) :
    s.withFetchWord nbits w = { s with program := placeRecord s.program (s.pc.toNat / 4 - 1) i } := by
  simp only [State.withFetchWord, placeWord, h, placeInstr, if_pos hf]

/-- With an empty pipeline the stages before fetch only move the cursor. -/
theorem backStages_empty {s : State} (hr : s.status = .running) (hempty : PipelineEmpty s) :
    backStages s = .next (enterStage .decode s) := by
  obtain ⟨hifId, hidEx, hexMem, hmemWb, hfu⟩ := hempty
  have hmemory := memoryStage_idle (s := enterStage .writeback s) hexMem
  have hexecute := executeStage_empty (s := enterStage .memory (enterStage .writeback s)) hr hfu hidEx
  have hdecode := decodeStage_idle (s := enterStage .execute (enterStage .memory (enterStage .writeback s))) hifId
  simp only [backStages, writebackStage_idle hmemWb, andThen, enterStage_status, hr, if_true, hmemory, hexecute, hdecode]
  rfl

/-- The first step of a run: the pipeline is empty, and the step is the fetch of the instruction at `pc`. -/
theorem step_first {s : State} {i : Instr} (hr : s.status = .running) (htick : s.tick = 0) (hempty : PipelineEmpty s)
    (hblocked : s.fetchBlocked = false) (hi : readProgram s.program s.pc = some i) :
    ∃ f, exec i { s with stage := .fetch } = .next f ∧ f.status = .running ∧ step s = .next { f with tick := 1 } := by
  obtain ⟨f, hf, hstatus, hticks⟩ := exec_fetch_runs (s := { s with stage := .fetch }) rfl i
  have hfr : f.status = .running := hstatus.trans hr
  have hfetch : fetchStage (enterStage .decode s) = .next f :=
    (fetchStage_takes (s := enterStage .decode s) hempty.1 hblocked hi).trans hf
  refine ⟨f, hf, hfr, ?_⟩
  rw [step_of_fetch hr (by simp [continues, htick]) (backStages_empty hr hempty) hr hfetch hfr]
  exact congrArg (fun k => Host.Outcome.next { f with tick := k + 1 }) (hticks.trans htick)

/-- Settles O39: the placed record is the one at `pc`, and nothing in the pipeline keeps the step from it. -/
theorem stepRunsThePlacedWord : Obligations.StepRunsThePlacedWord := by
  intro s nbits w i hw hr htick hempty hblocked hf
  have hread : readProgram (placeRecord s.program (s.pc.toNat / 4 - 1) i) s.pc = some i := by
    rw [readProgram_of_fetchable hf, placeRecord_getElem?]
  rw [withFetchWord_eq hw hf]
  exact ⟨hread, step_first hr htick hempty hblocked hread⟩

end Sys2Proof.Machine
end

section
/-! PROOFS. Decode (spec/40_pipeline.md R206, R207, R215, R224, spec/45_upper_immediate_jump.md R421): the producer that an operand
waits for, and the record as it enters `ID_EX`. -/

namespace Sys2Proof.Machine

/-! ### Values modulo `2^64` (R14, R162, R164) -/

/-- A signed immediate added to a place wraps modulo `2^64`. -/
theorem toNat_add_ofInt (a : Word) (n : Int) : ((a + BitVec.ofInt 64 n).toNat : Int) = ((a.toNat : Int) + n) % 2 ^ 64 := by
  rw [BitVec.toNat_add, BitVec.toNat_ofInt]
  omega

theorem byteOffset_eq (imm : Int) : byteOffset imm = BitVec.ofInt 64 (2 * imm) := (BitVec.ofInt_mul 2 imm).symm

/-! ### Producers (R206, R224) -/

theorem mem_recordsInFlight_of_producer {s : State} {P : Record} (h : P ∈ producers s) : P ∈ recordsInFlight s := by
  simp only [producers, recordsInFlight, List.mem_append] at h ⊢
  tauto

/-- Records in program order are told apart by their handles (R225). -/
theorem ProgramOrder.eq_of_seq {s : State} (h : ProgramOrder s) {I J : Record} (hI : I ∈ recordsInFlight s)
    (hJ : J ∈ recordsInFlight s) (hseq : I.seq = J.seq) : I = J :=
  List.inj_on_of_nodup_map (List.pairwise_map.mpr (h.1.imp Nat.ne_of_lt)) hI hJ hseq

/-- The producer in flight with a handle is the one record that has it. -/
theorem ProgramOrder.inFlight_eq {s : State} (h : ProgramOrder s) {P : Record} (hP : P ∈ producers s) :
    inFlight s P.seq = some P := by
  cases hQ : inFlight s P.seq with
  | none => exact absurd (List.find?_eq_none.mp hQ P hP) (by simp)
  | some Q =>
    have hseq : Q.seq = P.seq := by simpa using List.find?_some hQ
    have hmem : Q ∈ producers s := List.mem_of_find?_eq_some hQ
    rw [h.eq_of_seq (mem_recordsInFlight_of_producer hmem) (mem_recordsInFlight_of_producer hP) hseq]

theorem operand_of_producer {s : State} {i : Reg} {P : Record} (hi : i ≠ 0) (hdep : s.dep.get i = some P.seq)
    (hP : inFlight s P.seq = some P) :
    operand s i = if s.cfg.forwarding && P.ready then some P.rdVal else none := by
  simp only [operand, if_neg hi, hdep, hP]

/-! ### Decode of a record (R207, R215) -/

theorem exec_decode_record {s : State} (h : s.stage = .decode) {i : Instr} (hi : ∀ rd imm, i ≠ .jal rd imm) :
    exec i s = .next (decodeRecord (rdIndex i) (rs1Index i) (rs2Index i) s) := by
  obtain ⟨rd, imm, hjal, -⟩ | ⟨-, hx⟩ := exec_decode h i
  · exact absurd hjal (hi rd imm)
  · exact hx

theorem exec_decode_jal {s : State} (h : s.stage = .decode) (rd : Reg) (imm : Int) :
    exec (.jal rd imm) s = .next (decodeJump rd imm s) := by
  obtain ⟨rd', imm', hi, hx⟩ | ⟨hn, -⟩ := exec_decode h (.jal rd imm)
  · obtain ⟨rfl, rfl⟩ := Instr.jal.inj hi
    exact hx
  · exact absurd rfl (hn rd imm)

theorem depCheck_eq_none {s : State} {rs1 rs2 : Reg} (h : operand s rs1 = none ∨ operand s rs2 = none) :
    depCheck s rs1 rs2 = none := by
  refine Option.eq_none_iff_forall_ne_some.mpr fun v hv => ?_
  obtain ⟨hrs1, hrs2⟩ := depCheck_some.mp hv
  simp [hrs1, hrs2] at h

theorem registerProducer_eq (s : State) (rd : Reg) (q : Nat) :
    registerProducer s rd q = { s with dep := if rd = 0 then s.dep else s.dep.set rd (some q) } := by
  by_cases h : rd = 0
  · subst h
    rfl
  · rw [registerProducer_of_ne h, if_neg h]

/-- A stalling operand keeps the instruction where it is; a jump has no operand to stall on. -/
theorem exec_decode_stalls {s : State} {I : Record} {j : Instr} (h : AtDecode s I)
    (hstall : operand s (rs1Index j) = none ∨ operand s (rs2Index j) = none) : exec j s = .next s := by
  obtain ⟨hstage, hifId, -⟩ := h
  have hj : ∀ rd imm, j ≠ .jal rd imm := by
    rintro rd imm rfl
    simp [rs1Index, rs2Index, operand] at hstall
  rw [exec_decode_record hstage hj]
  obtain ⟨-, hx⟩ | ⟨v, hv, -⟩ :=
    decodeRecord_cases (rd := rdIndex j) (rs1 := rs1Index j) (rs2 := rs2Index j) hifId
  · rw [hx]
  · simp [depCheck_eq_none hstall] at hv

/-- Settles O20: program order singles out the producer that the table names. -/
theorem operandResolution : Obligations.OperandResolution := by
  intro s i horder
  refine ⟨fun hi => by simp [operand, hi], fun hi hdep => ?_, fun P hP hi hdep => ?_, fun I j => exec_decode_stalls⟩
  · rw [operand_of_no_producer hdep, readReg_of_ne hi]
  · rw [operand_of_producer hi hdep (horder.inFlight_eq hP)]
    exact ⟨fun hf hready => by simp [hf, hready], fun hstall => by
      obtain h | h := hstall <;> simp [h]⟩

/-- Settles O21: both operands resolve, so the record moves and registers itself. -/
theorem decodeTakesOperands : Obligations.DecodeTakesOperands := by
  intro i s I a b h hi ha hb
  obtain ⟨hstage, hifId, -⟩ := h
  have hv : depCheck s (rs1Index i) (rs2Index i) = some (a, b) := depCheck_some.mpr ⟨ha, hb⟩
  rw [exec_decode_record hstage hi]
  obtain ⟨hn, -⟩ | ⟨v, hv', hx⟩ :=
    decodeRecord_cases (rd := rdIndex i) (rs1 := rs1Index i) (rs2 := rs2Index i) hifId
  · simp [hv] at hn
  · obtain rfl := Option.some.inj (hv.symm.trans hv')
    rw [hx, registerProducer_eq]
    rfl

/-- Settles O22: a jump reads `x0` twice, which never stalls, and its target wraps modulo `2^64`. -/
theorem jumpRedirectsAtDecode : Obligations.JumpRedirectsAtDecode := by
  intro rd imm s I h _ _
  obtain ⟨hstage, hifId, -⟩ := h
  refine ⟨I.pc + byteOffset imm, ?_, ?_⟩
  · rw [byteOffset_eq, toNat_add_ofInt]
  · rw [exec_decode_jal hstage, decodeJump_some hifId, registerProducer_eq]
    rfl

end Sys2Proof.Machine
end

section
/-! PROOFS. EX completion of `LD` and `SD`, the MEM stage of the other instructions, and writeback (spec/40_pipeline.md R205, R208
to R213, spec/43_load_store.md R380, spec/60_exceptions.md R509). -/

namespace Sys2Proof.Machine

/-! ### Addresses (R205, R380) -/

theorem exec_completes {i : Instr} {s : State} {I : Record} (hi : isDivision i = false) (h : AtExecute s I) :
    exec i s = .next { s with fu := .done (computeOf s.cfg.divOverflow i I) } := by
  obtain ⟨hstage, exit, hfu⟩ := h
  rw [exec_execute hstage, if_neg (by simp [hi]), completeRecord_busy hfu]

/-- Settles O18: both compute the base plus the immediate. -/
theorem effectiveAddresses : Obligations.EffectiveAddresses := by
  intro rd rs1 rs2 imm s I h _ _
  exact ⟨I.rs1Val + immValue imm, toNat_add_ofInt _ _, exec_completes (i := .ld rd rs1 imm) rfl h,
    exec_completes (i := .sd rs1 rs2 imm) rfl h⟩

/-! ### MEM on the other instructions (R213) -/

theorem exec_memory_pass {s : State} (h : s.stage = .memory) {i : Instr} (hi : isMemory i = false) :
    exec i s = .next (passMemory s) := by
  obtain ⟨_, _, _, rfl, -⟩ | ⟨_, _, _, rfl, -⟩ | ⟨-, hx⟩ := exec_memory h i
  · cases hi
  · cases hi
  · exact hx

/-- Settles O28: `MEM_WB` is free, so the record passes. -/
theorem othersPassTheMemoryStage : Obligations.OthersPassTheMemoryStage := by
  rintro i s I ⟨-, hstage, hexMem, hmemWb⟩ hi
  rw [exec_memory_pass hstage hi, passMemory_some hexMem hmemWb]

/-! ### Writeback (R208, R210, R509) -/

section
variable {i : Instr} {s : State} {I : Record}

theorem exec_writeback_faults (h : AtWriteback s I) {c : FaultCode} (hc : I.pendingFault = some c) :
    exec i s = .next (raiseFault c (.atPc I.pc) { s with memWb := none }) := by
  obtain ⟨hstage, hmemWb⟩ := h
  simp only [exec_writeback hstage, writebackRecord, hmemWb, hc]

/-- A record without a pending fault retires, and a branch is then resolved. -/
theorem exec_writeback_retires (h : AtWriteback s I) (hp : I.pendingFault = none) :
    exec i s = .next (if isBranch i then resolveBranch I (retired i I s) else retired i I s) := by
  obtain ⟨hstage, hmemWb⟩ := h
  simp only [exec_writeback hstage, writebackRecord, hmemWb, hp]
  cases isBranch i <;> rfl

end

theorem clearProducer_eq (s : State) (r : Reg) (q : Nat) :
    clearProducer s r q = { s with dep := if s.dep.get r = some q then s.dep.set r none else s.dep } := by
  unfold clearProducer
  split <;> rfl

/-- All that the commit of a record writes. -/
theorem retired_eq (i : Instr) (I : Record) (s : State) :
    retired i I s = { s with
      memWb := none
      x := if rdIndex i = 0 then s.x else s.x.set (rdIndex i) I.rdVal
      dep := if rdIndex i ≠ 0 ∧ s.dep.get (rdIndex i) = some I.seq then s.dep.set (rdIndex i) none else s.dep
      counters := { s.counters with retired := s.counters.retired + 1 } } := by
  by_cases h : rdIndex i = 0
  · simp [retired, retireRecord, h]
  · simp [retired, retireRecord, commitResult_of_ne h, writeReg_of_ne h, clearProducer_eq, h]

/-- Settles O36: the commit, or the fault in its place. -/
theorem writebackCommitsOrFaults : Obligations.WritebackCommitsOrFaults := by
  intro i s I h
  refine ⟨fun hb hp => ?_, fun c hc => exec_writeback_faults h hc⟩
  rw [exec_writeback_retires h hp, hb, if_neg Bool.false_ne_true, retired_eq]

/-! ### Branch resolution (R211, R212) -/

theorem rdIndex_of_isBranch {i : Instr} (h : isBranch i = true) : rdIndex i = 0 := by
  cases i with
  | beq | bne | blt | bge => rfl
  | _ => cases h

/-- A branch commits no register. -/
theorem retired_branch {i : Instr} (h : isBranch i = true) (I : Record) (s : State) :
    retired i I s = { s with memWb := none, counters := { s.counters with retired := s.counters.retired + 1 } } := by
  rw [retired, rdIndex_of_isBranch h]
  rfl

/-- The predictor after the resolution of `I` (R211). -/
def resolvedPredictor (I : Record) (s : State) : PredictorState :=
  if s.cfg.speculation = false then s.pstate
  else if I.taken then updateTarget (updateDirection s.pstate I.pc I.taken) I.pc I.target
  else updateDirection s.pstate I.pc I.taken

theorem resolvePrediction_eq (I : Record) (s : State) :
    resolvePrediction I s = { s with
      pstate := resolvedPredictor I s
      fetchBlocked := if s.cfg.speculation then s.fetchBlocked else false } := by
  unfold resolvePrediction resolvedPredictor
  cases s.cfg.speculation <;> rfl

section
variable {I : Record} (s : State)

theorem resolveBranch_correct (h : I.predTarget = I.target) :
    resolveBranch I s = { s with
      pstate := resolvedPredictor I s
      fetchBlocked := if s.cfg.speculation then s.fetchBlocked else false
      counters := { s.counters with branches := s.counters.branches + 1, correct := s.counters.correct + 1 } } := by
  unfold resolveBranch
  rw [if_neg (not_not.mpr h), resolvePrediction_eq]
  rfl

theorem resolveBranch_mispredicted (h : I.predTarget ≠ I.target) :
    resolveBranch I s = { flush s with
      pstate := resolvedPredictor I s
      pc := I.target
      counters := { s.counters with branches := s.counters.branches + 1, flushes := s.counters.flushes + 1 } } := by
  unfold resolveBranch
  rw [if_pos h, resolvePrediction_eq]
  rfl

end

/-- Settles O37: the count of the record, then the resolution with its prediction right or wrong. -/
theorem branchesResolveAtWriteback : Obligations.BranchesResolveAtWriteback := by
  intro i s I h hb hp
  refine ⟨resolvedPredictor I s, rfl, fun hright => ?_, fun hwrong => ?_⟩ <;>
    rw [exec_writeback_retires h hp, if_pos hb, retired_branch hb]
  · rw [resolveBranch_correct _ hright]
    rfl
  · rw [resolveBranch_mispredicted _ hwrong]
    rfl

end Sys2Proof.Machine
end

section
/-! PROOFS. Branch prediction at fetch, and the reference predictors (spec/40_pipeline.md R217, R219 to R222). -/

namespace Sys2Proof.Machine

/-! ### Fetch of a conditional branch (R217, R219, R220) -/

theorem exec_fetch_branch {i : Instr} {s : State} (h : AtFetch s) (hb : isBranch i = true) :
    exec i s = .next (fetchBranch i s) := by
  obtain ⟨-, hstage, -⟩ := h
  rw [exec_fetch hstage, if_pos hb]

/-- The record carries the predictor's direction and target, and fetch goes on where it points (R220). -/
theorem predictSpeculative_eq (i : Instr) (s : State) :
    predictSpeculative i s = { s with
      ifId := some { newRecord s i with
        predTarget := (predict s.pstate s.pc).getD (s.pc + 4)
        predTaken := (predict s.pstate s.pc).isSome }
      nextSeq := s.nextSeq + 1
      pc := (predict s.pstate s.pc).getD (s.pc + 4) } := by
  unfold predictSpeculative
  cases predict s.pstate s.pc <;> rfl

/-- Settles O25: the fetch of a branch under each setting. -/
theorem fetchPredictsBranches : Obligations.FetchPredictsBranches := by
  intro i s h hb
  rw [exec_fetch_branch h hb, fetchBranch]
  refine ⟨fun hspec => ?_, fun hspec => ?_⟩
  · rw [if_neg (by simp [hspec])]
    rfl
  · rw [if_pos hspec, predictSpeculative_eq]
    rfl

/-! ### The map of `last_outcome` (R222) -/

/-- An entry of a removed key is gone, every other as before. -/
theorem lookupTarget_removeTarget (m : List (Word × Word)) (pc p : Word) :
    lookupTarget (removeTarget m pc) p = if p = pc then none else lookupTarget m p := by
  induction m with
  | nil => simp [removeTarget, lookupTarget]
  | cons e m ih =>
    obtain ⟨k, t⟩ := e
    by_cases hk : k = pc
    · rw [removeTarget, if_pos hk, ih]
      by_cases hp : p = pc
      · rw [if_pos hp, if_pos hp]
      · rw [if_neg hp, if_neg hp, lookupTarget, if_neg fun hkp => hp (hkp.symm.trans hk)]
    · rw [removeTarget, if_neg hk, lookupTarget, lookupTarget, ih]
      by_cases hp : p = pc
      · rw [if_pos hp, if_pos hp, if_neg fun hkp => hk (hkp.trans hp)]
      · rw [if_neg hp, if_neg hp]

/-- The entry set is found, every other as before; the keys passed on the way to its place are other keys. -/
theorem lookupTarget_insertTarget (m : List (Word × Word)) (pc target p : Word) :
    lookupTarget (insertTarget m pc target) p = if p = pc then some target else lookupTarget m p := by
  induction m with
  | nil => exact if_congr eq_comm rfl rfl
  | cons e m ih =>
    obtain ⟨k, t⟩ := e
    rw [insertTarget]
    split
    case isTrue => exact if_congr eq_comm rfl rfl
    case isFalse =>
      by_cases hk : pc = k
      · rw [if_pos hk, lookupTarget, lookupTarget, ← hk]
        by_cases hp : p = pc
        · rw [if_pos hp, if_pos hp.symm]
        · rw [if_neg hp, if_neg (Ne.symm hp), if_neg (Ne.symm hp)]
      · rw [if_neg hk, lookupTarget, lookupTarget, ih]
        by_cases hp : p = pc
        · rw [if_pos hp, if_pos hp, if_neg fun hkp => hk (hp.symm.trans hkp.symm)]
        · rw [if_neg hp, if_neg hp]

/-- Settles O26: `last_outcome` is the lookup in its map. -/
theorem referencePredictors : Obligations.ReferencePredictors :=
  ⟨fun _ _ _ => ⟨rfl, rfl, rfl⟩, fun _ => rfl, fun m pc target p =>
    ⟨rfl, lookupTarget_removeTarget m pc p, lookupTarget_insertTarget m pc target p⟩⟩

end Sys2Proof.Machine
end

section
/-! PROOFS. Pending faults through every stage (spec/10_state.md R40, spec/40_pipeline.md R205, spec/41_integer_register.md R315,
spec/60_exceptions.md R509): EX completion alone makes one, and the other stages move, drop or create records without. -/

namespace Sys2Proof.Machine

/-! ### Records that may carry their fault -/

/-- A pending fault of the record is one that the policy allows (R205, R315). -/
def FaultAllowed (policy : DivOverflow) (I : Record) : Prop :=
  ∀ c, I.pendingFault = some c → c = .divOverflow ∧ (opOf I.instr = .div ∨ opOf I.instr = .rem) ∧ policy = .fault

/-- `J` is the record `I` further on, with its pending fault. -/
def SameFault (I J : Record) : Prop := J.instr = I.instr ∧ J.pendingFault = I.pendingFault

theorem FaultAllowed.congr {policy : DivOverflow} {I J : Record} (h : FaultAllowed policy I) (hJ : SameFault I J) :
    FaultAllowed policy J := by
  obtain ⟨hinstr, hpending⟩ := hJ
  rwa [FaultAllowed, hinstr, hpending]

theorem faultAllowed_of_none {policy : DivOverflow} {I : Record} (h : I.pendingFault = none) : FaultAllowed policy I := by
  simp [FaultAllowed, h]

theorem mem_recordsInFlight {s : State} {I : Record} :
    I ∈ recordsInFlight s ↔
      s.memWb = some I ∨ s.exMem = some I ∨ FuState.record? s.fu = some I ∨ s.idEx = some I ∨ s.ifId = some I := by
  simp only [recordsInFlight, List.mem_append, Option.mem_toList, or_assoc]

section
variable {s t : State}

theorem PendingFaultsAreDivisions.allowed (hs : PendingFaultsAreDivisions s) {I : Record} (hI : I ∈ recordsInFlight s) :
    FaultAllowed s.cfg.divOverflow I := hs I hI

/-- Records only moved or dropped. -/
theorem PendingFaultsAreDivisions.of_subset (hs : PendingFaultsAreDivisions s) (hcfg : t.cfg = s.cfg)
    (h : ∀ K ∈ recordsInFlight t, K ∈ recordsInFlight s) : PendingFaultsAreDivisions t := by
  intro K hK
  rw [hcfg]
  exact hs K (h K hK)

/-- One record in flight besides those that were. -/
theorem PendingFaultsAreDivisions.of_one (hs : PendingFaultsAreDivisions s) (hcfg : t.cfg = s.cfg) {J : Record}
    (hJ : FaultAllowed s.cfg.divOverflow J) (h : ∀ K ∈ recordsInFlight t, J = K ∨ K ∈ recordsInFlight s) :
    PendingFaultsAreDivisions t := by
  intro K hK
  rw [hcfg]
  obtain rfl | hK := h K hK
  · exact hJ
  · exact hs K hK

end

/-! ### Writeback -/

theorem faults_unloaded {s : State} (hs : PendingFaultsAreDivisions s) :
    PendingFaultsAreDivisions { s with memWb := none } := by
  refine hs.of_subset rfl fun K hK => ?_
  simp only [mem_recordsInFlight, reduceCtorEq, false_or] at hK ⊢
  exact .inr hK

theorem faults_retired {s : State} (hs : PendingFaultsAreDivisions s) (i : Instr) (I : Record) :
    PendingFaultsAreDivisions (retired i I s) := by
  rw [retired_eq]
  exact faults_unloaded hs

theorem faults_resolveBranch {s : State} (hs : PendingFaultsAreDivisions s) (I : Record) :
    PendingFaultsAreDivisions (resolveBranch I s) := by
  obtain ⟨p, b, ⟨-, hx⟩ | ⟨-, hx⟩⟩ := resolveBranch_cases I s <;> rw [hx]
  · exact hs
  · exact fun K hK => nomatch hK

theorem faults_writeback {s t : State} (hs : PendingFaultsAreDivisions s) (h : writebackStage s = .next t) :
    PendingFaultsAreDivisions t := by
  have henter : PendingFaultsAreDivisions (enterStage .writeback s) := hs
  obtain ⟨i, -, hr⟩ := writebackStage_result h
  cases hr with
  | empty => exact henter
  | fault I c _ _ => exact faults_unloaded (s := enterStage .writeback s) henter
  | retire I _ _ => exact faults_retired henter i I
  | resolve I _ _ => exact faults_resolveBranch (faults_retired henter i I) I

/-! ### MEM -/

/-- An access leaves the record's instruction and pending fault (R110). -/
def KeepsFault (ap : Apply) : Prop := ∀ cfg I b, SameFault I (ap cfg I b).1

theorem applyLoad_keepsFault : KeepsFault applyLoad := fun _ _ _ => ⟨rfl, rfl⟩

theorem applyStore_keepsFault : KeepsFault applyStore := fun _ _ _ => ⟨rfl, rfl⟩

/-- The record in `EX_MEM` replaced by itself further on. -/
theorem faults_of_exMem {s t : State} {I J : Record} (hs : PendingFaultsAreDivisions s) (hI : s.exMem = some I)
    (hJ : SameFault I J) (hcfg : t.cfg = s.cfg)
    (ht : recordsInFlight t = recordsInFlight { s with exMem := some J }) : PendingFaultsAreDivisions t := by
  refine hs.of_one hcfg ((hs.allowed (mem_recordsInFlight.mpr (by simp [hI]))).congr hJ) fun K hK => ?_
  rw [ht] at hK
  simp only [mem_recordsInFlight, Option.some.injEq] at hK ⊢
  tauto

section
variable {ap : Apply} {s : State}

theorem faults_issueAccess (hap : KeepsFault ap) (hs : PendingFaultsAreDivisions s) {I : Record} (hI : s.exMem = some I) :
    PendingFaultsAreDivisions (issueAccess ap I s) := by
  have hresult := issueAccess_result ap I s
  generalize issueAccess ap I s = t at hresult ⊢
  cases hresult with
  | before => exact hs
  | hit _ _ way b =>
    have hkept : SameFault I (ap s.cfg (issued I) b).1 := hap s.cfg (issued I) b
    exact faults_of_exMem hs hI hkept rfl rfl
  | misaligned | outside | busy | request => exact faults_of_exMem (J := issued I) hs hI ⟨rfl, rfl⟩ rfl rfl

theorem faults_replay (hap : KeepsFault ap) (hs : PendingFaultsAreDivisions s) (a : Nat) (b : Block) :
    PendingFaultsAreDivisions (replay ap a b s) := by
  unfold replay
  split
  case h_1 I hI =>
    split
    case isTrue => exact faults_of_exMem hs hI (hap s.cfg I b) rfl rfl
    case isFalse => exact hs
  case h_2 => exact hs

theorem faults_setBlock (hs : PendingFaultsAreDivisions s) (a way : Nat) (b : Block) :
    PendingFaultsAreDivisions (setBlock s a way b) := hs

theorem faults_evictVictim (hs : PendingFaultsAreDivisions s) (a : Nat) : PendingFaultsAreDivisions (evictVictim a s) := by
  obtain ⟨m, n, hx⟩ := evictVictim_writes a s
  rw [hx]
  exact hs

theorem faults_handleResponse (hap : KeepsFault ap) (hs : PendingFaultsAreDivisions s) (a : Nat) (d : List Word) :
    PendingFaultsAreDivisions (handleResponse ap a d s) := by
  have hinstalled := faults_setBlock (faults_evictVictim hs a) a 0 (arrivedBlock (evictVictim a s) a d)
  have hreplayed := faults_replay hap hinstalled a (arrivedBlock (evictVictim a s) a d)
  exact hreplayed

theorem faults_storeRun (hap : KeepsFault ap) (hs : PendingFaultsAreDivisions s) :
    PendingFaultsAreDivisions (storeRun ap s) := by
  obtain ⟨-, hx⟩ | ⟨a, t, -, -, hx⟩ := storeRun_cases ap s <;> rw [hx]
  · exact hs
  · exact faults_handleResponse (s := { s with req := none }) hap hs a _

theorem faults_passMemory (hs : PendingFaultsAreDivisions s) : PendingFaultsAreDivisions (passMemory s) := by
  obtain hx | ⟨I, hI, -, hx⟩ := passMemory_cases s <;> rw [hx]
  · exact hs
  · refine hs.of_subset rfl fun K hK => ?_
    simp only [mem_recordsInFlight, hI, reduceCtorEq, false_or] at hK ⊢
    exact .inr hK

theorem faults_accessMemory (hap : KeepsFault ap) (hs : PendingFaultsAreDivisions s) :
    PendingFaultsAreDivisions (accessMemory ap s) := by
  cases hI : s.exMem with
  | none => rwa [accessMemory_empty hI]
  | some I =>
    have hissue := faults_issueAccess hap hs hI
    rw [accessMemory_some hI]
    obtain ⟨-, hx⟩ | ⟨-, -, hx⟩ | ⟨-, -, hx⟩ := finishAccess_cases ap (issueAccess ap I s) <;> rw [hx]
    · exact hissue
    · exact faults_storeRun hap hissue
    · exact faults_passMemory (faults_storeRun hap hissue)

end

theorem faults_memory {s t : State} (hs : PendingFaultsAreDivisions s) (h : memoryStage s = .next t) :
    PendingFaultsAreDivisions t := by
  have henter : PendingFaultsAreDivisions (enterStage .memory s) := hs
  obtain ⟨-, hx⟩ | ⟨I, -, -, hx⟩ | ⟨I, ap, -, -, hap, hx⟩ := memoryStage_cases s <;>
    obtain rfl := Host.Outcome.next.inj (hx.symm.trans h)
  · exact henter
  · exact faults_passMemory henter
  · obtain ⟨_, _, _, -, rfl⟩ | ⟨_, _, _, -, rfl⟩ := hap
    · exact faults_accessMemory applyLoad_keepsFault henter
    · exact faults_accessMemory applyStore_keepsFault henter

/-! ### EX -/

/-- Completion leaves the record's fault, or makes the overflow of a `DIV` or `REM` pending (R205, R315). -/
theorem faultAllowed_computeOf {policy : DivOverflow} {I : Record} (h : FaultAllowed policy I) :
    FaultAllowed policy (computeOf policy I.instr I) := by
  obtain ⟨-, -, hinstr, -, hp | ⟨hp, hpolicy, hop⟩⟩ := computeOf_keeps policy I.instr I
  · exact h.congr ⟨hinstr, hp⟩
  · intro c hc
    rw [hinstr]
    exact ⟨Option.some.inj (hc.symm.trans hp), hop, hpolicy⟩

theorem faults_complete {s c : State} (hs : PendingFaultsAreDivisions s) (h : completeStage s = .next c) :
    PendingFaultsAreDivisions c := by
  obtain hx | ⟨I, e, n, hfu, -, hx⟩ := completeStage_cases s <;> obtain rfl := Host.Outcome.next.inj (hx.symm.trans h)
  · exact hs
  · have hI : I ∈ recordsInFlight s := mem_recordsInFlight.mpr (by simp [hfu, FuState.record?])
    refine hs.of_one rfl (faultAllowed_computeOf (hs.allowed hI)) fun K hK => ?_
    simp only [mem_recordsInFlight, FuState.record?, Option.some.injEq] at hK ⊢
    tauto

theorem faults_drain {s : State} (hs : PendingFaultsAreDivisions s) : PendingFaultsAreDivisions (drainUnit s) := by
  obtain hx | ⟨I, hfu, hexMem, hx⟩ := drainUnit_cases s <;> rw [hx]
  · exact hs
  · refine hs.of_subset rfl fun K hK => ?_
    simpa [mem_recordsInFlight, hfu, hexMem, FuState.record?] using hK

theorem faults_feed {s : State} (hs : PendingFaultsAreDivisions s) : PendingFaultsAreDivisions (feedUnit s) := by
  obtain hx | ⟨I, hfu, hidEx, hx⟩ := feedUnit_cases s <;> rw [hx]
  · exact hs
  · refine hs.of_subset rfl fun K hK => ?_
    simpa [mem_recordsInFlight, hfu, hidEx, FuState.record?] using hK

theorem faults_execute {s t : State} (hr : s.status = .running) (hs : PendingFaultsAreDivisions s)
    (h : executeStage s = .next t) : PendingFaultsAreDivisions t := by
  obtain ⟨c, hc, -, hx⟩ := executeStage_running hr
  obtain rfl := Host.Outcome.next.inj (hx.symm.trans h)
  exact faults_feed (faults_drain (faults_complete hs hc))

/-! ### Decode and fetch -/

/-- The record decoded carries its fault into `ID_EX`. -/
theorem faults_decoded {s : State} (hs : PendingFaultsAreDivisions s) {I J : Record} (hI : s.ifId = some I)
    (hJ : SameFault I J) (dep : Vector (Option Nat) 32) (pc : Word) :
    PendingFaultsAreDivisions { s with dep := dep, idEx := some J, ifId := none, pc := pc } := by
  refine hs.of_one rfl ((hs.allowed (mem_recordsInFlight.mpr (by simp [hI]))).congr hJ) fun K hK => ?_
  simp only [mem_recordsInFlight, Option.some.injEq, reduceCtorEq] at hK ⊢
  tauto

theorem faults_decode {s t : State} (hs : PendingFaultsAreDivisions s) (h : decodeStage s = .next t) :
    PendingFaultsAreDivisions t := by
  have henter : PendingFaultsAreDivisions (enterStage .decode s) := hs
  obtain hx | ⟨I, rd, imm, hI, -, -, hx⟩ | ⟨I, hI, -, -, hx⟩ := decodeStage_cases s <;>
    obtain rfl := Host.Outcome.next.inj (hx.symm.trans h)
  · exact henter
  · rw [decodeJump_some (s := enterStage .decode s) hI, registerProducer_eq]
    exact faults_decoded (J := { withOperands I (0, 0) with target := I.pc + byteOffset imm }) henter hI ⟨rfl, rfl⟩ _ _
  · obtain ⟨-, hx⟩ | ⟨v, -, hx⟩ := decodeRecord_cases (s := enterStage .decode s) (rd := rdIndex I.instr)
      (rs1 := rs1Index I.instr) (rs2 := rs2Index I.instr) hI <;> rw [hx]
    · exact henter
    · rw [registerProducer_eq]
      exact faults_decoded (J := withOperands I v) henter hI ⟨rfl, rfl⟩ _ _

/-- A record is fetched without a pending fault (R40, R217). -/
theorem faults_fetched {s t : State} (hs : PendingFaultsAreDivisions s) {I : Record} {n : Nat} {pc : Word} {b : Bool}
    (hI : I.pendingFault = none) (ht : t = { s with ifId := some I, nextSeq := n, pc := pc, fetchBlocked := b }) :
    PendingFaultsAreDivisions t := by
  subst ht
  refine hs.of_one rfl (faultAllowed_of_none hI) fun K hK => ?_
  simp only [mem_recordsInFlight, Option.some.injEq] at hK ⊢
  tauto

theorem faults_fetch {s t : State} (hs : PendingFaultsAreDivisions s) (h : fetchStage s = .next t) :
    PendingFaultsAreDivisions t := by
  have henter : PendingFaultsAreDivisions (enterStage .fetch s) := hs
  obtain ⟨n, rfl⟩ | ⟨c, info, rfl⟩ | ⟨i, -, he⟩ := fetchStage_result h
  · exact hs
  · exact hs
  · obtain rfl := Host.Outcome.next.inj ((exec_fetch rfl i).symm.trans he)
    cases isBranch i
    · exact faults_fetched henter (I := newRecord (enterStage .fetch s) i) rfl rfl
    · obtain ⟨I, pc, hb, -, -, hI, -⟩ := fetchBranch_shape i (enterStage .fetch s)
      exact faults_fetched henter hI hb

/-! ### The step -/

theorem faults_afterWriteback : KeptAfterWriteback PendingFaultsAreDivisions where
  memory _ _ hs h := faults_memory hs h
  execute hr hs h := faults_execute hr hs h
  decode _ hs h := faults_decode hs h
  fetch _ hs h := faults_fetch hs h

/-- Settles O49: every stage keeps the pending faults divisions; the tick and draining touch no record. -/
theorem pendingFaultsStayDivisions : Obligations.PendingFaultsStayDivisions := fun _ _ hs h =>
  step_keeps faults_afterWriteback (fun _ hs hw => faults_writeback hs hw) id id hs h

end Sys2Proof.Machine
end

section
/-! PROOFS. The run of a program of one register instruction (spec/40_pipeline.md R200 to R214, spec/70_reset_and_hazards.md
R614). -/

namespace Sys2Proof.Machine

/-! ### Results as the words of the spec (R309, R420) -/

theorem mulResult_eq (a b : Word) : mulResult a b = a * b := rfl

theorem upperValue_eq (imm : Int) : upperValue imm = BitVec.ofInt 64 (imm * 4096) := by
  rw [upperValue, immValue, BitVec.shiftLeft_eq_mul_twoPow, BitVec.ofInt_mul]
  rfl

/-! ### The run (R614) -/

theorem completed_instr (i : Instr) (s : State) : (completed i s).instr = i := by
  obtain ⟨-, -, hinstr, -⟩ := computeOf_keeps s.cfg.divOverflow i
    (withOperands (newRecord s i) (readReg s (rs1Index i), readReg s (rs2Index i)))
  exact hinstr

/-- Only a division can leave a pending fault (R205, R315). -/
theorem completed_pendingFault {i : Instr} (h : isDivision i = false) (s : State) :
    (completed i s).pendingFault = none := by
  obtain ⟨-, -, -, -, hp | ⟨-, -, hop⟩⟩ := computeOf_keeps s.cfg.divOverflow i
    (withOperands (newRecord s i) (readReg s (rs1Index i), readReg s (rs2Index i)))
  · exact hp
  · cases i with
    | div | rem => cases h
    | _ => simp [opOf] at hop

/-- An instruction that only computes a register value: no branch, jump, division, load or store. -/
structure OnlyComputes (i : Instr) : Prop where
  noBranch : isBranch i = false
  noJump : ∀ rd imm, i ≠ .jal rd imm
  noDivision : isDivision i = false
  noAccess : isMemory i = false

/-- The lone instruction in `MEM_WB`. -/
def inWriteback (s : State) (dep : Vector (Option Nat) 32) (i : Instr) : State :=
  { emptyAt s (4 + max 1 (latencyOf s.cfg (opOf i))) dep with memWb := some (completed i s) }

/-- `s` after the lone instruction has retired. -/
def afterRetire (s : State) (dep : Vector (Option Nat) 32) (i : Instr) : State :=
  { emptyAt s (5 + max 1 (latencyOf s.cfg (opOf i))) dep with
    x := if rdIndex i = 0 then s.x else s.x.set (rdIndex i) (completed i s).rdVal
    counters := { s.counters with retired := s.counters.retired + 1 } }

section
variable {i : Instr} {s : State}

theorem LaunchedWith.step_memory (h : LaunchedWith i s) (hi : OnlyComputes i) (dep : Vector (Option Nat) 32) :
    step (inMemory s dep i) = .next (inWriteback s dep i) := by
  have hpass : exec (completed i s).instr (enterStage .memory (inMemory s dep i)) =
      .next (enterStage .memory { inWriteback s dep i with tick := (inMemory s dep i).tick }) := by
    rw [completed_instr, exec_memory_pass rfl hi.noAccess]
    exact congrArg _ (passMemory_some rfl rfl)
  rw [step_alone_memory (s := inMemory s dep i) h.running rfl (emptyAt_empty s 0 dep) (h.past 0 dep) hpass h.running]
  have htick : (inMemory s dep i).tick + 1 = (inWriteback s dep i).tick := by
    simp only [inMemory, inWriteback, emptyAt]
    omega
  rw [htick]
  rfl

theorem LaunchedWith.step_retires (h : LaunchedWith i s) (hi : OnlyComputes i) (dep : Vector (Option Nat) 32) :
    ∃ dep', step (inWriteback s dep i) = .next (afterRetire s dep' i) := by
  obtain ⟨dep', hx⟩ := step_alone_retire (s := inWriteback s dep i) (I := completed i s) h.running rfl
    (emptyAt_empty s 0 dep) (h.past 0 dep) (completed_pendingFault hi.noDivision s)
    (by rw [completed_instr]; exact hi.noBranch)
  have htick : (inWriteback s dep i).tick + 1 = (afterRetire s dep' i).tick := by
    simp only [inWriteback, afterRetire, emptyAt]
    omega
  rw [hx, htick]
  simp only [completed_instr]
  exact ⟨dep', rfl⟩

/-- A lone instruction reaches MEM, passes it, and retires (R614). -/
theorem LaunchedWith.steps_eq (h : LaunchedWith i s) (hi : OnlyComputes i) :
    ∃ dep, steps (5 + max 1 (latencyOf s.cfg (opOf i))) s = .next (afterRetire s dep i) := by
  obtain ⟨dep, hmemory⟩ := steps_to_memory h hi.noBranch hi.noJump hi.noDivision
  obtain ⟨dep', hretires⟩ := h.step_retires hi dep
  refine ⟨dep', ?_⟩
  rw [show 5 + max 1 (latencyOf s.cfg (opOf i)) = 3 + max 1 (latencyOf s.cfg (opOf i)) + 2 by omega, hmemory,
    steps_succ (h.step_memory hi dep), steps_succ hretires]
  rfl

/-- Nothing is left to do, so the next step drains the block (R202). -/
theorem LaunchedWith.drains (h : LaunchedWith i s) (hmiss : s.miss = none) (dep : Vector (Option Nat) 32) :
    step (afterRetire s dep i) = .next { afterRetire s dep i with status := .drained } := by
  refine (runsEndDrainedOrFaulted _).1 h.running ?_
  simp [continues, afterRetire, emptyAt, hmiss]

end

/-- Settles O58: each of the eight only computes, and what it carries to writeback is the word of the spec by definition. -/
theorem loneInstructionRetires : Obligations.LoneInstructionRetires := by
  intro s i v rd rs1 rs2 imm hmem hr htick hpc hblocked hempty hfree hmiss hprogram
  have h : LaunchedWith i s := ⟨hr, htick, hpc, hblocked, hempty, hfree, hprogram⟩
  have hresult : OnlyComputes i ∧ rdIndex i = rd ∧ (completed i s).rdVal = v := by
    rw [← mulResult_eq, ← upperValue_eq] at hmem
    simp only [List.mem_cons, Prod.mk.injEq, List.not_mem_nil, or_false] at hmem
    obtain ⟨rfl, rfl⟩ | ⟨rfl, rfl⟩ | ⟨rfl, rfl⟩ | ⟨rfl, rfl⟩ | ⟨rfl, rfl⟩ | ⟨rfl, rfl⟩ | ⟨rfl, rfl⟩ | ⟨rfl, rfl⟩ :=
      hmem <;>
      exact ⟨⟨rfl, nofun, rfl, rfl⟩, rfl, rfl⟩
  obtain ⟨hi, rfl, rfl⟩ := hresult
  obtain ⟨dep, hrun⟩ := h.steps_eq hi
  exact ⟨_, hrun, hr, rfl, rfl, rfl, rfl, rfl, h.drains hmiss dep⟩

end Sys2Proof.Machine
end

section
/-! PROOFS. EX completion of the register-register operations (spec/41_integer_register.md R300 to R309), and of the two
special cases of division: a zero divisor (R314) and the signed overflow (R315). -/

namespace Sys2Proof.Machine

/-! ### Sums, differences and products modulo `2^64` (R301, R302, R309) -/

theorem toNat_sub_eq_emod (a b : Word) : ((a - b).toNat : Int) = ((a.toNat : Int) - b.toNat) % 2 ^ 64 := by
  rw [BitVec.toNat_sub]
  omega

/-- The low half of a product does not depend on the reading of the operands. -/
theorem toNat_mul_eq_toInt_emod (a b : Word) : ((a * b).toNat : Int) = a.toInt * b.toInt % 2 ^ 64 := by
  have hab : a * b = BitVec.ofInt 64 (a.toInt * b.toInt) := by
    rw [BitVec.ofInt_mul, BitVec.ofInt_toInt, BitVec.ofInt_toInt]
  rw [hab, BitVec.toNat_ofInt]
  exact Int.toNat_of_nonneg (Int.emod_nonneg _ (by decide))

/-- Settles O10: each of the six completes with its operation on words, whose value is the library's. -/
theorem arithmeticAndLogicResults : Obligations.ArithmeticAndLogicResults := by
  intro rd rs1 rs2 s I hx
  refine ⟨⟨_, exec_completes rfl hx, BitVec.toNat_add _ _⟩, ⟨_, exec_completes rfl hx, toNat_sub_eq_emod _ _⟩,
    ⟨_, exec_completes rfl hx, ?_, ?_⟩, ⟨_, exec_completes rfl hx, fun _ => BitVec.getLsbD_and⟩,
    ⟨_, exec_completes rfl hx, fun _ => BitVec.getLsbD_or⟩, ⟨_, exec_completes rfl hx, fun _ => BitVec.getLsbD_xor⟩⟩
  · exact BitVec.toNat_mul _ _
  · exact toNat_mul_eq_toInt_emod _ _

/-! ### Shifts, bit by bit (R306 to R308) -/

theorem getLsbD_sllResult (a b : Word) {k : Nat} (hk : k < 64) :
    (sllResult a b).getLsbD k = (decide (shiftAmount b ≤ k) && a.getLsbD (k - shiftAmount b)) := by
  rw [sllResult, BitVec.getLsbD_shiftLeft, decide_eq_true hk, Bool.true_and, ← decide_not, decide_eq_decide.mpr Nat.not_lt]

/-- Past bit 63 an operand has only zeros, which are what enters. -/
theorem getLsbD_srlResult (a b : Word) (k : Nat) :
    (srlResult a b).getLsbD k = (decide (k + shiftAmount b < 64) && a.getLsbD (k + shiftAmount b)) := by
  rw [srlResult, BitVec.getLsbD_ushiftRight, Nat.add_comm]
  by_cases hin : k + shiftAmount b < 64
  · simp [hin]
  · simp [hin, BitVec.getLsbD_of_ge _ _ (Nat.le_of_not_lt hin)]

theorem getLsbD_sraResult (a b : Word) {k : Nat} (hk : k < 64) :
    (sraResult a b).getLsbD k = a.getLsbD (min (k + shiftAmount b) 63) := by
  rw [sraResult, BitVec.getLsbD_sshiftRight, decide_eq_false (Nat.not_le.mpr hk), Nat.add_comm]
  by_cases hin : k + shiftAmount b < 64
  · simp [hin, Nat.min_eq_left (Nat.le_of_lt_succ hin)]
  · simp [hin, Nat.min_eq_right (Nat.le_of_lt (Nat.le_of_not_lt hin)), BitVec.msb_eq_getLsbD_last]

/-- Settles O11: each completes with its shift by `shiftAmount`. -/
theorem shiftResults : Obligations.ShiftResults := by
  intro rd rs1 rs2 s I hx
  exact ⟨⟨_, exec_completes rfl hx, fun _ => getLsbD_sllResult _ _⟩,
    ⟨_, exec_completes rfl hx, fun k _ => getLsbD_srlResult _ _ k⟩,
    ⟨_, exec_completes rfl hx, fun _ => getLsbD_sraResult _ _⟩⟩

/-! ### Division by zero (R314) -/

theorem divOverflows_zero (a : Word) : divOverflows a 0 = false := by
  simp [divOverflows, signedDivisor]

theorem divResult_zero (a : Word) : divResult a 0 = a := by
  simp [divResult, signedDivisor, tdiv]

theorem divuResult_zero (a : Word) : divuResult a 0 = a := by
  simp [divuResult, unsignedDivisor]

theorem remResult_zero (a : Word) : remResult a 0 = 0 := by
  simp [remResult, signedDivisor, trem, tdiv]

theorem remuResult_zero (a : Word) : remuResult a 0 = 0 := by
  simp [remuResult, unsignedDivisor, Nat.mod_one]

/-- EX completion of a division, whatever its divisor: the record, and the count of a zero divisor. -/
theorem exec_division {i : Instr} {s : State} {I : Record} (hi : isDivision i = true) (hx : AtExecute s I) :
    exec i s = .next { s with
      fu := .done (computeOf s.cfg.divOverflow i I)
      counters := { s.counters with divByZero := s.counters.divByZero + if I.rs2Val = 0 then 1 else 0 } } := by
  obtain ⟨hstage, exit, hfu⟩ := hx
  rw [exec_execute hstage, if_pos hi, completeDivision_busy hfu]

theorem exec_division_by_zero {i : Instr} {s : State} {I : Record} {v : Word} (hi : isDivision i = true)
    (hx : AtExecute s I) (hb : I.rs2Val = 0) (hv : computeOf s.cfg.divOverflow i I = setResult v I) :
    exec i s = .next { resultDone s I v with
      counters := { s.counters with divByZero := s.counters.divByZero + 1 } } := by
  rw [exec_division hi hx, if_pos hb, hv]
  rfl

/-- Settles O13: with the divisor 1 in its place the quotient is the dividend and the remainder 0, and none overflows. -/
theorem divisionByZeroSubstitutesOne : Obligations.DivisionByZeroSubstitutesOne := by
  intro rd rs1 rs2 s I hx hb
  have hno : divOverflows I.rs1Val I.rs2Val = false := hb ▸ divOverflows_zero _
  refine ⟨exec_division_by_zero rfl hx hb ?_, exec_division_by_zero rfl hx hb ?_,
    exec_division_by_zero rfl hx hb ?_, exec_division_by_zero rfl hx hb ?_⟩
  · rw [computeOf, computeSignedDivision_of_not_overflow _ _ _ hno, hb, divResult_zero]
  · rw [computeOf, computeRR, hb, divuResult_zero]
  · rw [computeOf, computeSignedDivision_of_not_overflow _ _ _ hno, hb, remResult_zero]
  · rw [computeOf, computeRR, hb, remuResult_zero]

/-! ### Signed overflow (R315) -/

theorem ne_zero_of_toInt_eq_neg_one {b : Word} (hb : b.toInt = -1) : b ≠ 0 := by
  rintro rfl
  exact absurd hb (by decide)

theorem divOverflows_eq_true {a b : Word} (ha : a.toInt = -2 ^ 63) (hb : b.toInt = -1) : divOverflows a b = true := by
  rw [divOverflows, signedDivisor, if_neg (ne_zero_of_toInt_eq_neg_one hb), decide_eq_true_iff]
  exact ⟨ha, hb⟩

section
variable {f : Word → Word → Word} {w : Word} {i : Instr} {s : State} {I : Record}

/-- Under `fault` the overflow leaves 0 and the fault for writeback, and its divisor counts nothing. -/
theorem exec_division_of_overflow_fault (hi : isDivision i = true)
    (hcompute : ∀ policy, computeOf policy i = computeSignedDivision f w policy) (hx : AtExecute s I)
    (ha : I.rs1Val.toInt = -2 ^ 63) (hb : I.rs2Val.toInt = -1) (hpolicy : s.cfg.divOverflow = .fault) :
    exec i s = .next (resultDone s { I with pendingFault := some .divOverflow } 0) := by
  have hfault : computeSignedDivision f w .fault I = setResult 0 { I with pendingFault := some .divOverflow } :=
    if_pos (divOverflows_eq_true ha hb)
  rw [exec_division hi hx, if_neg (ne_zero_of_toInt_eq_neg_one hb), hpolicy, hcompute, hfault]
  rfl

theorem exec_division_of_overflow_wrap (hi : isDivision i = true)
    (hcompute : ∀ policy, computeOf policy i = computeSignedDivision f w policy) (hx : AtExecute s I)
    (ha : I.rs1Val.toInt = -2 ^ 63) (hb : I.rs2Val.toInt = -1) (hpolicy : s.cfg.divOverflow = .wrap) :
    exec i s = .next (resultDone s I w) := by
  have hwrap : computeSignedDivision f w .wrap I = setResult w I := if_pos (divOverflows_eq_true ha hb)
  exact exec_division_of_ne_zero hi hx (ne_zero_of_toInt_eq_neg_one hb) (by rw [hpolicy, hcompute, hwrap])

end

/-- Settles O14: `DIV` and `REM` are the same signed division, up to the result and its `wrap` value. -/
theorem signedDivisionOverflow : Obligations.SignedDivisionOverflow := by
  intro rd rs1 rs2 s I hx ha hb
  refine ⟨fun hpolicy => ⟨?div_fault, ?rem_fault⟩, fun hpolicy => ⟨?div_wrap, ?rem_wrap⟩⟩
  case div_fault | rem_fault => exact exec_division_of_overflow_fault rfl (fun _ => rfl) hx ha hb hpolicy
  case div_wrap | rem_wrap => exact exec_division_of_overflow_wrap rfl (fun _ => rfl) hx ha hb hpolicy

end Sys2Proof.Machine
end

section
/-! PROOFS. EX completion of the integer operations on an immediate (spec/42_integer_immediate.md R341 to R347). -/

namespace Sys2Proof.Machine

/-! ### Sign-extended immediates (R341 to R344) -/

/-- The model forms the operand in 64 bits at once; in the range of R161 that is the extended 12-bit field. -/
theorem immValue_eq_signExtend {imm : Int} (h : InRange12 imm) : immValue imm = (BitVec.ofInt 12 imm).signExtend 64 := by
  rw [immValue, BitVec.signExtend, toInt_ofInt_of_inRange12 h]

/-- Settles O15: each completes with its operation on the operand and `immValue`. -/
theorem immediateResults : Obligations.ImmediateResults := by
  intro rd rs1 imm s I hx hlow hhigh
  have himm := immValue_eq_signExtend ⟨hlow, hhigh⟩
  refine ⟨⟨_, exec_completes rfl hx, ?addi⟩, ⟨_, exec_completes rfl hx, ?andi⟩, ⟨_, exec_completes rfl hx, ?ori⟩,
    ⟨_, exec_completes rfl hx, ?xori⟩⟩
  case addi => exact toNat_add_ofInt _ _
  case andi | ori | xori => rw [himm]

/-! ### Shifts by an immediate amount, as arithmetic (R345 to R347) -/

theorem toNat_shiftLeft_eq_mul_mod (a : Word) (n : Nat) : (a <<< n).toNat = a.toNat * 2 ^ n % 2 ^ 64 := by
  rw [BitVec.toNat_shiftLeft, Nat.shiftLeft_eq]

theorem toNat_ushiftRight_eq_div (a : Word) (n : Nat) : (a >>> n).toNat = a.toNat / 2 ^ n := by
  rw [BitVec.toNat_ushiftRight, Nat.shiftRight_eq_div_pow]

/-- The copies of the sign bit round the quotient down, for a negative operand too. -/
theorem toInt_sshiftRight_eq_div (a : Word) (n : Nat) : (a.sshiftRight n).toInt = a.toInt / 2 ^ n := by
  rw [BitVec.toInt_sshiftRight, Int.shiftRight_eq_div_pow]
  norm_cast

/-- Settles O16: each completes with its shift of the operand by the unmasked amount. -/
theorem immediateShiftResults : Obligations.ImmediateShiftResults := by
  intro rd rs1 n s I hx _
  exact ⟨⟨_, exec_completes rfl hx, toNat_shiftLeft_eq_mul_mod _ n⟩,
    ⟨_, exec_completes rfl hx, toNat_ushiftRight_eq_div _ n⟩,
    ⟨_, exec_completes rfl hx, toInt_sshiftRight_eq_div _ n⟩⟩

end Sys2Proof.Machine
end

section
/-! PROOFS. EX completion of the four conditional branches (spec/44_branch.md R400 to R404). -/

namespace Sys2Proof.Machine

/-! ### Direction and target of a branch (R400) -/

/-- Both targets are the branch's own place plus an offset, so both wrap modulo `2^64`. -/
theorem toNat_branchTarget (pc : Word) (imm : Int) (taken : Bool) :
    ((if taken then pc + byteOffset imm else pc + 4).toNat : Int) =
      ((pc.toNat : Int) + if taken then 2 * imm else 4) % 2 ^ 64 := by
  cases taken with
  | true =>
    simp only [if_true, byteOffset_eq]
    exact toNat_add_ofInt pc (2 * imm)
  | false => exact toNat_add_ofInt pc 4

/-- What the four branches share: they differ in the predicate alone. -/
theorem exec_branch_completes {i : Instr} {cond : Word → Word → Bool} {imm : Int} {s : State} {I : Record}
    (hi : isDivision i = false) (hcompute : computeOf s.cfg.divOverflow i = computeBranch cond imm) (hx : AtExecute s I) :
    ∃ target : Word,
      (target.toNat : Int) = ((I.pc.toNat : Int) + if cond I.rs1Val I.rs2Val then 2 * imm else 4) % 2 ^ 64 ∧
      exec i s =
        .next { s with fu := .done { I with taken := cond I.rs1Val I.rs2Val, target := target, ready := true } } :=
  ⟨_, toNat_branchTarget I.pc imm (cond I.rs1Val I.rs2Val), by rw [exec_completes hi hx, hcompute, computeBranch]⟩

/-- Settles O19: each of the four is a branch with its own predicate. -/
theorem branchDirectionsAndTargets : Obligations.BranchDirectionsAndTargets := by
  intro rs1 rs2 imm s I hx _ _ i taken hmem
  simp only [List.mem_cons, List.not_mem_nil, or_false, Prod.mk.injEq] at hmem
  obtain ⟨rfl, rfl⟩ | ⟨rfl, rfl⟩ | ⟨rfl, rfl⟩ | ⟨rfl, rfl⟩ := hmem
  case inl => exact exec_branch_completes (cond := condEq) rfl rfl hx
  case inr.inl => exact exec_branch_completes (cond := condNe) rfl rfl hx
  case inr.inr.inl => exact exec_branch_completes (cond := condLt) rfl rfl hx
  case inr.inr.inr => exact exec_branch_completes (cond := condGe) rfl rfl hx

end Sys2Proof.Machine
end

section
/-! PROOFS. EX completion of the upper-immediate load and of the jump (spec/45_upper_immediate_jump.md R420, R421). -/

namespace Sys2Proof.Machine

/-- An immediate of 20 bits moved up by 12 stays within 32 bits, so the word of 64 keeps its sign. -/
theorem toInt_upperValue {imm : Int} (h : InRange20 imm) : (upperValue imm).toInt = imm * 4096 := by
  obtain ⟨hlow, hhigh⟩ := h
  rw [upperValue_eq]
  exact BitVec.toInt_ofInt_eq_self (by decide) (by omega) (by omega)

/-- Settles O17: both write a result that reads no operand, the upper value and the link. -/
theorem upperImmediateAndLinkResults : Obligations.UpperImmediateAndLinkResults := by
  intro rd imm s I hx hlow hhigh
  exact ⟨⟨upperValue imm, exec_completes rfl hx, toInt_upperValue ⟨hlow, hhigh⟩⟩, exec_completes rfl hx⟩

end Sys2Proof.Machine
end

section
/-! PROOFS. Every part of an instruction, and every step of a block that has not faulted, answers a next state
(spec/60_exceptions.md R500, R511). -/

namespace Sys2Proof.Machine

/-- Each of the five parts of an instruction is a function of the state, and a raise is a state too (R500). -/
theorem exec_answers (i : Instr) (s : State) : ∃ t, exec i s = .next t := by
  cases h : s.stage with
  | fetch => exact ⟨_, exec_fetch h i⟩
  | decode =>
    obtain ⟨_, _, -, hx⟩ | ⟨-, hx⟩ := exec_decode h i <;> exact ⟨_, hx⟩
  | execute => exact ⟨_, exec_execute h i⟩
  | memory =>
    obtain ⟨_, _, _, -, hx⟩ | ⟨_, _, _, -, hx⟩ | ⟨-, hx⟩ := exec_memory h i <;> exact ⟨_, hx⟩
  | writeback => exact ⟨_, exec_writeback h i⟩

theorem andThen_answers {o : Host.Outcome State Fault Refusal} {f : State → Host.Outcome State Fault Refusal}
    (ho : ∃ s, o = .next s) (hf : ∀ s, ∃ t, f s = .next t) : ∃ t, andThen o f = .next t := by
  obtain ⟨s, rfl⟩ := ho
  by_cases hs : s.status = .running
  · rw [andThen_running hs]
    exact hf s
  · exact ⟨s, andThen_stopped hs⟩

/-! ### The stages (R200) -/

theorem writebackStage_answers (s : State) : ∃ t, writebackStage s = .next t := by
  cases h : s.memWb with
  | none => exact ⟨_, writebackStage_idle h⟩
  | some I => rw [writebackStage_some h]; exact exec_answers _ _

theorem memoryStage_answers (s : State) : ∃ t, memoryStage s = .next t := by
  cases h : s.exMem with
  | none => exact ⟨_, memoryStage_idle h⟩
  | some I => rw [memoryStage_some h]; exact exec_answers _ _

theorem executeStage_answers (s : State) : ∃ t, executeStage s = .next t := by
  have hcomplete : ∃ c, completeStage s = .next c := by
    obtain hx | ⟨_, _, _, -, -, hx⟩ := completeStage_cases s <;> exact ⟨_, hx⟩
  exact andThen_answers hcomplete fun c => ⟨_, rfl⟩

theorem decodeStage_answers (s : State) : ∃ t, decodeStage s = .next t := by
  obtain hx | ⟨_, _, _, -, -, -, hx⟩ | ⟨_, -, -, -, hx⟩ := decodeStage_cases s <;> exact ⟨_, hx⟩

theorem fetchStage_answers (s : State) : ∃ t, fetchStage s = .next t := by
  obtain ⟨-, hx⟩ | ⟨-, -, hx⟩ | ⟨-, -, -, hx⟩ | ⟨i, -, -, -, -, hx⟩ := fetchStage_cases s
  · exact ⟨_, hx⟩
  · exact ⟨_, hx⟩
  · exact ⟨_, hx⟩
  · rw [hx]; exact exec_answers _ _

theorem cycle_answers (s : State) : ∃ t, cycle s = .next t := by
  have hmemory := andThen_answers (writebackStage_answers s) memoryStage_answers
  have hback := andThen_answers (andThen_answers hmemory executeStage_answers) decodeStage_answers
  exact andThen_answers (andThen_answers hback fetchStage_answers) fun f => ⟨_, rfl⟩

/-- Settles O43: a chain of stages that answer answers, and the run loop answers a fault only of a block that has faulted. -/
theorem everyInstructionAnswersNext : Obligations.EveryInstructionAnswersNext := by
  refine ⟨exec_answers, fun s hs => ?_⟩
  obtain ⟨-, -, hx⟩ | ⟨-, -, hx⟩ | ⟨-, hx⟩ | ⟨code, info, hf, -⟩ := step_cases s
  · rw [hx]; exact cycle_answers s
  · exact ⟨_, hx⟩
  · exact ⟨_, hx⟩
  · exact absurd hf (hs code info)

end Sys2Proof.Machine
end

section
/-! PROOFS. Which stage raises which fault, and the registers a fault leaves (spec/60_exceptions.md R500 to R502, R514): writeback,
MEM and fetch are the stages that raise, and none after writeback commits. -/

namespace Sys2Proof.Machine

/-! ### What each stage raises (R501) -/

/-- The stage that raises each fault of a run (R501). -/
def RaisedAt (code : FaultCode) (st : Stage) : Prop :=
  (code = .divOverflow ∧ st = .writeback) ∨
    ((code = .dataMisaligned ∨ code = .dataBounds ∨ code = .storeBusy) ∧ st = .memory) ∨
    ((code = .fetchPcZero ∨ code = .fetchMisaligned) ∧ st = .fetch)

/-- `t` has the status of `s`, or stopped in the stage `st` with a fault that this stage raises. -/
def RaisesOnly (st : Stage) (s t : State) : Prop :=
  t.status = s.status ∨ ∃ code info, t.status = .faulted code info ∧ t.stage = st ∧ RaisedAt code st

theorem RaisesOnly.raised {st : Stage} {code : FaultCode} (h : RaisedAt code st) (info : FaultInfo) {s u : State}
    (hu : u.stage = st) : RaisesOnly st s (raiseFault code info u) := .inr ⟨code, info, rfl, hu, h⟩

/-- An access raises for a bad address or a busy store, and marks nothing but the miss before it does (R505, R506, R510). -/
theorem issueAccess_raisesOnly (ap : Apply) (I : Record) {s : State} (hs : s.stage = .memory) :
    RaisesOnly .memory s (issueAccess ap I s) := by
  have hresult := issueAccess_result ap I s
  generalize issueAccess ap I s = t at hresult ⊢
  cases hresult with
  | before => exact .inl rfl
  | hit => exact .inl rfl
  | request => exact .inl rfl
  | misaligned => exact .raised (by simp [RaisedAt]) _ hs
  | outside => exact .raised (by simp [RaisedAt]) _ hs
  | busy => exact .raised (by simp [RaisedAt]) _ hs

/-- Once a fault is raised nothing of the access follows it. -/
theorem finishAccess_raisesOnly (ap : Apply) {s u : State} (h : RaisesOnly .memory s u) :
    RaisesOnly .memory s (finishAccess ap u) := by
  obtain hu | ⟨code, info, hu, hstage, hcode⟩ := h
  · exact .inl ((finishAccess_status ap u).trans hu)
  · rw [finishAccess_faulted (by simp [hu])]
    exact .inr ⟨code, info, hu, hstage, hcode⟩

theorem memoryStage_raisesOnly {s t : State} (h : memoryStage s = .next t) : RaisesOnly .memory s t := by
  obtain ⟨-, rfl⟩ | ⟨I, -, -, rfl⟩ | ⟨I, ap, hI, -, -, rfl⟩ := memoryStage_keepsForm h
  · exact .inl rfl
  · exact .inl (passMemory_status _)
  · rw [accessMemory_some (s := enterStage .memory s) hI]
    exact finishAccess_raisesOnly ap (issueAccess_raisesOnly ap I rfl)

theorem fetchStage_raisesOnly {s t : State} (h : fetchStage s = .next t) : RaisesOnly .fetch s t := by
  obtain ⟨-, hx⟩ | ⟨-, -, hx⟩ | ⟨-, -, -, hx⟩ | ⟨i, -, -, -, -, hx⟩ := fetchStage_cases s <;> rw [hx] at h
  · obtain rfl := Host.Outcome.next.inj h
    exact .inl rfl
  · obtain rfl := Host.Outcome.next.inj h
    exact .inl rfl
  · obtain rfl := Host.Outcome.next.inj h
    obtain ⟨-, hf⟩ | ⟨-, hf⟩ := fetchInvalid_cases (enterStage .fetch s) <;> rw [hf]
    · exact .inl rfl
    · exact .raised (by split <;> simp [RaisedAt]) _ rfl
  · obtain ⟨f, hf, hstatus, -⟩ := exec_fetch_runs (s := enterStage .fetch s) rfl i
    obtain rfl := Host.Outcome.next.inj (hf.symm.trans h)
    exact .inl hstatus

/-- Writeback keeps the status, or raises the record's pending fault and commits nothing (R210). -/
theorem WritebackResult.status_or_fault {i : Instr} {s t : State} (h : WritebackResult i s t) :
    t.status = s.status ∨
      ∃ I c, s.memWb = some I ∧ I.pendingFault = some c ∧ t = raiseFault c (.atPc I.pc) { s with memWb := none } := by
  cases h with
  | empty => exact .inl rfl
  | fault I c hw hc => exact .inr ⟨I, c, hw, hc, rfl⟩
  | retire I =>
    obtain ⟨-, hstatus, -⟩ := retired_writes i I s
    exact .inl hstatus
  | resolve I =>
    obtain ⟨-, hstatus, -⟩ := retired_writes i I s
    obtain ⟨-, hstatus', -⟩ := resolveBranch_writes I (retired i I s)
    exact .inl (hstatus'.trans hstatus)

/-! ### The state a fault leaves (R502, R514) -/

/-- `t` has the registers and the retired count that the writeback stage of the cycle from `s` left, and that stage raised nothing. -/
def AfterWriteback (s t : State) : Prop :=
  ∃ w, writebackStage s = .next w ∧ w.status = .running ∧ t.x = w.x ∧ t.counters.retired = w.counters.retired

/-- Where a cycle from `s` can stand: past writeback with its registers, or stopped by a fault, at writeback with the registers
of `s` or later with those of writeback. -/
inductive CycleStands (s t : State) : Prop where
  | runs (hr : t.status = .running) (hw : AfterWriteback s t)
  | writebackFault (info : FaultInfo) (hf : t.status = .faulted .divOverflow info) (hstage : t.stage = .writeback)
      (hx : t.x = s.x) (hretired : t.counters.retired = s.counters.retired)
  | laterFault (code : FaultCode) (info : FaultInfo) (hf : t.status = .faulted code info) (hstage : t.stage ≠ .writeback)
      (hcode : RaisedAt code t.stage) (hw : AfterWriteback s t)

theorem CycleStands.afterWriteback {s t : State} (h : CycleStands s t) (hr : t.status = .running) : AfterWriteback s t := by
  cases h with
  | runs _ hw => exact hw
  | writebackFault _ hf => simp [hr] at hf
  | laterFault _ _ hf => simp [hr] at hf

/-- A stage after writeback that raises only its own faults, and writes neither registers nor retired count. -/
theorem CycleStands.of_raisesOnly {s u t : State} {st : Stage} (hr : u.status = .running) (hst : st ≠ .writeback)
    (h : RaisesOnly st u t) (hw : AfterWriteback s t) : CycleStands s t := by
  obtain hstatus | ⟨code, info, hf, rfl, hcode⟩ := h
  · exact .runs (hstatus.trans hr) hw
  · exact .laterFault code info hf hst hcode hw

theorem cycleStands_writeback {s t : State} (hr : s.status = .running) (hp : PendingFaultsAreDivisions s)
    (h : writebackStage s = .next t) : CycleStands s t := by
  obtain ⟨i, -, hresult⟩ := writebackStage_result h
  obtain hstatus | ⟨I, c, hI, hc, rfl⟩ := hresult.status_or_fault
  · have hrun : t.status = .running := hstatus.trans hr
    exact .runs hrun ⟨t, h, hrun, rfl, rfl⟩
  · obtain ⟨rfl, -⟩ := hp I (mem_recordsInFlight.mpr (.inl hI)) c hc
    exact .writebackFault _ rfl rfl rfl rfl

theorem cycleStands_afterWriteback (s : State) : KeptAfterWriteback (CycleStands s) where
  memory hr _ hs h := .of_raisesOnly hr (by decide) (memoryStage_raisesOnly h) <| by
    rw [(memoryStage_frame h).1]; exact hs.afterWriteback hr
  execute hr hs h := .runs (by rw [executeStage_writes h]; exact hr) <| by
    rw [executeStage_writes h]; exact hs.afterWriteback hr
  decode hr hs h := .runs (by rw [decodeStage_writes h]; exact hr) <| by
    rw [decodeStage_writes h]; exact hs.afterWriteback hr
  fetch hr hs h := .of_raisesOnly hr (by decide) (fetchStage_raisesOnly h) <| by
    rw [(fetchStage_frame h).1]; exact hs.afterWriteback hr

/-- A step that faults is a cycle that a fault stopped. -/
theorem step_faulted_stands {s t : State} {code : FaultCode} {info : FaultInfo} (hr : s.status = .running)
    (hp : PendingFaultsAreDivisions s) (h : step s = .next t) (hf : t.status = .faulted code info) : CycleStands s t := by
  obtain ⟨-, -, hx⟩ | ⟨-, -, hx⟩ | ⟨hn, -⟩ | ⟨_, _, hn, -⟩ := step_cases s
  · obtain ⟨-, ht⟩ | ⟨f, hrun, -, rfl⟩ :=
      (cycleStands_afterWriteback s).cycle (fun _ => cycleStands_writeback hr hp) (hx ▸ h)
    · exact ht
    · simp [hrun] at hf
  · obtain rfl := Host.Outcome.next.inj (hx.symm.trans h)
    cases hf
  · simp [hr] at hn
  · simp [hr] at hn

/-- Settles O45: the faulting state is where the fault stopped the cycle. -/
theorem faultsArePrecise : Obligations.FaultsArePrecise := by
  intro s t code info hr hp h hf
  cases step_faulted_stands hr hp h hf with
  | runs hrun _ => simp [hrun] at hf
  | writebackFault _ hfault hstage hx hretired =>
    obtain ⟨rfl, -⟩ := Status.faulted.inj (hf.symm.trans hfault)
    exact ⟨.inl ⟨rfl, hstage⟩, fun _ => ⟨hx, hretired⟩, fun hne => absurd hstage hne⟩
  | laterFault _ _ hfault hstage hcode hw =>
    obtain ⟨rfl, -⟩ := Status.faulted.inj (hf.symm.trans hfault)
    exact ⟨hcode, fun he => absurd he hstage, fun _ => hw⟩

end Sys2Proof.Machine
end

section
/-! PROOFS. The state a launch leaves (spec/70_reset_and_hazards.md R600 to R603): the values that `REG_INIT` and `MEM_INIT`
give, by one argument for both lists, then the pieces of `State.initial` that the configuration shapes, and the invariants
there. -/

namespace Sys2Proof.Machine

/-! ### Initial values read in order (R602, R603)

`REG_INIT` and `MEM_INIT` are both lists of keys with values, no key twice, each entry writing the word of its key and no
other. What such a list leaves is proved once. -/

/-- The entries, none with a key in `seen`, take `x` to `y`: the word of a listed key is its value, any other is that of `x`. -/
structure EntriesSet {σ κ β : Type} (get : σ → κ → Word) (key : κ → Int) (value : β → Word) (seen : List Int)
    (entries : List (Int × β)) (x y : σ) : Prop where
  fresh : ∀ e ∈ entries, e.1 ∉ seen
  listed : ∀ k b, (key k, b) ∈ entries → get y k = value b
  unlisted : ∀ k, (∀ b, (key k, b) ∉ entries) → get y k = get x k

/-- `read` takes entries one at a time, each with a key not seen before, and writes the word of that key alone; `inv` holds
throughout. -/
structure WritesInOrder {σ κ β : Type} (read : List Int → σ → List (Int × β) → Except LaunchError σ) (inv : σ → Prop)
    (get : σ → κ → Word) (key : κ → Int) (value : β → Word) : Prop where
  nil : ∀ seen x, read seen x [] = .ok x
  cons : ∀ {seen x i b rest y}, inv x → read seen x ((i, b) :: rest) = .ok y →
    i ∉ seen ∧ ∃ z, inv z ∧ (∀ k, get z k = if key k = i then value b else get x k) ∧ read (i :: seen) z rest = .ok y

theorem WritesInOrder.sets {σ κ β : Type} {read : List Int → σ → List (Int × β) → Except LaunchError σ} {inv : σ → Prop}
    {get : σ → κ → Word} {key : κ → Int} {value : β → Word} (h : WritesInOrder read inv get key value) {seen : List Int}
    {x y : σ} {entries : List (Int × β)} (hx : inv x) (hread : read seen x entries = .ok y) :
    inv y ∧ EntriesSet get key value seen entries x y := by
  induction entries generalizing seen x with
  | nil =>
    obtain rfl : x = y := Except.ok.inj ((h.nil seen x).symm.trans hread)
    exact ⟨hx, by simp, by simp, fun _ _ => rfl⟩
  | cons e rest ih =>
    obtain ⟨i, b⟩ := e
    obtain ⟨hi, z, hz, hget, hrest⟩ := h.cons hx hread
    obtain ⟨hy, hfresh, hlisted, hunlisted⟩ := ih hz hrest
    have honce : ∀ c, (i, c) ∉ rest := fun c hc => hfresh _ hc List.mem_cons_self
    refine ⟨hy, List.forall_mem_cons.mpr ⟨hi, fun e he hs => hfresh e he (List.mem_cons_of_mem i hs)⟩,
      fun k c hc => ?_, fun k hk => ?_⟩
    · rcases List.mem_cons.mp hc with hhead | hc
      · obtain ⟨rfl, rfl⟩ := Prod.mk.inj hhead
        rw [hunlisted k honce, hget, if_pos rfl]
      · exact hlisted k c hc
    · have hne : key k ≠ i := fun e => hk b (e ▸ List.mem_cons_self)
      rw [hunlisted k fun c hc => hk c (List.mem_cons_of_mem _ hc), hget, if_neg hne]

/-- The registers a `REG_INIT` entry can set: every one but `x0` (R602). -/
abbrev SettableReg := { r : Reg // r ≠ 0 }

/-- The addresses a `MEM_INIT` entry can set (R603). -/
abbrev WordAddress := { a : Nat // a % 8 = 0 }

theorem initRegisters_writesInOrder :
    WritesInOrder initRegisters (fun _ => True) (fun x (r : SettableReg) => x.get r.1) (fun r => r.1.val)
      (fun v => BitVec.ofInt 64 (v.getD 0)) where
  nil _ _ := rfl
  cons {seen x i v rest y} _ hread := by
    cases hcheck : checkRegEntry seen i v with
    | none => simp [initRegisters, hcheck] at hread
    | some p =>
      obtain ⟨r, w⟩ := p
      obtain ⟨rfl, hseen, n, rfl, -, rfl⟩ := (checkRegEntry_eq_some seen i v r w).mp hcheck
      simp only [initRegisters, hcheck] at hread
      refine ⟨hseen, _, trivial, fun ⟨k, hk⟩ => ?_, hread⟩
      have hkey : (k.val : Int) = r.val ↔ r = k := by rw [Int.natCast_inj, ← Fin.ext_iff, eq_comm]
      simp only [hkey, Option.getD_some]
      by_cases hr : r = 0
      · subst hr
        rw [if_pos rfl, if_neg hk.symm]
      · rw [if_neg hr, ← vector_get_set]

/-- The canonical form, within the data region (R49, R102). -/
def DataWf (cfg : Config) (m : Memory) : Prop := Memory.wf m ∧ ∀ c ∈ m, cfg.codeBytes ≤ c.1 ∧ c.1 < cfg.memBytes

theorem dataWf_nil (cfg : Config) : DataWf cfg [] := ⟨Memory.wf_nil, by simp⟩

theorem dataWf_writeWord {cfg : Config} {m : Memory} (h : DataWf cfg m) {a : Nat} (hlow : cfg.codeBytes ≤ a)
    (hhigh : a + 8 ≤ cfg.memBytes) (v : Word) : DataWf cfg (Memory.writeWord m a v) :=
  ⟨Memory.writeWord_wf h.1 a v, Memory.address_writeBytes (p := fun b => cfg.codeBytes ≤ b ∧ b < cfg.memBytes) h.2 8
    fun j hj => by omega⟩

theorem Memory.readWord_nil (a : Nat) : Memory.readWord [] a = 0 := by
  simp only [Memory.readWord, Memory.read_nil]
  rfl

/-- A word written, read back at any word address. -/
theorem Memory.readWord_writeWord_aligned {m : Memory} (h : Memory.wf m) {a b : Nat} (ha : a % 8 = 0) (hb : b % 8 = 0)
    (v : Word) : Memory.readWord (Memory.writeWord m a v) b = if b = a then v else Memory.readWord m b := by
  split
  next he => rw [he, Memory.readWord_writeWord_same h]
  next hne => exact Memory.readWord_writeWord_other h (by omega) v

theorem initMemory_writesInOrder {cfg : Config} (hmem : 8 ∣ cfg.memBytes) :
    WritesInOrder (initMemory cfg) (DataWf cfg) (fun m (a : WordAddress) => Memory.readWord m a.1) (fun a => a.1)
      (BitVec.ofInt 64) where
  nil _ _ := rfl
  cons {seen m i n rest y} hm hread := by
    simp only [initMemory, Bool.and_eq_true, decide_eq_true_iff, Bool.not_eq_true', List.contains_eq_mem,
      decide_eq_false_iff_not] at hread
    split at hread
    next hvalid =>
      obtain ⟨⟨⟨haligned, hlow, hhigh⟩, -⟩, hseen⟩ := hvalid
      refine ⟨hseen, _, dataWf_writeWord hm (by omega) (by omega) _, fun ⟨a, ha⟩ => ?_, hread⟩
      have hkey : (a : Int) = i ↔ a = i.toNat := by omega
      simp only [Memory.readWord_writeWord_aligned hm.1 (show i.toNat % 8 = 0 by omega) ha, hkey]
    next => simp at hread

/-! ### The launch (R600) -/

theorem checkRecord_ok {r : RawRecord} {i : Instr} (h : checkRecord r = .ok i) : rawOfInstr i = r := by
  cases hop : r.op with
  | unknown name => simp [checkRecord, hop] at h
  | known op =>
    have hi : wellFormedInstr op r = some i := by
      cases hw : wellFormedInstr op r <;> simp_all [checkRecord]
    simp only [wellFormedInstr, Option.dite_none_right_eq_some, Option.ite_none_right_eq_some, Bool.and_eq_true,
      decide_eq_true_iff, Option.some.injEq] at hi
    obtain ⟨_, ⟨_, hraw⟩, rfl⟩ := hi
    exact hraw

/-- The program is the list of the instructions that the records spell (R600). -/
theorem checkProgram_ok {rs : List RawRecord} {p : List Instr} (h : checkProgram rs = .ok p) :
    p.map rawOfInstr = rs := by
  induction rs generalizing p with
  | nil =>
    obtain rfl := Except.ok.inj h
    rfl
  | cons r rs ih =>
    cases hr : checkRecord r with
    | error e => simp [checkProgram, hr] at h
    | ok i =>
      cases hrs : checkProgram rs with
      | error e => simp [checkProgram, hr, hrs] at h
      | ok q =>
        simp only [checkProgram, hr, hrs, Except.ok.injEq] at h
        rw [← h, List.map_cons, checkRecord_ok hr, ih hrs]

/-- A launch that answers a state has passed its four checks, and the state is made of what they read. -/
theorem launch_next {l : LaunchInput} {s : State} (h : launch l = .next s) :
    ∃ p x m, ConfigValid l.cfg l.program.length ∧ checkProgram l.program = .ok p ∧
      initRegisters [] (Vector.replicate 32 0) l.regInit = .ok x ∧ initMemory l.cfg [] [] l.memInit = .ok m ∧
        s = State.initial l.cfg p x m := by
  obtain ⟨hcfg, ⟨p, hp⟩, ⟨x, hx⟩, m, hm⟩ := (resetSequence_ok_iff l).mp ((launch_next_iff l).mp ⟨s, h⟩)
  simp only [launch, resetSequence, hcfg, hp, hx, hm, Host.Outcome.next.injEq] at h
  exact ⟨p, x, m, (firstFailingCheck_eq_none _ _).mp hcfg, hp, hx, hm, h.symm⟩

/-! ### What a valid configuration gives (R13) -/

section
variable {cfg : Config} {n : Nat}

theorem ConfigValid.setCount_mul (h : ConfigValid cfg n) : setCount cfg * (cfg.blockBytes * cfg.ways) = cfg.cacheBytes := by
  obtain ⟨k, hk⟩ := h .setCount
  exact Nat.div_mul_cancel (Dvd.intro _ hk.symm)

theorem ConfigValid.geometryOk (h : ConfigValid cfg n) : GeometryOk cfg := by
  obtain ⟨hwords, hblock⟩ := h .blockSize
  have hrow := rowBytes_pos (h .blockSize) (h .waysPowerOfTwo)
  obtain ⟨k, hk⟩ := h .setCount
  refine ⟨hblock, Nat.mod_eq_zero_of_dvd hwords, ?_, Nat.pos_of_mul_pos_left hrow⟩
  rw [setCount, hk, Nat.mul_div_cancel_left _ hrow]
  exact Nat.two_pow_pos k

theorem ConfigValid.words_memBytes (h : ConfigValid cfg n) : 8 ∣ cfg.memBytes :=
  (h .blockSize).1.trans (h .regionAlignment).2

end

/-! ### The initial state (R600) -/

section
variable (cfg : Config) (p : List Instr) (x : Vector Word 32) (m : Memory)

theorem initial_pipelineEmpty : PipelineEmpty (State.initial cfg p x m) := ⟨rfl, rfl, rfl, rfl, rfl⟩

theorem initial_x (r : Reg) : (State.initial cfg p x m).x.get r = if r = 0 then 0 else x.get r :=
  (vector_get_set x 0 r 0).trans (if_congr eq_comm rfl rfl)

theorem initial_dep (r : Reg) : (State.initial cfg p x m).dep.get r = none := vector_get_replicate none r

theorem initial_cache_length : (State.initial cfg p x m).cache.length = setCount cfg := List.length_replicate

theorem initial_cache {ways : List Block} (h : ways ∈ (State.initial cfg p x m).cache) :
    ways = List.replicate cfg.ways (Block.reset (blockWords cfg)) := List.eq_of_mem_replicate h

theorem initial_block {ways : List Block} (h : ways ∈ (State.initial cfg p x m).cache) {b : Block} (hb : b ∈ ways) :
    b = Block.reset (blockWords cfg) := by
  rw [initial_cache cfg p x m h] at hb
  exact List.eq_of_mem_replicate hb

end

/-- Settles O6: the empty launch's initial state. -/
theorem resetLeavesSpecValues : Obligations.ResetLeavesSpecValues := by
  refine ⟨rfl, rfl, rfl, rfl, rfl, initial_pipelineEmpty .., fun i => ?_, initial_dep _ _ _ _, rfl, rfl, rfl, rfl,
    fun ways hways b hb => ?_⟩
  · rw [State.reset, initial_x, vector_get_replicate, ite_self]
  · rw [initial_block _ _ _ _ hways hb]
    exact ⟨rfl, rfl, rfl⟩

/-- Settles O9: the two lists give the registers and the memory their words, and the rest is the initial state. -/
theorem launchSetsTheResetValues : Obligations.LaunchSetsTheResetValues := by
  intro l s h
  obtain ⟨-, -, -, hmemInit⟩ := (launchAcceptsExactlyValidInputs l).mp ⟨s, h⟩
  obtain ⟨p, x, m, hcfg, hp, hx, hm, rfl⟩ := launch_next h
  obtain ⟨-, hregs⟩ := initRegisters_writesInOrder.sets trivial hx
  obtain ⟨-, hwords⟩ := (initMemory_writesInOrder hcfg.words_memBytes).sets (dataWf_nil l.cfg) hm
  refine ⟨rfl, checkProgram_ok hp, rfl, rfl, rfl, rfl, rfl, initial_pipelineEmpty .., ?_, fun i n hi hlisted => ?_,
    fun i hunlisted => ?_, initial_dep _ _ _ _, ?_, fun ways hways => initial_cache _ _ _ _ hways, rfl,
    fun a n hlisted => ?_, fun a ha hunlisted => ?_, rfl, rfl, rfl, rfl⟩
  · rw [initial_x, if_pos rfl]
  · rw [initial_x, if_neg hi]
    exact hregs.listed ⟨i, hi⟩ (some n) hlisted
  · rw [initial_x]
    split
    next => rfl
    next hi => exact (hregs.unlisted ⟨i, hi⟩ hunlisted).trans (vector_get_replicate 0 i)
  · rw [initial_cache_length, hcfg.setCount_mul]
  · obtain ⟨before, after, hsplit⟩ := List.append_of_mem hlisted
    obtain ⟨haligned, -⟩ := hmemInit before _ after hsplit
    exact hwords.listed ⟨a, by omega⟩ n hlisted
  · exact (hwords.unlisted ⟨a, ha⟩ hunlisted).trans (Memory.readWord_nil a)

/-! ### The invariants at the start -/

section
variable {cfg : Config} (p : List Instr) (x : Vector Word 32) {m : Memory}

theorem initial_predictorConfigured (cfg : Config) : PredictorConfigured (State.initial cfg p x m) := by
  show predictorKind (PredictorState.init cfg.predictor) = cfg.predictor
  cases cfg.predictor <;> rfl

theorem initial_cacheShaped (cfg : Config) : CacheShaped (State.initial cfg p x m) := by
  refine ⟨initial_cache_length .., fun ways hways => ⟨?_, fun b hb => ?_, fun w b hb _ => ?_⟩⟩
  · rw [initial_cache _ _ _ _ hways, List.length_replicate]
    rfl
  · rw [initial_block _ _ _ _ hways hb]
    exact List.length_replicate
  · rw [initial_block _ _ _ _ hways (List.mem_of_getElem? hb)]
    rfl

theorem initial_pendingFaults (cfg : Config) : PendingFaultsAreDivisions (State.initial cfg p x m) :=
  fun _ hI => absurd hI List.not_mem_nil

theorem initial_pipelineOrdered (cfg : Config) : PipelineOrdered (State.initial cfg p x m) :=
  (pipelineOrdered_iff _).mpr fun _ =>
    ordered_of_empty (initial_pipelineEmpty ..) (initial_dep _ _ _ _) rfl rfl

/-- No block of the initial cache is valid. -/
theorem initial_wayZero {k : Nat} {b : Block} (h : wayZero (State.initial cfg p x m) k = some b) : b.valid = false := by
  rw [wayZero] at h
  cases hk : (State.initial cfg p x m).cache[k]? with
  | none => simp [hk] at h
  | some ways =>
    rw [hk, Option.getD_some] at h
    rw [initial_block _ _ _ _ (List.mem_of_getElem? hk) (List.mem_of_getElem? h)]
    rfl

theorem initial_memoryCoherent (hg : GeometryOk cfg) (hm : DataWf cfg m) : MemoryCoherent (State.initial cfg p x m) :=
  fun _ => ⟨hg, initial_cacheShaped p x cfg, fun k b hb hv => by simp [initial_wayZero p x hb] at hv,
    fun k b hb hv => by simp [initial_wayZero p x hb] at hv, nofun, hm.2⟩

/-- The invariants hold in the initial state of any cache geometry, program, registers and data memory. -/
theorem initial_meetsTheInvariants (hg : GeometryOk cfg) (hm : DataWf cfg m) :
    let s := State.initial cfg p x m
    ZeroHardwired s ∧ Memory.wf s.mem ∧ TouchedCanonical s ∧ FetchControlled s ∧ PredictorConfigured s ∧ CacheShaped s ∧
      PendingFaultsAreDivisions s ∧ PipelineOrdered s ∧ MemoryCoherent s :=
  ⟨⟨(initial_x cfg p x m 0).trans (if_pos rfl), initial_dep cfg p x m 0⟩, hm.1, List.Pairwise.nil, fun _ => rfl,
    initial_predictorConfigured p x cfg, initial_cacheShaped p x cfg, initial_pendingFaults p x cfg,
    initial_pipelineOrdered p x cfg, initial_memoryCoherent p x hg hm⟩

end

/-- Settles O53: a valid configuration has a geometry, and `MEM_INIT` leaves a data memory. -/
theorem launchMeetsTheInvariants : Obligations.LaunchMeetsTheInvariants := by
  intro l s h
  obtain ⟨p, x, m, hcfg, -, -, hm, rfl⟩ := launch_next h
  obtain ⟨hdata, -⟩ := (initMemory_writesInOrder hcfg.words_memBytes).sets (dataWf_nil l.cfg) hm
  exact initial_meetsTheInvariants p x hcfg.geometryOk hdata

/-- Settles O54: the initial state of the configuration of D59 with an empty memory. -/
theorem resetMeetsTheInvariants : Obligations.ResetMeetsTheInvariants := by
  have hg : GeometryOk Config.reference := by
    unfold GeometryOk
    decide
  exact initial_meetsTheInvariants [] (Vector.replicate 32 0) hg (dataWf_nil _)

end Sys2Proof.Machine
end
